-- ==== Sys2Proof/Word.lean ====
section
/-! DEFINITION. The byte, the only addressable unit of every space (20_memory.md R60), and the
plain values of a byte sequence (00_scope.md R18). -/

namespace Sys2Proof

/-- An 8-bit byte (R60). -/
abbrev Byte := BitVec 8

end Sys2Proof
end

