-- ==== Sys2Proof/Config.lean ====
section
/-! DEFINITION. The constants the spec fixes (00_scope.md R7 to R16), the two parameters it exposes (R14,
log 6; D23, log 7) with their defaults, and the one family of free values (log 3). -/

namespace Sys2Proof.Config

/-- `WINDOW_SIZE` (R7). -/
@[simp, reducible] def windowSize : Nat := 4096

/-- `MAX_MATCH_LEN = 0xFF + 0x12` (R8). -/
@[simp, reducible] def maxMatchLen : Nat := 273

/-- `MIN_MATCH_LEN` (R9). -/
@[simp, reducible] def minMatchLen : Nat := 3

/-- `LONG_FORM_MIN` (R10). -/
@[simp, reducible] def longFormMin : Nat := 18

/-- `BUCKET_CAP` (R11). -/
@[simp, reducible] def bucketCap : Nat := 128

/-- `GROUP_CHUNKS` (R12). -/
@[simp, reducible] def groupChunks : Nat := 8

/-- `KEY_BYTES` (R13). -/
@[simp, reducible] def keyBytes : Nat := 3

/-- The parameters of the model (00_scope.md, summary table of section 4). `reservedLen` is `RESERVED_LEN`,
which gives `HEADER_SIZE` with the constraint `HEADER_SIZE >= 12` built in (R14, D3; log 6). `dstCapacity`
is `DST_CAPACITY`, the largest destination the engine can allocate (OPEN, D23; log 7). -/
structure Params where
  reservedLen : Nat
  dstCapacity : Nat
  deriving DecidableEq, Repr

/-- `HEADER_SIZE`: magic 4, `uncompressed_size` 4, `data_alignment` 4, reserved `RESERVED_LEN` (R14). -/
@[simp, reducible] def Params.headerSize (p : Params) : Nat := 12 + p.reservedLen

/-- The defaults: `HEADER_SIZE = 16` (R14, D3) and `DST_CAPACITY = 2^32 - 1` (D23). -/
@[simp, reducible] def defaultParams : Params := ⟨4, 4294967295⟩

/-- `MAGIC`, the bytes `59 61 7A 30` ("Yaz0") (30_encoding.md R91). -/
@[simp, reducible] def magic : BitVec 32 := 0x59617A30#32

/-- Default of `CMD.ALIGN` (R15). -/
@[simp, reducible] def defaultAlign : BitVec 32 := 0#32

/-- Default of `CMD.LEVEL` (R15). -/
@[simp, reducible] def defaultLevel : Int := 7

/-- A COMPRESS source is shorter than this (R16, R189, D13). -/
@[simp, reducible] def sourceLimit : Nat := 4294967296

/-- FREE VALUE: what byte `address` of `DST` holds after the fault numbered `fault`
(60_exceptions.md R242, U2: any value). Nothing constrains it (log 3). -/
opaque unspecifiedByte (fault address : Nat) : BitVec 8

end Sys2Proof.Config
end

