-- ==== Sys2Proof/Syntax.lean ====
section
/-! DEFINITION. The instructions: one constructor per row of spec/opcode_table.json. The first five
have a bit encoding (30_encoding.md); the others are symbolic (R109). An operand the spec takes from
a register or from `CMD` is no operand of the constructor. -/

namespace Sys2Proof

/-- The declared byte order of a reader (R62, R120). -/
inductive Endian where
  | big
  | little
  deriving DecidableEq, Repr

/-- The read-only spaces a reader can be opened on (R37, R44; log 19). -/
inductive ReadBuf where
  | stream
  | src
  deriving DecidableEq, Repr

/-- One constructor per row of the opcode table, in the table's order. -/
inductive Instr where
  /-- GRP, a flag byte (R93, R205). -/
  | grp (flags : Byte)
  /-- LIT, a literal chunk (R95, R207). -/
  | lit (b : Byte)
  /-- REF2, a 2-byte match code (R96, R209). -/
  | ref2 (n : BitVec 4) (d : BitVec 12)
  /-- REF3, a 3-byte match code (R97, R210). -/
  | ref3 (d : BitVec 12) (e : Byte)
  /-- HDR, the header record (R91, R140). -/
  | hdr (size align : BitVec 32) (reserved : List Byte)
  /-- PARSE_HEADER, host command 1 (R140). -/
  | parseHeader
  /-- WRITE_HEADER (R141). -/
  | writeHeader (size align : BitVec 32)
  /-- COMPRESS, host command 2 (R175, R186). -/
  | compress
  /-- DECOMPRESS, host command 3 (R200). -/
  | decompress
  /-- DECOMPRESS_INTO, host command 4 (R201). -/
  | decompressInto
  /-- DECOMPRESS_UNSAFE, host command 5 (R202). -/
  | decompressUnsafe
  /-- REPLAY, the decoder main loop (R216). -/
  | replay
  /-- COPY, the match data path (R212); its operands are the registers `DIST` and `LEN`. -/
  | copy
  /-- RD_OPEN (R120). -/
  | rdOpen (buf : ReadBuf) (endian : Endian)
  /-- READ_U8 (R121). -/
  | readU8
  /-- READ_U16 (R122). -/
  | readU16
  /-- READ_U24 (R123). -/
  | readU24
  /-- READ_U32 (R124). -/
  | readU32
  /-- READ_BYTES (R125). -/
  | readBytes (n : Nat)
  /-- TELL (R126). -/
  | tell
  /-- SEEK (R127). -/
  | seek (o : Nat)
  /-- READ_U8_UNCHECKED (R129). -/
  | readU8Unchecked
  /-- READ_U16_UNCHECKED (R129). -/
  | readU16Unchecked
  /-- READ_U24_UNCHECKED (R129). -/
  | readU24Unchecked
  /-- READ_U32_UNCHECKED (R129). -/
  | readU32Unchecked
  /-- FIND (R157); its operand is the register `OFF`. -/
  | find
  /-- HT_EVICT (R159). -/
  | htEvict (new : Nat)
  /-- HT_INSERT (R160). -/
  | htInsert (p : Nat)
  /-- HT_UPDATE (R161). -/
  | htUpdate (old new : Nat)
  /-- GROUP_OPEN (R178). -/
  | groupOpen
  /-- GROUP_CLOSE (R184). -/
  | groupClose
  /-- EMIT_LIT (R180). -/
  | emitLit
  /-- EMIT_REF2 (R181). -/
  | emitRef2
  /-- EMIT_REF3 (R182). -/
  | emitRef3
  deriving DecidableEq, Repr

end Sys2Proof
end

