-- ==== Sys2Proof/WellFormed.lean ====
section
/-! DEFINITION. Which terms of `Instr` the spec admits as instructions. -/

namespace Sys2Proof

/-- The constraints the spec puts on operands: `n != 0` in a REF2 (30_encoding.md R96), a reserved
field of `RESERVED_LEN` bytes in a header record (R91, R14), and `1 <= new - old <= 273` in HT_UPDATE
(42_match_finder.md R161). Every other operand admits every value of its type. -/
def Instr.wellFormed (p : Config.Params) : Instr → Bool
  | .grp _ => true
  | .lit _ => true
  | .ref2 n _ => n != 0#4
  | .ref3 _ _ => true
  | .hdr _ _ reserved => reserved.length == p.reservedLen
  | .parseHeader => true
  | .writeHeader _ _ => true
  | .compress => true
  | .decompress => true
  | .decompressInto => true
  | .decompressUnsafe => true
  | .replay => true
  | .copy => true
  | .rdOpen _ _ => true
  | .readU8 => true
  | .readU16 => true
  | .readU24 => true
  | .readU32 => true
  | .readBytes _ => true
  | .tell => true
  | .seek _ => true
  | .readU8Unchecked => true
  | .readU16Unchecked => true
  | .readU24Unchecked => true
  | .readU32Unchecked => true
  | .find => true
  | .htEvict _ => true
  | .htInsert _ => true
  | .htUpdate old new => decide (old < new) && decide (new ≤ old + Config.maxMatchLen)
  | .groupOpen => true
  | .groupClose => true
  | .emitLit => true
  | .emitRef2 => true
  | .emitRef3 => true

end Sys2Proof
end

