-- ==== Sys2Proof/Decode.lean ====
section
/-! DEFINITION. The stream format (30_encoding.md): decoding of the five bit-encoded rows, total on
any bytes, and the encoder written from the same tables. The kind of an item is selected by decoder
state (R94), so decoding takes a context. -/

namespace Sys2Proof

/-! ### Byte order (20_memory.md R61) -/

/-- The big-endian value of two bytes. -/
def be16 (b0 b1 : Byte) : BitVec 16 := b0 ++ b1

/-- The big-endian value of four bytes. -/
def be32 (b0 b1 b2 b3 : Byte) : BitVec 32 := b0 ++ b1 ++ b2 ++ b3

/-- The two bytes of a 16-bit pair, big-endian. -/
def bytes16 (v : BitVec 16) : List Byte := [v.extractLsb' 8 8, v.extractLsb' 0 8]

/-- The four bytes of a 32-bit value, big-endian (41_header_codec.md R141). -/
def bytes32 (v : BitVec 32) : List Byte :=
  [v.extractLsb' 24 8, v.extractLsb' 16 8, v.extractLsb' 8 8, v.extractLsb' 0 8]

/-- `be(bytes)`: the big-endian value of a byte sequence (00_scope.md R18). -/
def beValue (bs : List Byte) : Nat := bs.foldl (fun acc b => acc * 256 + b.toNat) 0

/-- `le(bytes)`: the little-endian value of a byte sequence (00_scope.md R18). -/
def leValue (bs : List Byte) : Nat := beValue bs.reverse

/-- The value of a byte sequence in a declared byte order (20_memory.md R64). -/
def valueOf : Endian → List Byte → Nat
  | .big, bs => beValue bs
  | .little, bs => leValue bs

/-! ### Decoding -/

/-- What the decoder state makes of the bytes at the cursor (R94). `header` is byte 0 of a stream. -/
inductive Ctx where
  | header
  | flag
  | literal
  | reference
  deriving DecidableEq, Repr

/-- Why bytes are not an instruction in a context: too few of them, or no "Yaz0" (R107). -/
inductive DecodeError where
  | truncated
  | badMagic
  deriving DecidableEq, Repr

/-- An instruction and the bytes after it, or a rejection by name. -/
inductive Decoded where
  | ok (i : Instr) (rest : List Byte)
  | rejected (why : DecodeError)
  deriving DecidableEq, Repr

/-- A pair's top nibble, `n` of R96 and `NIB` of R208. -/
def pairNibble (pair : BitVec 16) : BitVec 4 := pair.extractLsb' 12 4

/-- A pair's low 12 bits, `dfield` of R96 and R97. -/
def pairDistance (pair : BitVec 16) : BitVec 12 := pair.extractLsb' 0 12

/-- A match code: REF2 when the top nibble of the pair is not 0, else REF3 (R94 item 3). -/
def decodeReference : List Byte → Decoded
  | b0 :: b1 :: rest =>
    let pair := be16 b0 b1
    if pairNibble pair = 0#4 then
      match rest with
      | e :: rest => .ok (.ref3 (pairDistance pair) e) rest
      | [] => .rejected .truncated
    else .ok (.ref2 (pairNibble pair) (pairDistance pair)) rest
  | _ => .rejected .truncated

/-- The header record at byte 0 (R91): at least `HEADER_SIZE` bytes, and the magic (R145). The two
tests give different names here and one result in R140. -/
def decodeHeader (p : Config.Params) (bs : List Byte) : Decoded :=
  match bs with
  | m0 :: m1 :: m2 :: m3 :: s0 :: s1 :: s2 :: s3 :: a0 :: a1 :: a2 :: a3 :: rest =>
    if rest.length < p.reservedLen then .rejected .truncated
    else if be32 m0 m1 m2 m3 = Config.magic then
      .ok (.hdr (be32 s0 s1 s2 s3) (be32 a0 a1 a2 a3) (rest.take p.reservedLen))
        (rest.drop p.reservedLen)
    else .rejected .badMagic
  | _ => .rejected .truncated

/-- Decoding, total on any bytes (R94, R109). The parameters matter to the header record only (R14). -/
def decode (p : Config.Params) : Ctx → List Byte → Decoded
  | .header, bs => decodeHeader p bs
  | .flag, b :: rest => .ok (.grp b) rest
  | .literal, b :: rest => .ok (.lit b) rest
  | .reference, bs => decodeReference bs
  | .flag, [] => .rejected .truncated
  | .literal, [] => .rejected .truncated

/-! ### Encoding -/

/-- The context in which an instruction stands in a stream, for the rows that have a bit encoding. -/
def Instr.ctx : Instr → Option Ctx
  | .grp _ => some .flag
  | .lit _ => some .literal
  | .ref2 _ _ => some .reference
  | .ref3 _ _ => some .reference
  | .hdr _ _ _ => some .header
  | .parseHeader => none
  | .writeHeader _ _ => none
  | .compress => none
  | .decompress => none
  | .decompressInto => none
  | .decompressUnsafe => none
  | .replay => none
  | .copy => none
  | .rdOpen _ _ => none
  | .readU8 => none
  | .readU16 => none
  | .readU24 => none
  | .readU32 => none
  | .readBytes _ => none
  | .tell => none
  | .seek _ => none
  | .readU8Unchecked => none
  | .readU16Unchecked => none
  | .readU24Unchecked => none
  | .readU32Unchecked => none
  | .find => none
  | .htEvict _ => none
  | .htInsert _ => none
  | .htUpdate _ _ => none
  | .groupOpen => none
  | .groupClose => none
  | .emitLit => none
  | .emitRef2 => none
  | .emitRef3 => none

/-- The bytes of an instruction (R91 to R97); a symbolic row has none (R109) and gives the empty
list. -/
def encode : Instr → List Byte
  | .grp flags => [flags]
  | .lit b => [b]
  | .ref2 n d => bytes16 (n ++ d)
  | .ref3 d e => bytes16 (0#4 ++ d) ++ [e]
  | .hdr size align reserved =>
    bytes32 Config.magic ++ bytes32 size ++ bytes32 align ++ reserved
  | .parseHeader => []
  | .writeHeader _ _ => []
  | .compress => []
  | .decompress => []
  | .decompressInto => []
  | .decompressUnsafe => []
  | .replay => []
  | .copy => []
  | .rdOpen _ _ => []
  | .readU8 => []
  | .readU16 => []
  | .readU24 => []
  | .readU32 => []
  | .readBytes _ => []
  | .tell => []
  | .seek _ => []
  | .readU8Unchecked => []
  | .readU16Unchecked => []
  | .readU24Unchecked => []
  | .readU32Unchecked => []
  | .find => []
  | .htEvict _ => []
  | .htInsert _ => []
  | .htUpdate _ _ => []
  | .groupOpen => []
  | .groupClose => []
  | .emitLit => []
  | .emitRef2 => []
  | .emitRef3 => []

/-! ### The table's numbering of bits (log 11) -/

/-- The `n` bytes of a number, most significant first: an item is one word of the wire's byte order,
so the first byte of the stream is its most significant (R91, R97: mask `0xF00000`). -/
def beBytes : Nat → Nat → List Byte
  | 0, _ => []
  | n + 1, w => BitVec.ofNat 8 (w >>> (8 * n)) :: beBytes n w

/-- The bytes of a table word, padded with zero bytes to the longest item. -/
def tableBytes (nbits w : Nat) : List Byte :=
  beBytes ((nbits + 7) / 8) w ++ [0#8, 0#8]

/-- The context the table's row width stands for: 128 bits the header record, 8 bits a flag byte (the
item every body begins with, R47), 16 or 24 bits a match code. -/
def tableCtx (nbits : Nat) : Ctx :=
  if 24 < nbits then .header else if nbits ≤ 8 then .flag else .reference

/-- The instruction the decoder reads from a table word, with the default parameters (a header of 16 bytes). -/
def decodeTableWord (nbits w : Nat) : Option Instr :=
  match decode Config.defaultParams (tableCtx nbits) (tableBytes nbits w) with
  | .ok i _ => some i
  | .rejected _ => none

end Sys2Proof
end

