-- ==== Sys2Proof/Machine/State.lean ====
section
/-! DEFINITION. The state of the engine (10_state.md R20), as plain data: control and status, the
registers of the five units, the hash table and the four address spaces; why a step can stop; and
the state after power-on (R49). -/

namespace Sys2Proof.Machine

/-! ### Why a step stops -/

/-- The four address spaces (R44). -/
inductive Space where
  | src
  | out
  | stream
  | dst
  deriving DecidableEq, Repr

/-- The model's own faults. The four fault kinds of the spec are no constructors here: taking one is a
next state (60_exceptions.md R241). -/
inductive Fault where
  /-- A byte was read at an address of a space that holds no value: never written (20_memory.md R80)
  or outside the space (R81). Raised by every operation that reads a space. Safe: the machine stops. -/
  | noValue (sp : Space)
  /-- A byte was to be written outside a space (R81). Raised by COPY past the end of `DST` and by
  GROUP_CLOSE with a slot outside `OUT`. Safe: the machine stops. -/
  | outsideSpace (sp : Space)
  /-- The bound of a whole-command loop was used up. Raised by REPLAY and COMPRESS loops only, and
  never reached (70_reset_and_hazards.md R279 gives the bound; log 29). Safe: the machine stops. -/
  | loopBound
  deriving DecidableEq, Repr

/-- What the model gives no meaning to, each under a name of its own. -/
inductive Refusal where
  /-- An instruction that has no meaning yet; raised by `exec`'s refused arms only. Safe. -/
  | notModelled (mnemonic : String)
  /-- Trusted mode on a stream the checked decoder rejects (60_exceptions.md R249, U1); raised by
  DECOMPRESS_UNSAFE and by items in trusted mode. Safe. -/
  | trustedMalformed
  /-- An unchecked read past the end of its buffer (40_byte_reader.md R129); raised by the four
  unchecked reads. Safe. -/
  | uncheckedReadPastEnd
  /-- DECOMPRESS_INTO with a destination that overlaps its input (20_memory.md R78, D15). Safe. -/
  | overlappingBuffers
  /-- DECOMPRESS_INTO without a destination buffer (10_state.md R39: no default). Safe. -/
  | noDestination
  /-- COMPRESS of `2^32` bytes or more (43_compressor.md R189, D13). Safe. -/
  | sourceTooLong
  /-- A decompress command whose header asks for more than `DST_CAPACITY` (D23). Safe. -/
  | destinationTooLarge
  /-- A host command while another runs (60_exceptions.md R251, D22: the model has no move). Safe. -/
  | engineBusy
  /-- A stream item or REPLAY while no decompress command is replaying (44_decompressor.md R216). Safe. -/
  | notReplaying
  /-- A stream item the decoder state does not select (R204, R206, R216: no such step is enabled). Safe. -/
  | itemNotSelected
  /-- EMIT_REF2 or EMIT_REF3 on a match that has no such encoding (30_encoding.md R101). Safe. -/
  | noEncoding
  deriving DecidableEq, Repr

/-! ### Control, status, command, result (10_state.md section 5) -/

/-- The four fault kinds (60_exceptions.md R230). -/
inductive FaultKind where
  | malformedHeader
  | truncatedStream
  | corruptCopy
  | insufficientDestination
  deriving DecidableEq, Repr

/-- `STATUS.STATE` (R40). -/
inductive RunState where
  | idle
  | running
  | done
  | faulted
  deriving DecidableEq, Repr

/-- `STATUS` (R40); `ERR = NONE` is `none`. -/
structure Status where
  state : RunState
  err : Option FaultKind
  deriving DecidableEq, Repr

/-- `CMD.OP` (R39). -/
inductive CmdOp where
  | parseHeader
  | compress
  | decompress
  | decompressInto
  | decompressUnsafe
  deriving DecidableEq, Repr

/-- `CMD.DEST` (R39): a reference to the caller's buffer, which stands in the space `DST` (log 18).
`overlapsInput` is what the reference says about its place beside `CMD.IN` (20_memory.md R78; log 9). -/
structure DestRef where
  len : Nat
  overlapsInput : Bool
  deriving DecidableEq, Repr

/-- `CMD` (R39). -/
structure Cmd where
  op : Option CmdOp
  align : BitVec 32
  level : Int
  input : List Byte
  dest : Option DestRef
  deriving DecidableEq, Repr

/-- `RES` (R41). -/
inductive Res where
  | nothing
  | noHeader
  | header (size align : BitVec 32)
  | bytes (bs : List Byte)
  | destFilled
  deriving DecidableEq, Repr

/-- What the last unit operation returned (00_scope.md R18; log 14). -/
inductive Ret where
  | nothing
  | u8 (v : BitVec 8)
  | u16 (v : BitVec 16)
  | u24 (v : BitVec 32)
  | u32 (v : BitVec 32)
  | bytes (bs : List Byte)
  | pos (p : Nat)
  | insufficientData
  deriving DecidableEq, Repr

/-- `MODE` (R26). -/
inductive Mode where
  | checked
  | trusted
  deriving DecidableEq, Repr

/-- The three decompress commands. -/
inductive DecForm where
  | alloc
  | into
  | unsafeAlloc
  deriving DecidableEq, Repr

/-- Where in the running command's pseudocode the engine stands (the model's own; log 1): no command;
PARSE_HEADER about to read its header; a decompress command about to read its header; a decompress
command in its replay loop; COMPRESS in its main loop. -/
inductive Phase where
  | idle
  | probe
  | header (form : DecForm)
  | replay (form : DecForm)
  | encode
  deriving DecidableEq, Repr

/-! ### Registers -/

/-- The fetch unit (R37). `pos` is `R_POS`, and `RP` during a decompress command (R21). -/
structure Reader where
  buf : ReadBuf
  len : Nat
  pos : Nat
  endian : Endian
  deriving DecidableEq, Repr

/-- The header record registers (R38). -/
structure HeaderRegs where
  magic : BitVec 32
  size : BitVec 32
  align : BitVec 32
  reserved : List Byte
  deriving DecidableEq, Repr

/-- The decoder's registers (R22 to R27). -/
structure Decoder where
  wp : Nat
  dlen : BitVec 32
  flag : BitVec 8
  cnt : Nat
  pair : BitVec 16
  dist : BitVec 13
  nib : BitVec 4
  extra : BitVec 8
  len : BitVec 9
  csrc : Nat
  deriving DecidableEq, Repr

/-- The encoder's and the match finder's registers (R28 to R36). -/
structure Encoder where
  off : Nat
  slen : Nat
  op : Nat
  gslot : Nat
  gflag : BitVec 8
  gidx : Nat
  gopen : Bool
  bestOff : Nat
  bestLen : Nat
  processed : Nat
  key : BitVec 24
  cand : Nat
  clen : Nat
  lim : Nat
  deriving DecidableEq, Repr

/-- The hash table (R42): keys strictly rising, no empty bucket (an absent bucket is the empty one,
D8), the front of a bucket first. -/
abbrev HashTable := List (BitVec 24 × List Nat)

/-- One address space: the bytes that hold a value, addresses strictly rising. An address that is not
listed holds NO VALUE (20_memory.md R80; log 4). -/
abbrev Memory := List Host.Cell

/-- The canonical form of a space: addresses strictly rising. Since an unlisted address holds no value,
no entry can equal what it reads as. -/
abbrev Memory.wf (m : Memory) : Prop := m.Pairwise fun x y => x.1 < y.1

/-- The state of the engine (R20). `params` are the parameters of the model (00_scope.md R14, D23), an
argument of every operation; no step changes them. -/
structure State where
  params : Config.Params
  status : Status
  cmd : Cmd
  cmdPending : Bool
  res : Res
  ret : Ret
  phase : Phase
  mode : Mode
  rd : Reader
  hdr : HeaderRegs
  dec : Decoder
  enc : Encoder
  ht : HashTable
  src : Memory
  out : Memory
  stream : Memory
  streamLen : Nat
  dst : Memory
  dstSpoiled : Option Nat
  freeCount : Nat
  deriving DecidableEq, Repr

/-- The state after power-on (R49): `STATUS` IDLE and NONE, `HT` empty, no command in progress, `CMD` at
the defaults of R39, the parameters at theirs. R49 leaves every other register unspecified: DESIGN CHOICE
zero (log 2). -/
def State.reset : State where
  params := Config.defaultParams
  status := ⟨.idle, none⟩
  cmd := ⟨none, Config.defaultAlign, Config.defaultLevel, [], none⟩
  cmdPending := false
  res := .nothing
  ret := .nothing
  phase := .idle
  mode := .checked
  rd := ⟨.stream, 0, 0, .big⟩
  hdr := ⟨0#32, 0#32, 0#32, List.replicate Config.defaultParams.reservedLen 0#8⟩
  dec := ⟨0, 0#32, 0#8, 0, 0#16, 0#13, 0#4, 0#8, 0#9, 0⟩
  enc := ⟨0, 0, 0, 0, 0#8, 0, false, 0, 0, 0, 0#24, 0, 0, 0⟩
  ht := []
  src := []
  out := []
  stream := []
  streamLen := 0
  dst := []
  dstSpoiled := none
  freeCount := 0

end Sys2Proof.Machine
end

