-- ==== Sys2Proof/Machine/Ops.lean ====
section
/-! DEFINITION. The named operations over memory, the hash table and the registers that several
instructions share: reading and writing a space, buckets, the reader, starting and ending a command,
and taking a fault (60_exceptions.md R241). -/

namespace Sys2Proof.Machine

/-- What executing answers. -/
abbrev Result := Host.Outcome State Fault Refusal

/-- Go on with `f` unless the machine has stopped. -/
def andThen (o : Result) (f : State → Result) : Result :=
  match o with
  | .next s => f s
  | .fault r => .fault r
  | .refused r => .refused r

/-! ### One space -/

/-- The byte at an address; an unlisted address holds no value (20_memory.md R80). -/
def Memory.read : Memory → Nat → Option Byte
  | [], _ => none
  | (b, v) :: m, a => if a = b then some v else Memory.read m a

/-- Writing one byte, keeping addresses strictly rising. -/
def Memory.write : Memory → Nat → Byte → Memory
  | [], a, v => [(a, v)]
  | (b, w) :: m, a, v =>
    if a < b then (a, v) :: (b, w) :: m
    else if a = b then (a, v) :: m
    else (b, w) :: Memory.write m a v

/-- `MemWrite(space, addr, n, bytes)` (00_scope.md R18): bytes at rising addresses. -/
def Memory.writeAll : Memory → Nat → List Byte → Memory
  | m, _, [] => m
  | m, a, v :: vs => Memory.writeAll (m.write a v) (a + 1) vs

/-- A space that holds a byte sequence from address `a` on. -/
def Memory.ofBytesAt : Nat → List Byte → Memory
  | _, [] => []
  | a, v :: vs => (a, v) :: Memory.ofBytesAt (a + 1) vs

/-- A space that holds exactly a byte sequence (R60). -/
def Memory.ofBytes (bs : List Byte) : Memory := Memory.ofBytesAt 0 bs

/-- The bytes from address `a` on, at most `n`, up to the first address that holds no value. -/
def Memory.readUpTo (m : Memory) : Nat → Nat → List Byte
  | _, 0 => []
  | a, n + 1 =>
    match m.read a with
    | some v => v :: Memory.readUpTo m (a + 1) n
    | none => []

/-- `MemRead(space, addr, n)` (R18): the `n` bytes at rising addresses, none if one holds no value. -/
def Memory.readSpan (m : Memory) (a n : Nat) : Option (List Byte) :=
  let bs := m.readUpTo a n
  if bs.length = n then some bs else none

/-! ### The hash table (10_state.md R42) -/

/-- `HT[k]`; an absent bucket is the empty list (D8). -/
def HashTable.bucket : HashTable → BitVec 24 → List Nat
  | [], _ => []
  | (k', b) :: t, k => if k = k' then b else HashTable.bucket t k

/-- Put `(k, b)` in front of a table, or nothing if the bucket is empty (D8). -/
def HashTable.consBucket (k : BitVec 24) (b : List Nat) (t : HashTable) : HashTable :=
  match b with
  | [] => t
  | p :: ps => (k, p :: ps) :: t

/-- `HT[k] <- b`, keeping the keys rising and storing no empty bucket. -/
def HashTable.setBucket : HashTable → BitVec 24 → List Nat → HashTable
  | [], k, b => HashTable.consBucket k b []
  | (k', b') :: t, k, b =>
    if k < k' then HashTable.consBucket k b ((k', b') :: t)
    else if k = k' then HashTable.consBucket k b t
    else (k', b') :: HashTable.setBucket t k b

/-- The canonical form of a table: keys strictly rising, no empty bucket. -/
abbrev HashTable.wf (t : HashTable) : Prop :=
  t.Pairwise (fun x y => x.1 < y.1) ∧ ∀ x ∈ t, x.2 ≠ []

/-! ### The reader (10_state.md R37) -/

/-- The space of R44 that a reader's buffer is. -/
def bufSpace : ReadBuf → Space
  | .stream => .stream
  | .src => .src

/-- The contents of a reader's buffer. -/
def State.bufMem (s : State) : ReadBuf → Memory
  | .stream => s.stream
  | .src => s.src

/-- The length of a reader's buffer: `len(STREAM)` or `SLEN`. -/
def State.bufLen (s : State) : ReadBuf → Nat
  | .stream => s.streamLen
  | .src => s.enc.slen

/-- RD_OPEN (40_byte_reader.md R120). -/
def State.openReader (s : State) (buf : ReadBuf) (endian : Endian) : State :=
  { s with rd := ⟨buf, s.bufLen buf, 0, endian⟩ }

/-- `R_POS <- R_POS + n` (R128). -/
def State.advance (s : State) (n : Nat) : State := { s with rd.pos := s.rd.pos + n }

/-- What a bounded read of `n` bytes at the cursor finds (R128). -/
inductive Take where
  | short
  | hole
  | got (bs : List Byte)
  deriving DecidableEq, Repr

/-- The bounds rule of R128 and the bytes at the cursor: `short` exactly when `R_POS + n > R_LEN`. -/
def State.take (s : State) (n : Nat) : Take :=
  if s.rd.len < s.rd.pos + n then .short
  else
    match (s.bufMem s.rd.buf).readSpan s.rd.pos n with
    | some bs => .got bs
    | none => .hole

/-! ### The output spaces -/

/-- Append bytes to `OUT` at `OP` (20_memory.md R83, R84). -/
def State.appendOut (s : State) (bs : List Byte) : State :=
  { s with out := s.out.writeAll s.enc.op bs, enc.op := s.enc.op + bs.length }

/-- The byte of `DST` at an address: a byte written by the running command; after a fault in the replay
every byte of `DST` is any value (60_exceptions.md R242, log 3); else none. -/
def State.dstByte (s : State) (a : Nat) : Option Byte :=
  match s.dst.read a with
  | some v => some v
  | none =>
    match s.dstSpoiled with
    | some k => if a < s.dec.dlen.toNat then some (Config.unspecifiedByte k a) else none
    | none => none

/-- `MemWrite(DST, WP, 1, b); WP <- WP + 1` (44_decompressor.md R207, R212). -/
def State.putDst (s : State) (b : Byte) : State :=
  { s with dst := s.dst.write s.dec.wp b, dec.wp := s.dec.wp + 1 }

/-- "Allocate `DST` with `DLEN` bytes, all unwritten" (R200, 20_memory.md R80). -/
def State.allocDst (s : State) (size : BitVec 32) : State :=
  { s with dst := [], dstSpoiled := none, dec.dlen := size }

/-! ### Commands and faults -/

/-- Command start (10_state.md R40, R47, R48): `STATUS` is RUNNING and NONE, no result, and the engine
stands in `phase`. -/
def State.begin (s : State) (phase : Phase) : State :=
  { s with status := ⟨.running, none⟩, cmdPending := false, res := .nothing, phase := phase }

/-- `STATUS.STATE <- DONE; RES <- res` (R40, R41). -/
def State.finish (s : State) (res : Res) : State :=
  { s with status := ⟨.done, none⟩, res := res, phase := .idle }

/-- `raise <Fault>` (60_exceptions.md R241): `STATUS.ERR` and `STATUS.STATE` are written, the command
ends, there is no result; nothing else changes. There is no vector and no saved cursor. -/
def State.raise (s : State) (e : FaultKind) : State :=
  { s with status := ⟨.faulted, some e⟩, res := .nothing, phase := .idle }

/-- After a fault in the replay every byte of `DST` is any value (R242, D12; log 3). -/
def State.spoilDst (s : State) : State :=
  { s with dst := [], dstSpoiled := some s.freeCount, freeCount := s.freeCount + 1 }

/-- TAKING A FAULT (R241, R242). TruncatedStream and CorruptCopy are raised in the replay and leave `DST`
unspecified; MalformedHeader and InsufficientDestination are raised before it and leave `DST` alone. -/
def State.takeFault (s : State) : FaultKind → State
  | .malformedHeader => s.raise .malformedHeader
  | .truncatedStream => s.spoilDst.raise .truncatedStream
  | .corruptCopy => s.spoilDst.raise .corruptCopy
  | .insufficientDestination => s.raise .insufficientDestination

/-- THE WAY ON AFTER A FAULT (R243): there is no return; the host issues a new command, which it can do only
after the command before has ended: none is in progress and none waits to be taken up (60_exceptions.md
R251, D22). A caller's destination comes with its bytes, `buffer`: it is the space `DST` from then on
(44_decompressor.md R201; log 18). -/
def State.hostIssue (s : State) (cmd : Cmd) (buffer : List Byte) : Option State :=
  match s.phase, s.cmdPending with
  | .idle, false =>
    match cmd.dest with
    | none => some { s with cmd := cmd, cmdPending := true }
    | some _ =>
      some { s with
        cmd := cmd, cmdPending := true, dst := Memory.ofBytes buffer, dstSpoiled := none }
  | .idle, true => none
  | .probe, _ => none
  | .header _, _ => none
  | .replay _, _ => none
  | .encode, _ => none

/-- Whether a command is in progress. -/
def State.busy (s : State) : Bool := s.phase != .idle

/-- `STREAM <- CMD.IN` (R39, R44). -/
def State.loadStream (s : State) : State :=
  { s with stream := Memory.ofBytes s.cmd.input, streamLen := s.cmd.input.length }

end Sys2Proof.Machine
end

