-- ==== Sys2Proof/Machine/Flags.lean ====
section
/-! DEFINITION. The flag computations: the decoder's `FLAG` and the encoder's `GFLAG`. They are the only
flags of the machine (44_decompressor.md, 43_compressor.md). -/

namespace Sys2Proof.Machine

/-- The flag demultiplexer's test, `FLAG[7] = 1` (R206). -/
def flagIsLiteral (flag : BitVec 8) : Bool := flag.getLsbD 7

/-- `(FLAG << 1) & 0xFF` (R213). -/
def flagShift (flag : BitVec 8) : BitVec 8 := flag <<< 1

/-- R213, after every chunk: shift the flag, decrement the countdown. -/
def State.chunkDone (s : State) : State :=
  { s with dec.flag := flagShift s.dec.flag, dec.cnt := s.dec.cnt - 1 }

/-- `0x80 >> GIDX`, the mask of the chunk being emitted (R180). -/
def literalMask (gidx : Nat) : BitVec 8 := 0x80#8 >>> gidx

/-- `GFLAG | (0x80 >> GIDX)` (R180). -/
def setLiteral (gflag : BitVec 8) (gidx : Nat) : BitVec 8 := gflag ||| literalMask gidx

/-- What the decoder state makes of the bytes at `RP` (30_encoding.md R94). -/
def State.itemCtx (s : State) : Ctx :=
  if s.dec.cnt = 0 then .flag
  else if flagIsLiteral s.dec.flag then .literal
  else .reference

end Sys2Proof.Machine
end

