-- ==== Sys2Proof/Machine/Operands.lean ====
section
/-! DEFINITION. Operand assembly: the decoder's distance and length (30_encoding.md R98, R99), the
encoder's fields (R100), the match finder's key (42_match_finder.md R151). Every value is unsigned and
is computed in a width that holds its range (00_scope.md R17). -/

namespace Sys2Proof.Machine

/-- `DIST = (PAIR & 0x0FFF) + 1`, 1 to 4096, in 13 bits (R98, R208). -/
def distOf (pair : BitVec 16) : BitVec 13 := (pairDistance pair).setWidth 13 + 1#13

/-- `LEN = NIB + 2`, 3 to 17 for a REF2 (R99, R209). -/
def shortLen (nib : BitVec 4) : BitVec 9 := nib.setWidth 9 + 2#9

/-- `LEN = EXTRA + 18`, 18 to 273 (R99, R210). -/
def longLen (extra : BitVec 8) : BitVec 9 := extra.setWidth 9 + 18#9

/-- `dfield = OFF - BEST_OFF - 1` (R181, R182). -/
def dfieldOf (off bestOff : Nat) : Nat := off - bestOff - 1

/-- The match `(BEST_OFF, BEST_LEN)` is behind `OFF` and within the 12-bit field (00_scope.md R17). -/
def distanceFits (off bestOff : Nat) : Bool :=
  decide (bestOff < off) && decide (off ≤ bestOff + Config.windowSize)

/-- `((length - 2) << 4) | (dfield >> 8), dfield & 0xFF` (R181). -/
def ref2Bytes (len dfield : Nat) : List Byte :=
  [BitVec.ofNat 8 (((len - 2) <<< 4) ||| (dfield >>> 8)), BitVec.ofNat 8 (dfield &&& 0xFF)]

/-- `dfield >> 8, dfield & 0xFF, alen - 18` (R182). -/
def ref3Bytes (alen dfield : Nat) : List Byte :=
  [BitVec.ofNat 8 (dfield >>> 8), BitVec.ofNat 8 (dfield &&& 0xFF), BitVec.ofNat 8 (alen - 18)]

/-- The bytes of WRITE_HEADER (41_header_codec.md R141). -/
def headerBytes (p : Config.Params) (size align : BitVec 32) : List Byte :=
  bytes32 Config.magic ++ bytes32 size ++ bytes32 align ++ List.replicate p.reservedLen 0#8

/-- The 3-byte key, first byte most significant (20_memory.md R65, D6). -/
def packKey (b0 b1 b2 : Byte) : BitVec 24 := b0 ++ b1 ++ b2

/-- `key(p)` (R151); none if one of the three bytes holds no value. -/
def keyAt (src : Memory) (p : Nat) : Option (BitVec 24) :=
  match src.read p, src.read (p + 1), src.read (p + 2) with
  | some b0, some b1, some b2 => some (packKey b0 b1 b2)
  | _, _, _ => none

end Sys2Proof.Machine
end

