-- ==== Sys2Proof/Machine/FetchUnit.lean ====
section
/-! DEFINITION. The fetch unit (40_byte_reader.md): RD_OPEN, the checked and the unchecked reads, TELL,
SEEK. A checked read that fails is no fault of the machine: it returns `fail(insufficient data)`
(R128). -/

namespace Sys2Proof.Machine

/-- A checked read of `n` bytes (R128): all or nothing; on failure the cursor stays (D10). -/
def checkedRead (n : Nat) (value : Endian → List Byte → Ret) (s : State) : Result :=
  match s.take n with
  | .short => .next { s with ret := .insufficientData }
  | .hole => .fault (.noValue (bufSpace s.rd.buf))
  | .got bs => .next { s.advance n with ret := value s.rd.endian bs }

/-- An unchecked read (R129): the checked read where it is in range; else undefined, hence refused. -/
def uncheckedRead (n : Nat) (value : Endian → List Byte → Ret) (s : State) : Result :=
  match s.take n with
  | .short => .refused .uncheckedReadPastEnd
  | .hole => .fault (.noValue (bufSpace s.rd.buf))
  | .got bs => .next { s.advance n with ret := value s.rd.endian bs }

/-- The value of READ_U8 (R121). -/
def valueU8 (e : Endian) (bs : List Byte) : Ret := .u8 (BitVec.ofNat 8 (valueOf e bs))

/-- The value of READ_U16 (R122). -/
def valueU16 (e : Endian) (bs : List Byte) : Ret := .u16 (BitVec.ofNat 16 (valueOf e bs))

/-- The value of READ_U24 (R123), zero-extended in 32 bits. -/
def valueU24 (e : Endian) (bs : List Byte) : Ret := .u24 (BitVec.ofNat 32 (valueOf e bs))

/-- The value of READ_U32 (R124). -/
def valueU32 (e : Endian) (bs : List Byte) : Ret := .u32 (BitVec.ofNat 32 (valueOf e bs))

/-- The value of READ_BYTES (R125): address order in either byte order. -/
def valueBytes (_ : Endian) (bs : List Byte) : Ret := .bytes bs

/-- RD_OPEN (R120). -/
def execRdOpen (buf : ReadBuf) (endian : Endian) (s : State) : Result :=
  .next (s.openReader buf endian)

/-- READ_U8 (R121). -/
def execReadU8 (s : State) : Result := checkedRead 1 valueU8 s

/-- READ_U16 (R122). -/
def execReadU16 (s : State) : Result := checkedRead 2 valueU16 s

/-- READ_U24 (R123). -/
def execReadU24 (s : State) : Result := checkedRead 3 valueU24 s

/-- READ_U32 (R124). -/
def execReadU32 (s : State) : Result := checkedRead 4 valueU32 s

/-- READ_BYTES (R125). -/
def execReadBytes (n : Nat) (s : State) : Result := checkedRead n valueBytes s

/-- TELL (R126). -/
def execTell (s : State) : Result := .next { s with ret := .pos s.rd.pos }

/-- SEEK (R127): no check, whatever `o` is. -/
def execSeek (o : Nat) (s : State) : Result := .next { s with rd.pos := o }

/-- READ_U8_UNCHECKED (R129). -/
def execReadU8Unchecked (s : State) : Result := uncheckedRead 1 valueU8 s

/-- READ_U16_UNCHECKED (R129). -/
def execReadU16Unchecked (s : State) : Result := uncheckedRead 2 valueU16 s

/-- READ_U24_UNCHECKED (R129). -/
def execReadU24Unchecked (s : State) : Result := uncheckedRead 3 valueU24 s

/-- READ_U32_UNCHECKED (R129). -/
def execReadU32Unchecked (s : State) : Result := uncheckedRead 4 valueU32 s

end Sys2Proof.Machine
end

