-- ==== Sys2Proof/Machine/HeaderUnit.lean ====
section
/-! DEFINITION. The header unit (41_header_codec.md): the header record, WRITE_HEADER, and the header
read that PARSE_HEADER and the decompress commands share. -/

namespace Sys2Proof.Machine

/-- A header record loaded: the header registers hold it and the cursor is past it (R140; 10_state.md
R38). -/
def State.loadHeader (s : State) (size align : BitVec 32) (reserved : List Byte) : State :=
  { s.advance s.params.headerSize with hdr := ⟨Config.magic, size, align, reserved⟩ }

/-- HDR: the header record at the cursor is loaded (R140; 10_state.md R38, R50). -/
def execHdr (size align : BitVec 32) (reserved : List Byte) (s : State) : Result :=
  .next (s.loadHeader size align reserved)

/-- WRITE_HEADER (R141): the record is appended to `OUT`. -/
def execWriteHeader (size align : BitVec 32) (s : State) : Result :=
  .next (s.appendOut (headerBytes s.params size align))

/-- How far the cursor is after the header's four reads, when `avail` bytes are there: a read that fails
moves nothing (R128, R140). -/
def headerReadLen (p : Config.Params) (avail : Nat) : Nat :=
  if p.headerSize ≤ avail then p.headerSize else 4 * min 3 (avail / 4)

/-- The bytes of a header record at the cursor, at most `HEADER_SIZE`. -/
def State.headerWindow (s : State) : List Byte :=
  (s.bufMem s.rd.buf).readUpTo s.rd.pos (min s.params.headerSize (s.rd.len - s.rd.pos))

/-- The header read of R140, over the reader as it stands: the record is executed and `found` goes on, or
there is no header and `absent` goes on. -/
def readHeader (found absent : State → Result) (s : State) : Result :=
  match decode s.params .header s.headerWindow with
  | .ok (.hdr size align reserved) _ => andThen (execHdr size align reserved s) found
  | _ =>
    if s.headerWindow.length < min s.params.headerSize (s.rd.len - s.rd.pos) then
      .fault (.noValue (bufSpace s.rd.buf))
    else absent (s.advance (headerReadLen s.params s.headerWindow.length))

/-- PARSE_HEADER's step (R140): a header or `none`, and the command ends DONE either way (R231). -/
def probeStep (s : State) : Result :=
  readHeader (fun t => .next (t.finish (.header t.hdr.size t.hdr.align)))
    (fun t => .next (t.finish .noHeader)) s

/-- Start of PARSE_HEADER: the probed buffer is in `STREAM`, a big-endian reader is opened on it. -/
def startProbe (s : State) : State := (s.loadStream.openReader .stream .big).begin .probe

/-- PARSE_HEADER, host command 1 (R140). -/
def execParseHeader (s : State) : Result :=
  if s.busy then .refused .engineBusy else probeStep (startProbe s)

end Sys2Proof.Machine
end

