-- ==== Sys2Proof/Machine/MatchFinder.lean ====
section
/-! DEFINITION. The match finder (42_match_finder.md): FIND and the upkeep of the hash table. -/

namespace Sys2Proof.Machine

/-- `cpl` (R154): how many bytes from `a` on equal those from `b` on, at most `lim`; none if a byte that
is compared holds no value. -/
def commonPrefix (src : Memory) : Nat → Nat → Nat → Option Nat
  | 0, _, _ => some 0
  | lim + 1, a, b =>
    match src.read a, src.read b with
    | some x, some y =>
      if x = y then (commonPrefix src lim (a + 1) (b + 1)).map (· + 1) else some 0
    | _, _ => none

/-- One candidate examined with common prefix `l` (R155): it replaces the best only if strictly longer. -/
def Encoder.consider (e : Encoder) (cand l : Nat) : Encoder :=
  { e with
    cand := cand
    clen := l
    bestOff := if e.bestLen < l then cand else e.bestOff
    bestLen := if e.bestLen < l then l else e.bestLen }

/-- The candidate loop of R157, front to back. -/
def scanBucket (src : Memory) : List Nat → Encoder → Option Encoder
  | [], e => some e
  | c :: cs, e =>
    match commonPrefix src e.lim c e.off with
    | some l => scanBucket src cs (e.consider c l)
    | none => none

/-- The registers after a search that found nothing (R152, R153, R156): length 0, offset 0 (log 17). -/
def Encoder.noMatch (e : Encoder) : Encoder := { e with bestOff := 0, bestLen := 0 }

/-- The registers when the candidate loop begins (R157). -/
def Encoder.startScan (e : Encoder) (key : BitVec 24) : Encoder :=
  { e.noMatch with key := key, lim := min Config.maxMatchLen (e.slen - e.off) }

/-- FIND (R157). -/
def execFind (s : State) : Result :=
  if s.enc.slen < s.enc.off + Config.keyBytes then .next { s with enc := s.enc.noMatch }
  else
    match keyAt s.src s.enc.off with
    | none => .fault (.noValue .src)
    | some key =>
      match s.ht.bucket key with
      | [] => .next { s with enc := { s.enc.noMatch with key := key } }
      | c :: cs =>
        match scanBucket s.src (c :: cs) (s.enc.startScan key) with
        | some e => .next { s with enc := e }
        | none => .fault (.noValue .src)

/-- Position `p` is still in the window of `new`: `new - p <= 4096` (R159). -/
def inWindow (new p : Nat) : Bool := decide (new ≤ p + Config.windowSize)

/-- HT_EVICT on the table (R159): every bucket keeps the positions in the window, in order. -/
def HashTable.evict (new : Nat) : HashTable → HashTable
  | [] => []
  | (k, b) :: t => HashTable.consBucket k (b.filter (inWindow new)) (HashTable.evict new t)

/-- HT_EVICT (R159). -/
def execHtEvict (new : Nat) (s : State) : Result := .next { s with ht := s.ht.evict new }

/-- A position at the front of a bucket, the oldest dropped when 128 are there (R160). -/
def pushPosition (p : Nat) (b : List Nat) : List Nat :=
  p :: (if b.length = Config.bucketCap then b.dropLast else b)

/-- HT_INSERT on the table (R160); a position with fewer than 3 bytes left is skipped (D7). -/
def insertPosition (src : Memory) (slen p : Nat) (t : HashTable) : Option HashTable :=
  if slen ≤ p + 2 then some t
  else
    match keyAt src p with
    | some k => some (t.setBucket k (pushPosition p (t.bucket k)))
    | none => none

/-- `n` positions from `p` on, ascending (R161). -/
def insertRange (src : Memory) (slen : Nat) : Nat → Nat → HashTable → Option HashTable
  | 0, _, t => some t
  | n + 1, p, t =>
    match insertPosition src slen p t with
    | some t' => insertRange src slen n (p + 1) t'
    | none => none

/-- Go on with a table, or stop because a byte of `SRC` held no value. -/
def State.withTable (s : State) : Option HashTable → Result
  | some t => .next { s with ht := t }
  | none => .fault (.noValue .src)

/-- HT_INSERT (R160). -/
def execHtInsert (p : Nat) (s : State) : Result :=
  s.withTable (insertPosition s.src s.enc.slen p s.ht)

/-- HT_UPDATE (R161, R162): one eviction with the threshold of `new`, then the positions `old` to
`new - 1` in ascending order. -/
def execHtUpdate (old new : Nat) (s : State) : Result :=
  s.withTable (insertRange s.src s.enc.slen (new - old) old (s.ht.evict new))

end Sys2Proof.Machine
end

