-- ==== Sys2Proof/Machine/EncoderUnit.lean ====
section
/-! DEFINITION. The encoder (43_compressor.md): the group flag assembler, the three emits, the encoder
step and COMPRESS. -/

namespace Sys2Proof.Machine

/-- A group opened (R178): its flag byte reserved at `OP`, no chunk in it. -/
def State.openGroup (s : State) : State :=
  { s.appendOut [0x00#8] with
    enc.gslot := s.enc.op, enc.gflag := 0x00#8, enc.gidx := 0, enc.gopen := true }

/-- The group closed (R184): the flag byte written into its slot. -/
def State.closeGroup (s : State) : State :=
  { s with out := s.out.write s.enc.gslot s.enc.gflag, enc.gopen := false }

/-- A literal emitted (R180). -/
def State.emitByte (s : State) (b : Byte) : State :=
  { s.appendOut [b] with enc.gflag := setLiteral s.enc.gflag s.enc.gidx, enc.processed := 1 }

/-- A match code emitted for `n` source bytes (R181, R182). -/
def State.emitCode (s : State) (n : Nat) (code : List Byte) : State :=
  { s.appendOut code with enc.processed := n }

/-- GROUP_OPEN (R178). -/
def execGroupOpen (s : State) : Result := .next s.openGroup

/-- GROUP_CLOSE (R184). -/
def execGroupClose (s : State) : Result :=
  if s.enc.gslot < s.enc.op then .next s.closeGroup else .fault (.outsideSpace .out)

/-- EMIT_LIT (R180). -/
def execEmitLit (s : State) : Result :=
  if s.enc.slen ≤ s.enc.off then .fault (.noValue .src)
  else
    match s.src.read s.enc.off with
    | some b => .next (s.emitByte b)
    | none => .fault (.noValue .src)

/-- EMIT_REF2 (R181), on a match of 3 to 17 bytes within the window (R101; log 21). -/
def execEmitRef2 (s : State) : Result :=
  if distanceFits s.enc.off s.enc.bestOff = true ∧ Config.minMatchLen ≤ s.enc.bestLen
      ∧ s.enc.bestLen < Config.longFormMin then
    .next (s.emitCode s.enc.bestLen (ref2Bytes s.enc.bestLen (dfieldOf s.enc.off s.enc.bestOff)))
  else .refused .noEncoding

/-- EMIT_REF3 (R182), on a match of 18 bytes or more within the window (R101; log 21). -/
def execEmitRef3 (s : State) : Result :=
  if distanceFits s.enc.off s.enc.bestOff = true ∧ Config.longFormMin ≤ s.enc.bestLen then
    let alen := min Config.maxMatchLen s.enc.bestLen
    .next (s.emitCode alen (ref3Bytes alen (dfieldOf s.enc.off s.enc.bestOff)))
  else .refused .noEncoding

/-! ### The encoder step (R177) and COMPRESS (R186) -/

/-- GROUP_OPEN if no group is open (R178). -/
def openIfClosed (s : State) : Result := if s.enc.gopen then .next s else execGroupOpen s

/-- The literal/match data-path mux (R179). -/
def emitBest (s : State) : Result :=
  if s.enc.bestLen < Config.minMatchLen then execEmitLit s
  else if s.enc.bestLen < Config.longFormMin then execEmitRef2 s
  else execEmitRef3 s

/-- Advance and table update (R183). -/
def advanceEncoder (s : State) : Result :=
  andThen
    (execHtUpdate s.enc.off (s.enc.off + s.enc.processed)
      { s with enc.off := s.enc.off + s.enc.processed })
    fun t => .next { t with enc.gidx := t.enc.gidx + 1 }

/-- GROUP_CLOSE if the group is full or the source is exhausted (R184). -/
def closeIfComplete (s : State) : Result :=
  if s.enc.gidx = Config.groupChunks ∨ s.enc.off = s.enc.slen then execGroupClose s else .next s

/-- One encoder step, one chunk (R177). -/
def encoderStep (s : State) : Result :=
  andThen (openIfClosed s) fun s1 =>
  andThen (execFind s1) fun s2 =>
  andThen (emitBest s2) fun s3 =>
  andThen (advanceEncoder s3) closeIfComplete

/-- The registers and spaces COMPRESS starts with (10_state.md R48). -/
def State.loadSource (s : State) : State :=
  { s with
    src := Memory.ofBytes s.cmd.input
    out := []
    ht := []
    enc.off := 0
    enc.slen := s.cmd.input.length
    enc.op := 0
    enc.gidx := 0
    enc.gopen := false }

/-- Start of COMPRESS (10_state.md R48, R176): a source that fits the size field, the initial state, the
header. -/
def startCompress (s : State) : Result :=
  if s.cmd.input.length < Config.sourceLimit then
    execWriteHeader (BitVec.ofNat 32 s.cmd.input.length) s.cmd.align (s.loadSource.begin .encode)
  else .refused .sourceTooLong

/-- The end of COMPRESS (R186): DONE, with `OUT[0..OP)`. -/
def finishCompress (s : State) : Result :=
  match s.out.readSpan 0 s.enc.op with
  | some bs => .next (s.finish (.bytes bs))
  | none => .fault (.noValue .out)

/-- The main loop (R177): encoder steps while `OFF < SLEN`, then the end. The first argument bounds the
number of steps (log 29). -/
def compressLoop : Nat → State → Result
  | 0, s => if s.enc.off < s.enc.slen then .fault .loopBound else finishCompress s
  | n + 1, s =>
    if s.enc.off < s.enc.slen then andThen (encoderStep s) (compressLoop n) else finishCompress s

/-- COMPRESS, host command 2 (R175, R186). -/
def execCompress (s : State) : Result :=
  if s.busy then .refused .engineBusy
  else andThen (startCompress s) fun t => compressLoop t.enc.slen t

end Sys2Proof.Machine
end

