-- ==== Sys2Proof/Machine/DecoderUnit.lean ====
section
/-! DEFINITION. The decoder's stream items and its loop (44_decompressor.md): GRP, LIT, REF2, REF3, COPY,
REPLAY. -/

namespace Sys2Proof.Machine

/-- The replay of a decompress command is in progress. -/
def State.replaying (s : State) : Bool :=
  match s.phase with
  | .idle => false
  | .probe => false
  | .header _ => false
  | .replay _ => true
  | .encode => false

/-- An item runs only while a replay is in progress, an output byte is owed (R204) and the decoder state
selects its kind (R206; 30_encoding.md R94); no other step is enabled (R216; log 13). -/
def selected (ctx : Ctx) (s : State) (run : State → Result) : Result :=
  if s.replaying = true then
    if s.dec.wp < s.dec.dlen.toNat ∧ s.itemCtx = ctx then run s else .refused .itemNotSelected
  else .refused .notReplaying

/-- A flag byte loaded (R205). -/
def State.loadFlag (s : State) (flags : Byte) : State :=
  { s.advance 1 with dec.flag := flags, dec.cnt := Config.groupChunks }

/-- GRP (R205). -/
def execGrp (flags : Byte) (s : State) : Result :=
  selected .flag s fun s => .next (s.loadFlag flags)

/-- LIT (R207, R213). -/
def execLit (b : Byte) (s : State) : Result :=
  selected .literal s fun s => .next ((s.advance 1).putDst b).chunkDone

/-- An access of COPY outside `DST` or to a byte that holds no value: the model's fault; in trusted mode the
instruction has no meaning and is refused (20_memory.md R82, U1, U3). -/
def badCopy (r : Fault) (s : State) : Result :=
  match s.mode with
  | .checked => .fault r
  | .trusted => .refused .trustedMalformed

/-- The copy loop of R212: one byte at a time, each read seeing the earlier writes. -/
def copyLoop : Nat → State → Result
  | 0, s => .next s
  | n + 1, s =>
    match s.dstByte s.dec.csrc with
    | none => badCopy (.noValue .dst) s
    | some b =>
      if s.dec.wp < s.dec.dlen.toNat then
        copyLoop n { s.putDst b with dec.csrc := s.dec.csrc + 1 }
      else badCopy (.outsideSpace .dst) s

/-- The copy of `LEN` bytes from `WP - DIST` on (R211, R212); a source before `DST[0]` is no address. -/
def copyMatch (s : State) : Result :=
  if s.dec.dist.toNat ≤ s.dec.wp then
    copyLoop s.dec.len.toNat { s with dec.csrc := s.dec.wp - s.dec.dist.toNat }
  else badCopy (.noValue .dst) s

/-- COPY (R212), with the operands `DIST` and `LEN` in their registers. -/
def execCopy (s : State) : Result := copyMatch s

/-- The match decode of R208: the pair has been read. -/
def State.loadPair (s : State) (pair : BitVec 16) : State :=
  { s.advance 2 with
    dec.pair := pair
    dec.dist := distOf pair
    dec.nib := pairNibble pair }

/-- `LEN` of a REF2 (R209). -/
def State.loadShort (s : State) (n : BitVec 4) (d : BitVec 12) : State :=
  { s.loadPair (n ++ d) with dec.len := shortLen n }

/-- `EXTRA` and `LEN` of a REF3 (R210). -/
def State.loadLong (s : State) (d : BitVec 12) (e : Byte) : State :=
  { (s.loadPair (0#4 ++ d)).advance 1 with dec.extra := e, dec.len := longLen e }

/-- The match lies inside `DST` (R211). -/
def State.copyInBounds (s : State) : Bool :=
  decide (s.dec.dist.toNat ≤ s.dec.wp) && decide (s.dec.wp + s.dec.len.toNat ≤ s.dec.dlen.toNat)

/-- Validate, then copy (R211, R212, R213, R275). Out of bounds: CorruptCopy in checked mode; in trusted
mode undefined, hence refused (R249). -/
def validateAndCopy (s : State) : Result :=
  if s.copyInBounds = true then andThen (copyMatch s) fun t => .next t.chunkDone
  else
    match s.mode with
    | .checked => .next (s.takeFault .corruptCopy)
    | .trusted => .refused .trustedMalformed

/-- REF2 (R208, R209). A top nibble of 0 is no REF2 (30_encoding.md R96). -/
def execRef2 (n : BitVec 4) (d : BitVec 12) (s : State) : Result :=
  if n = 0#4 then .refused .itemNotSelected
  else selected .reference s fun s => validateAndCopy (s.loadShort n d)

/-- REF3 (R208, R210). -/
def execRef3 (d : BitVec 12) (e : Byte) (s : State) : Result :=
  selected .reference s fun s => validateAndCopy (s.loadLong d e)

/-! ### Fetching and running one item -/

/-- Run a decoded item. The decoder yields only these four in an item context (R94). -/
def runItem (i : Instr) (s : State) : Result :=
  match i with
  | .grp flags => execGrp flags s
  | .lit b => execLit b s
  | .ref2 n d => execRef2 n d s
  | .ref3 d e => execRef3 d e s
  | _ => .refused .itemNotSelected

/-- How many bytes an item can have, as far as the reader has them. -/
def State.itemAvail (s : State) : Nat := min 3 (s.rd.len - s.rd.pos)

/-- The bytes at the cursor, at most the longest item. -/
def State.itemWindow (s : State) : List Byte :=
  (s.bufMem s.rd.buf).readUpTo s.rd.pos s.itemAvail

/-- What the reads of a truncated item have done before the one that failed: a REF3 whose extra byte is
missing has read its pair (R208, R210, 60_exceptions.md R239). -/
def State.partialFetch (s : State) : State :=
  match s.itemCtx, s.itemWindow with
  | .reference, [b0, b1] => s.loadPair (be16 b0 b1)
  | _, _ => s

/-- A read ran past the end of `STREAM` (R232): TruncatedStream in checked mode; undefined in trusted mode,
hence refused (R249). -/
def truncatedItem (s : State) : Result :=
  match s.mode with
  | .checked => .next (s.partialFetch.takeFault .truncatedStream)
  | .trusted => .refused .trustedMalformed

/-- One item (R216): fetch at `RP`, decode by the decoder state, execute. -/
def itemStep (s : State) : Result :=
  match decode s.params s.itemCtx s.itemWindow with
  | .ok i _ => runItem i s
  | .rejected _ =>
    if s.itemWindow.length < s.itemAvail then .fault (.noValue (bufSpace s.rd.buf))
    else truncatedItem s

/-! ### The replay loop -/

/-- `RP <- HEADER_SIZE; WP <- 0; CNT <- 0; FLAG <- 0` (R216). -/
def State.replayInit (s : State) : State :=
  { s with rd.pos := s.params.headerSize, dec.wp := 0, dec.cnt := 0, dec.flag := 0#8 }

/-- The loop of R216, item by item, until the destination is full or a fault has ended the command. The
first argument bounds the number of items (log 29). -/
def replayLoop : Nat → State → Result
  | 0, s =>
    if s.replaying = true ∧ s.dec.wp < s.dec.dlen.toNat then .fault .loopBound else .next s
  | n + 1, s =>
    if s.replaying = true ∧ s.dec.wp < s.dec.dlen.toNat then andThen (itemStep s) (replayLoop n)
    else .next s

/-- The bound: every chunk writes at least one byte and at most one GRP goes before it (R279). -/
def State.replayBound (s : State) : Nat := 2 * s.dec.dlen.toNat

/-- REPLAY (R216): in a decompress command, over its reader, `DST`, `DLEN` and `MODE`. -/
def execReplay (s : State) : Result :=
  if s.replaying = true then replayLoop s.replayBound s.replayInit else .refused .notReplaying

end Sys2Proof.Machine
end

