-- ==== Sys2Proof/Machine/Commands.lean ====
section
/-! DEFINITION. The host commands that decompress (44_decompressor.md R200 to R203), the start of every
command, and the engine's step: what the engine does next, by where it stands in the running command. -/

namespace Sys2Proof.Machine

/-! ### Decompress commands, stage by stage -/

/-- `MODE` of a decompress command (60_exceptions.md R248). -/
def modeOf : DecForm → Mode
  | .alloc => .checked
  | .into => .checked
  | .unsafeAlloc => .trusted

/-- Start of a decompress command: `STREAM` is loaded, a big-endian reader opened on it, the mode set. -/
def startDecompress (form : DecForm) (s : State) : State :=
  { (s.loadStream.openReader .stream .big).begin (.header form) with mode := modeOf form }

/-- Set-up after an accepted header (R203; 10_state.md R47): `DST` is allocated, all unwritten, and the
replay stands before its first item. -/
def setUpReplay (form : DecForm) (s : State) : State :=
  { (s.allocDst s.hdr.size).replayInit with phase := .replay form }

/-- After a header was found: allocate, or check the caller's destination (R200 to R203, R240). -/
def headerFound (form : DecForm) (s : State) : Result :=
  match form with
  | .alloc | .unsafeAlloc =>
    if s.hdr.size.toNat ≤ s.params.dstCapacity then .next (setUpReplay form s)
    else .refused .destinationTooLarge
  | .into =>
    match s.cmd.dest with
    | none => .refused .noDestination
    | some d =>
      if d.len = s.hdr.size.toNat then .next (setUpReplay form s)
      else .next (s.takeFault .insufficientDestination)

/-- After no header was found: MalformedHeader; undefined in trusted mode, hence refused (R217, D11). -/
def headerAbsent (s : State) : Result :=
  match s.mode with
  | .checked => .next (s.takeFault .malformedHeader)
  | .trusted => .refused .trustedMalformed

/-- The header step of a decompress command (R203). -/
def headerStep (form : DecForm) (s : State) : Result :=
  readHeader (headerFound form) headerAbsent s

/-- The end of a decompress command (R200, R201, R215): DONE, with `DST[0..DLEN)`, or with the caller's
destination filled. -/
def finishReplay (form : DecForm) (s : State) : Result :=
  match form with
  | .alloc | .unsafeAlloc =>
    match s.dst.readSpan 0 s.dec.dlen.toNat with
    | some bs => .next (s.finish (.bytes bs))
    | none => .fault (.noValue .dst)
  | .into => .next (s.finish .destFilled)

/-- The replay and the end, if the header step got that far. -/
def replayAndFinish (s : State) : Result :=
  match s.phase with
  | .replay form =>
    andThen (replayLoop s.replayBound s) fun t =>
      if t.replaying = true then finishReplay form t else .next t
  | .idle => .next s
  | .probe => .next s
  | .header _ => .next s
  | .encode => .next s

/-- A decompress command from its start to its end (R200, R201). -/
def runDecompress (form : DecForm) (s : State) : Result :=
  andThen (headerStep form (startDecompress form s)) replayAndFinish

/-- The set `W` of R249: DECOMPRESS on `CMD.IN` would end in DONE. -/
def acceptedStream (s : State) : Bool :=
  match runDecompress .alloc s with
  | .next t => decide (t.status.state = .done)
  | .fault _ => false
  | .refused _ => false

/-- What must hold before a decompress command starts: a destination that does not overlap its input
(20_memory.md R78), a stream in `W` for the trusted command (R202, R249: refused from its start). -/
def admitDecompress (form : DecForm) (s : State) : Result :=
  match form with
  | .alloc => .next s
  | .into =>
    match s.cmd.dest with
    | none => .refused .noDestination
    | some d => if d.overlapsInput then .refused .overlappingBuffers else .next s
  | .unsafeAlloc => if acceptedStream s then .next s else .refused .trustedMalformed

/-- A decompress host command. -/
def decompressCommand (form : DecForm) (s : State) : Result :=
  if s.busy then .refused .engineBusy else andThen (admitDecompress form s) (runDecompress form)

/-- DECOMPRESS, host command 3 (R200). -/
def execDecompress (s : State) : Result := decompressCommand .alloc s

/-- DECOMPRESS_INTO, host command 4 (R201). -/
def execDecompressInto (s : State) : Result := decompressCommand .into s

/-- DECOMPRESS_UNSAFE, host command 5 (R202). -/
def execDecompressUnsafe (s : State) : Result := decompressCommand .unsafeAlloc s

/-! ### The engine's step -/

/-- Taking up a command the host has written (10_state.md R39). -/
def acceptCommand (op : CmdOp) (s : State) : Result :=
  match op with
  | .parseHeader => .next (startProbe s)
  | .compress => startCompress s
  | .decompress => andThen (admitDecompress .alloc s) fun t => .next (startDecompress .alloc t)
  | .decompressInto => andThen (admitDecompress .into s) fun t => .next (startDecompress .into t)
  | .decompressUnsafe =>
    andThen (admitDecompress .unsafeAlloc s) fun t => .next (startDecompress .unsafeAlloc t)

/-- An engine with no command in progress: it takes up a command that was written, or waits (log 28). A record
without an operation is taken up and starts nothing (log 27). -/
def idleStep (s : State) : Result :=
  if s.cmdPending then
    match s.cmd.op with
    | some op => acceptCommand op s
    | none => .next { s with cmdPending := false }
  else .next s

/-- What the engine does next (log 1): take up a command; read a header; execute the stream item at `RP`
(R216: one step is one item), or end the command when the destination is full (R204, R274); do one
encoder step (R177), or end the command when the source is exhausted (R185). -/
def engineStep (s : State) : Result :=
  match s.phase with
  | .idle => idleStep s
  | .probe => probeStep s
  | .header form => headerStep form s
  | .replay form =>
    if s.dec.wp < s.dec.dlen.toNat then itemStep s else finishReplay form s
  | .encode => if s.enc.off < s.enc.slen then encoderStep s else finishCompress s

/-! ### A word placed where the engine fetches next (log 11) -/

/-- A decompress command in progress over a stream of the given bytes, its header accepted: the state of
10_state.md R47 with `DLEN = 1` and the decoder state that selects the item's kind. -/
def placeItem (cnt : Nat) (bytes : List Byte) (s : State) : State :=
  let stream := headerBytes s.params 1#32 0#32 ++ bytes
  let s := { s with
    stream := Memory.ofBytes stream
    streamLen := stream.length
    hdr := ⟨Config.magic, 1#32, 0#32, List.replicate s.params.reservedLen 0#8⟩ }
  let s := setUpReplay .alloc ((s.openReader .stream .big).begin (.replay .alloc))
  { s with mode := .checked, dec.cnt := cnt }

/-- A decompress command in progress over the given bytes, about to read its header. -/
def placeHeader (bytes : List Byte) (s : State) : State :=
  let s := { s with stream := Memory.ofBytes bytes, streamLen := bytes.length }
  { (s.openReader .stream .big).begin (.header .alloc) with mode := .checked }

/-- The word of a table row placed so that the next step fetches and runs it. -/
def placeWord (nbits w : Nat) (s : State) : State :=
  match tableCtx nbits with
  | .header => placeHeader (tableBytes nbits w) s
  | .flag => placeItem 0 (tableBytes nbits w) s
  | .literal => placeItem 0 (tableBytes nbits w) s
  | .reference => placeItem Config.groupChunks (tableBytes nbits w) s

end Sys2Proof.Machine
end

