-- ==== Sys2Proof/Machine/Dispatch.lean ====
section
/-! DEFINITION. One arm per instruction; each calls its meaning. -/

namespace Sys2Proof.Machine

def exec (i : Instr) (s : State) : Host.Outcome State Fault Refusal :=
  match i with
  -- stream items and the header record
  | .grp flags => Sys2Proof.Machine.execGrp flags s
  | .lit b => Sys2Proof.Machine.execLit b s
  | .ref2 n d => Sys2Proof.Machine.execRef2 n d s
  | .ref3 d e => Sys2Proof.Machine.execRef3 d e s
  | .hdr size align reserved => Sys2Proof.Machine.execHdr size align reserved s
  -- header unit
  | .parseHeader => Sys2Proof.Machine.execParseHeader s
  | .writeHeader size align => Sys2Proof.Machine.execWriteHeader size align s
  -- host commands and the decoder
  | .compress => Sys2Proof.Machine.execCompress s
  | .decompress => Sys2Proof.Machine.execDecompress s
  | .decompressInto => Sys2Proof.Machine.execDecompressInto s
  | .decompressUnsafe => Sys2Proof.Machine.execDecompressUnsafe s
  | .replay => Sys2Proof.Machine.execReplay s
  | .copy => Sys2Proof.Machine.execCopy s
  -- fetch unit
  | .rdOpen buf endian => Sys2Proof.Machine.execRdOpen buf endian s
  | .readU8 => Sys2Proof.Machine.execReadU8 s
  | .readU16 => Sys2Proof.Machine.execReadU16 s
  | .readU24 => Sys2Proof.Machine.execReadU24 s
  | .readU32 => Sys2Proof.Machine.execReadU32 s
  | .readBytes n => Sys2Proof.Machine.execReadBytes n s
  | .tell => Sys2Proof.Machine.execTell s
  | .seek o => Sys2Proof.Machine.execSeek o s
  | .readU8Unchecked => Sys2Proof.Machine.execReadU8Unchecked s
  | .readU16Unchecked => Sys2Proof.Machine.execReadU16Unchecked s
  | .readU24Unchecked => Sys2Proof.Machine.execReadU24Unchecked s
  | .readU32Unchecked => Sys2Proof.Machine.execReadU32Unchecked s
  -- match finder
  | .find => Sys2Proof.Machine.execFind s
  | .htEvict new => Sys2Proof.Machine.execHtEvict new s
  | .htInsert p => Sys2Proof.Machine.execHtInsert p s
  | .htUpdate old new => Sys2Proof.Machine.execHtUpdate old new s
  -- encoder
  | .groupOpen => Sys2Proof.Machine.execGroupOpen s
  | .groupClose => Sys2Proof.Machine.execGroupClose s
  | .emitLit => Sys2Proof.Machine.execEmitLit s
  | .emitRef2 => Sys2Proof.Machine.execEmitRef2 s
  | .emitRef3 => Sys2Proof.Machine.execEmitRef3 s

end Sys2Proof.Machine
end

