-- ==== Sys2Proof/Machine/Step.lean ====
section
/-! DEFINITION. One step of the engine. -/

namespace Sys2Proof.Machine

/-- One step: see `engineStep`. -/
def step (s : State) : Host.Outcome State Fault Refusal := engineStep s

/-- A table row's word placed so that the next step fetches and runs it: see `placeWord`. -/
def State.withFetchWord (s : State) (nbits w : Nat) : State := placeWord nbits w s

end Sys2Proof.Machine
end

