-- ==== Sys2Proof/Safety.lean ====
section
/-! DEFINITION. The terms the claims use: which bytes a space holds, the streams of 30_encoding.md as
chunk lists with what they stand for, the settled hash table, and the invariant of the engine. -/

namespace Sys2Proof.Machine

/-! ### Outcomes -/

/-- The state of a next outcome. -/
def nextState? : Result → Option State
  | .next s => some s
  | .fault _ => none
  | .refused _ => none

/-! ### Spaces -/

/-- A space holds a byte at each of the addresses 0 to `n - 1`, and at no other. -/
abbrev Memory.holds (m : Memory) (n : Nat) : Prop := m.map Prod.fst = List.range n

/-! ### Streams as chunk lists (30_encoding.md R90, R92, R110) -/

/-- One chunk: a literal byte, or `REF d=dist l=len` with the decoder's values (R110). -/
inductive Chunk where
  | lit (b : Byte)
  | ref (dist len : Nat)
  deriving DecidableEq, Repr

/-- How many output bytes a chunk stands for (R102). -/
def Chunk.size : Chunk → Nat
  | .lit _ => 1
  | .ref _ len => len

/-- The instruction of a chunk: REF assembles to REF2 below 18 bytes and to REF3 from 18 on (R101, R110). -/
def Chunk.instr : Chunk → Instr
  | .lit b => .lit b
  | .ref dist len =>
    if len < Config.longFormMin then .ref2 (BitVec.ofNat 4 (len - 2)) (BitVec.ofNat 12 (dist - 1))
    else .ref3 (BitVec.ofNat 12 (dist - 1)) (BitVec.ofNat 8 (len - 18))

/-- A chunk is legal when `wp` bytes of `dlen` are out: an output byte is owed (R204); a match has an
encoding (R101) and lies inside the destination (44_decompressor.md R211). -/
def Chunk.legal (wp dlen : Nat) : Chunk → Bool
  | .lit _ => decide (wp < dlen)
  | .ref dist len =>
    decide (1 ≤ dist ∧ dist ≤ Config.windowSize ∧ Config.minMatchLen ≤ len
      ∧ len ≤ Config.maxMatchLen ∧ dist ≤ wp ∧ wp + len ≤ dlen)

/-- Chunks that are legal one after another and fill the destination exactly (R103). -/
def legalChunks (dlen : Nat) : Nat → List Chunk → Bool
  | wp, [] => decide (wp = dlen)
  | wp, c :: cs => c.legal wp dlen && legalChunks dlen (wp + c.size) cs

/-- `n` bytes appended one at a time, each the byte `dist` behind (20_memory.md R75). -/
def appendCopy (dist : Nat) : Nat → List Byte → List Byte
  | 0, out => out
  | n + 1, out => appendCopy dist n (out ++ (out.drop (out.length - dist)).take 1)

/-- The output after one chunk. -/
def Chunk.apply (out : List Byte) : Chunk → List Byte
  | .lit b => out ++ [b]
  | .ref dist len => appendCopy dist len out

/-- What a chunk list stands for. -/
def expandChunks (cs : List Chunk) : List Byte := cs.foldl Chunk.apply []

/-- Flag bits of the chunks of one group from chunk `i` on, the unused ones taken from `spare`
(R93, R104). -/
def groupFlag (spare : Byte) : Nat → List Chunk → Byte
  | i, [] => spare &&& (0xFF#8 >>> i)
  | i, .lit _ :: cs => (0x80#8 >>> i) ||| groupFlag spare (i + 1) cs
  | i, .ref _ _ :: cs => groupFlag spare (i + 1) cs

/-- The body of a stream (R90, R92): groups of a flag byte and up to 8 chunks; `spare` gives the unused
flag bits of the last group. The first argument bounds the number of groups. -/
def assembleGroups (spare : Byte) : Nat → List Chunk → List Byte
  | 0, _ => []
  | _ + 1, [] => []
  | n + 1, c :: cs =>
    let group := (c :: cs).take Config.groupChunks
    groupFlag spare 0 group :: group.flatMap (fun x => encode x.instr)
      ++ assembleGroups spare n ((c :: cs).drop Config.groupChunks)

/-- The body of a stream. -/
def assembleBody (spare : Byte) (cs : List Chunk) : List Byte := assembleGroups spare cs.length cs

/-- The bytes of a stream: a header record with any reserved bytes (R91, R106), a body, and trailing bytes
that no item reaches (R105). -/
def streamBytes (size align : BitVec 32) (reserved : List Byte) (spare : Byte) (cs : List Chunk)
    (trailing : List Byte) : List Byte :=
  encode (.hdr size align reserved) ++ assembleBody spare cs ++ trailing

/-! ### The copy (20_memory.md R75) -/

/-- The `dist` bytes behind `WP` have been written. -/
def sourceWritten (s : State) (dist : Nat) : Prop :=
  ∀ a, s.dec.wp ≤ a + dist → a < s.dec.wp → (s.dst.read a).isSome

/-- `DST` of `t` is that of `s` with the last `dist` bytes before `WP` repeated to `len` bytes at `WP`, and
nothing else (the closed form of R75). -/
def copiedBehind (s t : State) (dist len : Nat) : Prop :=
  (∀ i, i < len → t.dst.read (s.dec.wp + i) = s.dst.read (s.dec.wp - dist + i % dist)) ∧
  ∀ a, a < s.dec.wp ∨ s.dec.wp + len ≤ a → t.dst.read a = s.dst.read a

/-- The bytes at `addr` in `after` are `bs`, and every other byte is that of `before`. -/
def storedAt (before after : Memory) (addr : Nat) (bs : List Byte) : Prop :=
  (∀ i, i < bs.length → after.read (addr + i) = bs[i]?) ∧
  ∀ a, a < addr ∨ addr + bs.length ≤ a → after.read a = before.read a

/-- A match code stands at the cursor of a replay and an output byte is owed (R204, R206). -/
def awaitsReference (s : State) : Prop :=
  s.replaying = true ∧ s.dec.wp < s.dec.dlen.toNat ∧ 0 < s.dec.cnt ∧ s.dec.flag.getLsbD 7 = false

/-! ### The settled hash table (42_match_finder.md R164) -/

/-- The positions of the window of `o` that begin with the key `k`, nearest first. -/
def windowPositions (src : Memory) (slen o : Nat) (k : BitVec 24) : List Nat :=
  (List.range o).reverse.filter fun p =>
    inWindow o p && decide (p + 2 < slen) && decide (keyAt src p = some k)

/-- The closed form of R164: every bucket is the first 128 of its window positions. -/
def settledAt (src : Memory) (slen o : Nat) (t : HashTable) : Prop :=
  ∀ k, t.bucket k = (windowPositions src slen o k).take Config.bucketCap

/-! ### The invariant -/

/-- The reader of a decompress command or PARSE_HEADER: big-endian, over a whole `STREAM`, the cursor in
it (10_state.md R21, R37). -/
structure StreamOpen (s : State) : Prop where
  buf : s.rd.buf = .stream
  endian : s.rd.endian = .big
  len : s.rd.len = s.streamLen
  pos : s.rd.pos ≤ s.rd.len
  whole : s.stream.holds s.streamLen

/-- In the replay loop: `0 <= WP <= DLEN` (R22), exactly `DST[0..WP)` written (44_decompressor.md R218),
`RP` at or past the header, the mode of the command (R26). -/
structure ReplayInv (form : DecForm) (s : State) : Prop extends StreamOpen s where
  wp : s.dec.wp ≤ s.dec.dlen.toNat
  written : s.dst.holds s.dec.wp
  fresh : s.dstSpoiled = none
  body : s.params.headerSize ≤ s.rd.pos
  mode : s.mode = modeOf form

/-- In COMPRESS's main loop: `SRC` whole, `OUT` as long as `OP`, an open group not full and with its slot
inside `OUT` (R31, R33), the table settled (R43, R164). -/
structure EncodeInv (s : State) : Prop where
  off : s.enc.off ≤ s.enc.slen
  slen : s.enc.slen < Config.sourceLimit
  src : s.src.holds s.enc.slen
  out : s.out.holds s.enc.op
  group : s.enc.gopen = true →
    s.enc.gidx < Config.groupChunks ∧ s.enc.gslot < s.enc.op ∧ s.enc.off < s.enc.slen
  settled : settledAt s.src s.enc.slen s.enc.off s.ht

/-- What holds in the phase the engine stands in. -/
def phaseInv (s : State) : Prop :=
  match s.phase with
  | .idle => True
  | .probe => StreamOpen s ∧ s.rd.pos = 0
  | .header form => StreamOpen s ∧ s.rd.pos = 0 ∧ s.mode = modeOf form
  | .replay form => ReplayInv form s
  | .encode => EncodeInv s

/-- The invariant of the engine: canonical spaces and table, buckets nearest first and at most 128 long
(10_state.md R43), the counters in their ranges (R25, R33), `STATUS` in step with the phase (R40). -/
structure Inv (s : State) : Prop where
  src : s.src.wf
  out : s.out.wf
  stream : s.stream.wf
  dst : s.dst.wf
  ht : s.ht.wf
  buckets : ∀ x ∈ s.ht, x.2.Pairwise (· > ·) ∧ x.2.length ≤ Config.bucketCap
  cnt : s.dec.cnt ≤ Config.groupChunks
  gidx : s.enc.gidx ≤ Config.groupChunks
  err : s.status.err ≠ none ↔ s.status.state = .faulted
  running : s.status.state = .running ↔ s.phase ≠ .idle
  phase : phaseInv s

/-! ### The sets of R249 and R279 -/

/-- A command has ended: DONE or FAULTED (R40). -/
def ended (s : State) : Prop := s.status.state = .done ∨ s.status.state = .faulted

/-- The next step takes up the command `op` (log 28). -/
def issued (op : CmdOp) (s : State) : Prop :=
  s.phase = .idle ∧ s.cmdPending = true ∧ s.cmd.op = some op

end Sys2Proof.Machine
end

