-- ==== Sys2Proof/Certificates/Slice0/Obligations.lean ====
section
/-! DEFINITION. The statements for the provers. Each docstring names the rules of spec/ it rests on; where
a clause is the model's own choice it names the log entry. -/

open Sys2Proof Sys2Proof.Machine

/-! ### Reset -/

/-- R49: after power-on `STATUS` is IDLE and NONE, `HT` is the empty map, no command is in progress; R14 (D3), D23:
the parameters are at their defaults. -/
def Obligations.ResetIsIdleWithEmptyTable : Prop :=
  State.reset.status.state = .idle ∧ State.reset.status.err = none ∧ State.reset.ht = [] ∧
  State.reset.busy = false ∧ State.reset.cmdPending = false ∧
  State.reset.params.headerSize = 16 ∧ State.reset.params.dstCapacity = 4294967295

/-- The state after reset meets the invariant of the engine. -/
def Obligations.ResetMeetsInvariant : Prop := Inv State.reset

/-! ### Encoding (30_encoding.md) -/

/-- R93, R95 to R97, R91: words written out from the spec's layouts decode to what they stand for (the header
record at the default size of 16, R14). -/
def Obligations.SampleWordsDecode : Prop :=
  decode Config.defaultParams .flag [0x80#8, 0x41#8] = .ok (.grp 0x80#8) [0x41#8] ∧
  decode Config.defaultParams .literal [0x41#8] = .ok (.lit 0x41#8) [] ∧
  decode Config.defaultParams .reference [0x20#8, 0x00#8] = .ok (.ref2 2#4 0#12) [] ∧
  decode Config.defaultParams .reference [0x1F#8, 0xFF#8] = .ok (.ref2 1#4 0xFFF#12) [] ∧
  decode Config.defaultParams .reference [0x00#8, 0x01#8, 0x14#8] = .ok (.ref3 1#12 0x14#8) [] ∧
  decode Config.defaultParams .header [0x59#8, 0x61#8, 0x7A#8, 0x30#8, 0x00#8, 0x00#8, 0x03#8, 0xE8#8, 0x00#8, 0x00#8,
    0x20#8, 0x00#8, 0xDE#8, 0xAD#8, 0xBE#8, 0xEF#8]
    = .ok (.hdr 1000#32 0x2000#32 [0xDE#8, 0xAD#8, 0xBE#8, 0xEF#8]) []

/-- R91 to R97: for every well-formed instruction with a bit encoding, decoding its bytes in its context
gives it back and leaves what follows. -/
def Obligations.DecodeOfEncodeIsTheInstruction : Prop :=
  ∀ (p : Config.Params) (i : Instr) (c : Ctx) (rest : List Byte), i.wellFormed p = true →
    i.ctx = some c → decode p c (encode i ++ rest) = .ok i rest

/-- R101, R107: no redundant encodings: what decodes is the encoding of a well-formed instruction of that
context, followed by the rest. -/
def Obligations.EncodeOfDecodeIsTheBytes : Prop :=
  ∀ (p : Config.Params) (c : Ctx) (bs rest : List Byte) (i : Instr), decode p c bs = .ok i rest →
    encode i ++ rest = bs ∧ i.wellFormed p = true ∧ i.ctx = some c

/-- R107, R108: every byte string long enough decodes as some item in every item context, and takes 1 to 3
bytes. -/
def Obligations.EveryItemContextDecodes : Prop :=
  ∀ (p : Config.Params) (c : Ctx) (bs : List Byte), c ≠ .header → 3 ≤ bs.length →
    ∃ i rest, decode p c bs = .ok i rest ∧ rest.length < bs.length ∧ bs.length ≤ rest.length + 3

/-- R100, R101: every distance 1 to 4096 and length 3 to 273 is encoded by the chunk's instruction, and the
decoder recovers both. -/
def Obligations.EveryMatchHasItsEncoding : Prop :=
  ∀ dist len : Nat, 1 ≤ dist → dist ≤ 4096 → 3 ≤ len → len ≤ 273 →
    (len ≤ 17 ∧ ∃ n d, (Chunk.ref dist len).instr = .ref2 n d ∧ n ≠ 0#4 ∧
      (distOf (n ++ d)).toNat = dist ∧ (shortLen n).toNat = len) ∨
    (18 ≤ len ∧ ∃ d e, (Chunk.ref dist len).instr = .ref3 d e ∧
      (distOf (0#4 ++ d)).toNat = dist ∧ (longLen e).toNat = len)

/-! ### The step -/

/-- R204, R206, R216: while output is owed, a step of the replay is the execution of the instruction that
the bytes at `RP` decode to. -/
def Obligations.StepRunsTheDecodedItem : Prop :=
  ∀ (s : State) (form : DecForm) (i : Instr) (rest : List Byte),
    s.phase = .replay form → s.dec.wp < s.dec.dlen.toNat →
    decode s.params s.itemCtx s.itemWindow = .ok i rest → step s = exec i s

/-- R140, R200, R203: in the header step of a decompress command the header record at the cursor is
executed, and the set-up of the command's form follows; PARSE_HEADER then ends DONE with the record. That the
header is read in a step of its own is log 1 (DESIGN CHOICE). -/
def Obligations.StepRunsTheHeaderRecord : Prop :=
  ∀ (s : State) (size align : BitVec 32) (r rest : List Byte),
    decode s.params .header s.headerWindow = .ok (.hdr size align r) rest →
    (∀ form, s.phase = .header form →
      step s = andThen (exec (.hdr size align r) s) (headerFound form)) ∧
    (s.phase = .probe → step s = andThen (exec (.hdr size align r) s)
      fun t => .next (t.finish (.header t.hdr.size t.hdr.align)))

/-- R232, R239, R241: in checked mode, when the bytes at `RP` are too few for the item the decoder state
selects, the step takes TruncatedStream: `STATUS` is written, the command ends without a result, and no
item was executed (`WP`, `CNT` and `FLAG` stay, and every other space and unit). -/
def Obligations.StepTakesTruncatedStream : Prop :=
  ∀ (s : State) (form : DecForm) (why : DecodeError),
    s.phase = .replay form → ReplayInv form s → s.mode = .checked →
    s.dec.wp < s.dec.dlen.toNat → decode s.params s.itemCtx s.itemWindow = .rejected why →
    ∃ t, step s = .next t ∧ t.status = ⟨.faulted, some .truncatedStream⟩ ∧ t.phase = .idle ∧
      t.res = .nothing ∧ t.dec.wp = s.dec.wp ∧ t.dec.cnt = s.dec.cnt ∧ t.dec.flag = s.dec.flag ∧
      t.stream = s.stream ∧ t.src = s.src ∧ t.out = s.out ∧ t.ht = s.ht ∧ t.enc = s.enc ∧
      t.hdr = s.hdr ∧ t.cmd = s.cmd ∧ t.mode = s.mode ∧ t.params = s.params

/-- R204, R215, R274: when the destination is full the step ends the command DONE with `DST[0..DLEN)` and
fetches nothing, whatever the stream still holds. That the end is a step of its own is log 1 (DESIGN
CHOICE). -/
def Obligations.StepEndsTheFullReplay : Prop :=
  ∀ (s : State) (form : DecForm), s.phase = .replay form → ReplayInv form s →
    s.dec.wp = s.dec.dlen.toNat →
    ∃ t, step s = .next t ∧ t.status = ⟨.done, none⟩ ∧ t.phase = .idle ∧ t.rd = s.rd ∧
      t.dec = s.dec ∧ t.dst = s.dst ∧
      (form = .into → t.res = .destFilled) ∧
      (form ≠ .into → ∃ bs, t.res = .bytes bs ∧ bs.length = s.dec.dlen.toNat ∧
        ∀ a, a < bs.length → s.dst.read a = bs[a]?)

/-- R47, R200, R203: two steps after DECOMPRESS is issued on a stream with a header that asks for no
more than `DST_CAPACITY`, the replay stands before its first item in the state of R47. The count of two steps,
one that takes the command up and one that reads its header, is log 1 (DESIGN CHOICE). -/
def Obligations.DecompressSetsUpTheReplay : Prop :=
  ∀ (s : State) (size align : BitVec 32) (r body : List Byte), issued .decompress s →
    r.length = s.params.reservedLen → s.cmd.input = encode (.hdr size align r) ++ body →
    size.toNat ≤ s.params.dstCapacity →
    ∃ t, core.run 2 s = .next t ∧ t.phase = .replay .alloc ∧ t.status = ⟨.running, none⟩ ∧
      t.rd.pos = s.params.headerSize ∧ t.rd.endian = .big ∧ t.dec.wp = 0 ∧ t.dec.dlen = size ∧ t.dec.cnt = 0 ∧
      t.dec.flag = 0#8 ∧ t.mode = .checked ∧ t.dst = [] ∧ t.dstSpoiled = none ∧
      ReplayInv .alloc t

/-- R48, R176: one step after COMPRESS is issued, the state is that of R48 with the header emitted. That one
step takes the command up and emits the header is log 1 (DESIGN CHOICE). -/
def Obligations.CompressStartsWithTheHeader : Prop :=
  ∀ s : State, issued .compress s → s.cmd.input.length < 4294967296 →
    ∃ t, step s = .next t ∧ t.phase = .encode ∧ t.status = ⟨.running, none⟩ ∧ t.enc.off = 0 ∧
      t.enc.slen = s.cmd.input.length ∧ t.enc.op = s.params.headerSize ∧ t.ht = [] ∧ t.enc.gopen = false ∧
      t.enc.gidx = 0 ∧ t.src = Memory.ofBytes s.cmd.input ∧
      t.out = Memory.ofBytes (headerBytes s.params (BitVec.ofNat 32 s.cmd.input.length) s.cmd.align)

/-! ### Stream items (44_decompressor.md) -/

/-- R205: GRP loads `FLAG` and sets `CNT` to 8, `RP` moves by 1; `WP`, `DST` and all else stay. -/
def Obligations.GrpLoadsTheFlag : Prop :=
  ∀ (flags : Byte) (s : State), s.replaying = true → s.dec.wp < s.dec.dlen.toNat → s.dec.cnt = 0 →
    exec (.grp flags) s =
      .next { s with rd.pos := s.rd.pos + 1, dec.flag := flags, dec.cnt := 8 }

/-- R207, R213: LIT writes its byte at `WP` and nowhere else, `WP` and `RP` move by 1, `FLAG` is shifted
and `CNT` falls by 1; all else stays. -/
def Obligations.LitWritesOneByte : Prop :=
  ∀ (b : Byte) (s : State), s.replaying = true → s.dec.wp < s.dec.dlen.toNat → 0 < s.dec.cnt →
    s.dec.flag.getLsbD 7 = true →
    ∃ t, exec (.lit b) s = .next t ∧ storedAt s.dst t.dst s.dec.wp [b] ∧
      t = { s with
        dst := t.dst, rd.pos := s.rd.pos + 1, dec.wp := s.dec.wp + 1,
        dec.flag := s.dec.flag <<< 1, dec.cnt := s.dec.cnt - 1 }

/-- R208, R209, R211 to R213, R75: a REF2 inside the destination copies `n + 2` bytes from `dfield + 1`
behind, with overlap, and nothing else of `DST` changes. -/
def Obligations.Ref2CopiesBehind : Prop :=
  ∀ (n : BitVec 4) (d : BitVec 12) (s : State), n ≠ 0#4 → awaitsReference s →
    d.toNat + 1 ≤ s.dec.wp → s.dec.wp + (n.toNat + 2) ≤ s.dec.dlen.toNat →
    sourceWritten s (d.toNat + 1) →
    ∃ t, exec (.ref2 n d) s = .next t ∧ copiedBehind s t (d.toNat + 1) (n.toNat + 2) ∧
      t = { s with
        dst := t.dst, rd.pos := s.rd.pos + 2, dec.wp := s.dec.wp + (n.toNat + 2),
        dec.pair := n ++ d, dec.dist := BitVec.ofNat 13 (d.toNat + 1), dec.nib := n,
        dec.len := BitVec.ofNat 9 (n.toNat + 2),
        dec.csrc := s.dec.wp - (d.toNat + 1) + (n.toNat + 2),
        dec.flag := s.dec.flag <<< 1, dec.cnt := s.dec.cnt - 1 }

/-- R208, R210 to R213, R75: a REF3 inside the destination copies `e + 18` bytes from `dfield + 1` behind,
with overlap, and nothing else of `DST` changes. -/
def Obligations.Ref3CopiesBehind : Prop :=
  ∀ (d : BitVec 12) (e : Byte) (s : State), awaitsReference s →
    d.toNat + 1 ≤ s.dec.wp → s.dec.wp + (e.toNat + 18) ≤ s.dec.dlen.toNat →
    sourceWritten s (d.toNat + 1) →
    ∃ t, exec (.ref3 d e) s = .next t ∧ copiedBehind s t (d.toNat + 1) (e.toNat + 18) ∧
      t = { s with
        dst := t.dst, rd.pos := s.rd.pos + 3, dec.wp := s.dec.wp + (e.toNat + 18),
        dec.pair := 0#4 ++ d, dec.dist := BitVec.ofNat 13 (d.toNat + 1), dec.nib := 0#4,
        dec.extra := e, dec.len := BitVec.ofNat 9 (e.toNat + 18),
        dec.csrc := s.dec.wp - (d.toNat + 1) + (e.toNat + 18),
        dec.flag := s.dec.flag <<< 1, dec.cnt := s.dec.cnt - 1 }

/-- R212, R75, R270: COPY writes the last `DIST` bytes repeated to `LEN` bytes at `WP`; only `DST`, `WP` and
`CSRC` change. That COPY by itself takes `DIST` and `LEN` from their registers and starts at `WP - DIST` is
log 15 (DEDUCED). -/
def Obligations.CopyRepeatsTheBytesBehind : Prop :=
  ∀ s : State, 1 ≤ s.dec.dist.toNat → s.dec.dist.toNat ≤ s.dec.wp →
    s.dec.wp + s.dec.len.toNat ≤ s.dec.dlen.toNat → sourceWritten s s.dec.dist.toNat →
    ∃ t, exec .copy s = .next t ∧ copiedBehind s t s.dec.dist.toNat s.dec.len.toNat ∧
      t = { s with
        dst := t.dst, dec.wp := s.dec.wp + s.dec.len.toNat,
        dec.csrc := s.dec.wp - s.dec.dist.toNat + s.dec.len.toNat }

/-- R211, R233, R239, R241: in checked mode a complete match code whose source lies before `DST[0]` or
whose end lies past `DST[DLEN)` takes CorruptCopy: `STATUS` is written, the command ends without a result,
`WP` has not moved; the registers of the encoder and the other spaces stay. R249, R217: in trusted mode the
same code is undefined and is refused. R82, U1: COPY by itself, which tests nothing (R212), is refused in
trusted mode where it would leave the destination; in checked mode it stops in a fault of the model (log 15). -/
def Obligations.MatchOutOfBoundsFaultsOrIsRefused : Prop :=
  (∀ (i : Instr) (dist len : Nat) (s : State), awaitsReference s →
    ((∃ n d, i = .ref2 n d ∧ n ≠ 0#4 ∧ dist = d.toNat + 1 ∧ len = n.toNat + 2) ∨
      ∃ d e, i = .ref3 d e ∧ dist = d.toNat + 1 ∧ len = e.toNat + 18) →
    (s.dec.wp < dist ∨ s.dec.dlen.toNat < s.dec.wp + len) →
    (s.mode = .checked →
      ∃ t, exec i s = .next t ∧ t.status = ⟨.faulted, some .corruptCopy⟩ ∧ t.phase = .idle ∧
        t.res = .nothing ∧ t.dec.wp = s.dec.wp ∧ t.dec.cnt = s.dec.cnt ∧
        t.dec.flag = s.dec.flag ∧ t.rd.pos = s.rd.pos + (encode i).length ∧
        t.stream = s.stream ∧ t.src = s.src ∧ t.out = s.out ∧ t.ht = s.ht ∧ t.enc = s.enc ∧
        t.hdr = s.hdr ∧ t.cmd = s.cmd ∧ t.mode = s.mode ∧ t.params = s.params) ∧
    (s.mode = .trusted → exec i s = .refused .trustedMalformed)) ∧
  ∀ s : State, (s.dec.wp < s.dec.dist.toNat ∨
      (0 < s.dec.len.toNat ∧ s.dec.dlen.toNat < s.dec.wp + s.dec.len.toNat)) →
    (s.mode = .trusted → exec .copy s = .refused .trustedMalformed) ∧
    (s.mode = .checked →
      exec .copy s = .fault (.noValue .dst) ∨ exec .copy s = .fault (.outsideSpace .dst))

/-- R204, R206, R216: an item answers a next state only while a replay is in progress, an output byte is
owed, and the decoder state selects its kind. R44, R205 to R213, R248: completed or faulted, it leaves
unchanged the input, the encoder's side, the header registers, the command, the mode, `DLEN` and the reader
but for its cursor, and neither cursor moves back. -/
def Obligations.ItemsRunWhenSelectedAndLeaveTheRest : Prop :=
  ∀ (i : Instr) (c : Ctx) (s t : State), i.ctx = some c → c ≠ .header → exec i s = .next t →
    (s.replaying = true ∧ s.dec.wp < s.dec.dlen.toNat ∧ s.itemCtx = c) ∧
    t.stream = s.stream ∧ t.streamLen = s.streamLen ∧ t.src = s.src ∧ t.out = s.out ∧
    t.ht = s.ht ∧ t.enc = s.enc ∧ t.hdr = s.hdr ∧ t.cmd = s.cmd ∧ t.cmdPending = s.cmdPending ∧
    t.ret = s.ret ∧ t.mode = s.mode ∧ t.params = s.params ∧
    t.dec.dlen = s.dec.dlen ∧ t.rd = { s.rd with pos := t.rd.pos } ∧
    s.rd.pos < t.rd.pos ∧ s.dec.wp ≤ t.dec.wp

/-- R213, R93: after `k` chunks of a group the flag demultiplexer tests the original bit `7 - k`. -/
def Obligations.FlagBitsGoMostSignificantFirst : Prop :=
  ∀ (f : BitVec 8) (k : Nat), k < 8 → flagIsLiteral (flagShift^[k] f) = f.getLsbD (7 - k)

/-! ### Decompress commands -/

/-- R90, R103 to R106, R200, R202, R216: DECOMPRESS and DECOMPRESS_UNSAFE on the stream of any legal chunk
list, of a size within `DST_CAPACITY`, end DONE with what the chunks stand for, whatever the reserved bytes,
the unused flag bits and the trailing bytes; the cursor ends where the body ends. That `MODE` still is the
command's after it has ended, and the cursor where it was left, is log 26 (DEDUCED). -/
def Obligations.DecompressExpandsEveryLegalStream : Prop :=
  ∀ (s : State) (size align : BitVec 32) (r : List Byte) (spare : Byte) (cs : List Chunk)
    (trailing : List Byte), s.phase = .idle → r.length = s.params.reservedLen →
    legalChunks size.toNat 0 cs = true → size.toNat ≤ s.params.dstCapacity →
    s.cmd.input = streamBytes size align r spare cs trailing →
    (∃ t, exec .decompress s = .next t ∧ t.status = ⟨.done, none⟩ ∧
      t.res = .bytes (expandChunks cs) ∧ (expandChunks cs).length = size.toNat ∧
      t.rd.pos + trailing.length = s.cmd.input.length ∧ t.mode = .checked) ∧
    ∃ t, exec .decompressUnsafe s = .next t ∧ t.status = ⟨.done, none⟩ ∧
      t.res = .bytes (expandChunks cs) ∧ t.mode = .trusted

/-- R201: DECOMPRESS_INTO on the stream of any legal chunk list with a destination of exactly the declared
size that does not overlap it ends DONE with the destination filled. That `MODE` still is CHECKED after the
command has ended is log 26 (DEDUCED). -/
def Obligations.DecompressIntoFillsTheDestination : Prop :=
  ∀ (s : State) (size align : BitVec 32) (r : List Byte) (spare : Byte) (cs : List Chunk)
    (trailing : List Byte), s.phase = .idle → r.length = s.params.reservedLen →
    legalChunks size.toNat 0 cs = true →
    s.cmd.input = streamBytes size align r spare cs trailing →
    s.cmd.dest = some ⟨size.toNat, false⟩ →
    ∃ t, exec .decompressInto s = .next t ∧ t.status = ⟨.done, none⟩ ∧ t.res = .destFilled ∧
      t.dst = Memory.ofBytes (expandChunks cs) ∧ t.mode = .checked

/-- R202, R249: DECOMPRESS_UNSAFE ends exactly as DECOMPRESS does where that ends DONE, but for the
mode, which is trusted, and is refused on every other stream. That the mode stays after the command has
ended, so that the two ended states differ in it, is log 26 (DEDUCED). -/
def Obligations.UnsafeAgreesWithCheckedOrIsRefused : Prop :=
  ∀ s : State, s.phase = .idle →
    (∀ t, exec .decompress s = .next t → t.status.state = .done →
      exec .decompressUnsafe s = .next { t with mode := .trusted }) ∧
    ((¬∃ t, exec .decompress s = .next t ∧ t.status.state = .done) →
      exec .decompressUnsafe s = .refused .trustedMalformed)

/-- R216: REPLAY over the reader of a decompress command on the stream of any legal chunk list fills `DST`,
in either mode. -/
def Obligations.ReplayExpandsEveryLegalStream : Prop :=
  ∀ (s : State) (form : DecForm) (size align : BitVec 32) (r : List Byte) (spare : Byte)
    (cs : List Chunk) (trailing : List Byte),
    s.phase = .replay form → s.rd.buf = .stream → s.rd.len = s.streamLen → s.dst = [] →
    s.dstSpoiled = none → s.dec.dlen = size → r.length = s.params.reservedLen →
    legalChunks size.toNat 0 cs = true →
    s.stream = Memory.ofBytes (streamBytes size align r spare cs trailing) →
    s.streamLen = (streamBytes size align r spare cs trailing).length →
    ∃ t, exec .replay s = .next t ∧ t.dec.wp = size.toNat ∧
      t.dst = Memory.ofBytes (expandChunks cs) ∧ t.phase = s.phase ∧ t.status = s.status

/-- R231, R240: DECOMPRESS and DECOMPRESS_INTO on a buffer shorter than the header or without the magic take
MalformedHeader before anything else, and `DST` is as it was. -/
def Obligations.NoHeaderTakesMalformedHeader : Prop :=
  ∀ s : State, s.phase = .idle →
    (s.cmd.input.length < s.params.headerSize ∨ s.cmd.input.take 4 ≠ [0x59#8, 0x61#8, 0x7A#8, 0x30#8]) →
    (∃ t, exec .decompress s = .next t ∧ t.status = ⟨.faulted, some .malformedHeader⟩ ∧
      t.res = .nothing ∧ t.dst = s.dst ∧ t.dstSpoiled = s.dstSpoiled) ∧
    ∀ n, s.cmd.dest = some ⟨n, false⟩ →
      ∃ t, exec .decompressInto s = .next t ∧ t.status = ⟨.faulted, some .malformedHeader⟩ ∧
        t.res = .nothing ∧ t.dst = s.dst ∧ t.dstSpoiled = s.dstSpoiled

/-- R234: DECOMPRESS_INTO with an accepted header and a destination of another length, smaller or larger,
takes InsufficientDestination, and the destination is as it was. -/
def Obligations.WrongDestinationLengthIsInsufficient : Prop :=
  ∀ (s : State) (size align : BitVec 32) (r body : List Byte) (n : Nat), s.phase = .idle →
    r.length = s.params.reservedLen → s.cmd.input = encode (.hdr size align r) ++ body →
    s.cmd.dest = some ⟨n, false⟩ → n ≠ size.toNat →
    ∃ t, exec .decompressInto s = .next t ∧
      t.status = ⟨.faulted, some .insufficientDestination⟩ ∧ t.res = .nothing ∧
      t.dst = s.dst ∧ t.dstSpoiled = s.dstSpoiled

/-- R78 (D15), R251 (D22), R189 (D13), D23: what the model refuses by name when a command is run: an
overlapping destination, a second command while one runs, a source of `2^32` bytes or more, a header that
asks for more than `DST_CAPACITY`. And the host has no move to issue a command before the one it issued has
ended. -/
def Obligations.CommandsRefusedAtTheStart : Prop :=
  (∀ (s : State) (n : Nat), s.phase = .idle → s.cmd.dest = some ⟨n, true⟩ →
    exec .decompressInto s = .refused .overlappingBuffers) ∧
  (∀ s : State, s.phase ≠ .idle →
    exec .parseHeader s = .refused .engineBusy ∧ exec .compress s = .refused .engineBusy ∧
    exec .decompress s = .refused .engineBusy ∧ exec .decompressInto s = .refused .engineBusy ∧
    exec .decompressUnsafe s = .refused .engineBusy) ∧
  (∀ s : State, s.phase = .idle → 4294967296 ≤ s.cmd.input.length →
    exec .compress s = .refused .sourceTooLong) ∧
  (∀ (s : State) (size align : BitVec 32) (r body : List Byte), s.phase = .idle →
    r.length = s.params.reservedLen → s.cmd.input = encode (.hdr size align r) ++ body →
    s.params.dstCapacity < size.toNat → exec .decompress s = .refused .destinationTooLarge) ∧
  ∀ (s : State) (cmd : Cmd) (buffer : List Byte), s.phase ≠ .idle ∨ s.cmdPending = true →
    s.hostIssue cmd buffer = none

/-- R219, R279, R230: whatever the bytes, DECOMPRESS ends: DONE, or in one of MalformedHeader,
TruncatedStream and CorruptCopy, never stuck and never in a fault of the model; the one
refusal is a header that asks for more than `DST_CAPACITY` (D23). -/
def Obligations.DecompressAlwaysEnds : Prop :=
  ∀ s : State, s.phase = .idle →
    (∃ t, exec .decompress s = .next t ∧ t.phase = .idle ∧
      (t.status = ⟨.done, none⟩ ∨ t.status = ⟨.faulted, some .malformedHeader⟩ ∨
        t.status = ⟨.faulted, some .truncatedStream⟩ ∨ t.status = ⟨.faulted, some .corruptCopy⟩)) ∨
    ∃ size align r rest, decode s.params .header s.cmd.input = .ok (.hdr size align r) rest ∧
      s.params.dstCapacity < size.toNat ∧ exec .decompress s = .refused .destinationTooLarge

/-! ### Header unit (41_header_codec.md) -/

/-- R141: WRITE_HEADER appends the `HEADER_SIZE` bytes of the record at `OP`, every other byte of `OUT` reads as
before, and only `OUT` and `OP` change. -/
def Obligations.WriteHeaderAppendsTheRecord : Prop :=
  ∀ (size align : BitVec 32) (s : State),
    ∃ t, exec (.writeHeader size align) s = .next t ∧
      storedAt s.out t.out s.enc.op
        ([0x59#8, 0x61#8, 0x7A#8, 0x30#8] ++
          [24, 16, 8, 0].map (fun k => BitVec.ofNat 8 (size.toNat >>> k)) ++
          [24, 16, 8, 0].map (fun k => BitVec.ofNat 8 (align.toNat >>> k)) ++
          List.replicate s.params.reservedLen 0#8) ∧
      t = { s with out := t.out, enc.op := s.enc.op + s.params.headerSize }

/-- R38, R140: the header record loads the header registers and moves the cursor past it; nothing else. -/
def Obligations.HeaderRecordLoadsRegisters : Prop :=
  ∀ (size align : BitVec 32) (r : List Byte) (s : State),
    exec (.hdr size align r) s =
      .next { s with hdr := ⟨0x59617A30#32, size, align, r⟩, rd.pos := s.rd.pos + s.params.headerSize }

/-- R140, R142, R144, R145, R231: PARSE_HEADER always ends DONE: `none` for a buffer shorter than `HEADER_SIZE`
or not beginning with "Yaz0", else the two big-endian fields, whatever else the buffer holds; of what
WRITE_HEADER writes it gives both values back. That the registers, the cursor among them, stay as the
command has left them is log 26 (DEDUCED). -/
def Obligations.ParseHeaderReadsTheRecordOrNone : Prop :=
  ∀ s : State, s.phase = .idle →
    ∃ t, exec .parseHeader s = .next t ∧ t.status = ⟨.done, none⟩ ∧
      ((s.cmd.input.length < s.params.headerSize ∨ s.cmd.input.take 4 ≠ [0x59#8, 0x61#8, 0x7A#8, 0x30#8]) →
        t.res = .noHeader) ∧
      (s.params.headerSize ≤ s.cmd.input.length → s.cmd.input.take 4 = [0x59#8, 0x61#8, 0x7A#8, 0x30#8] →
        t.res = .header (BitVec.ofNat 32 (beValue ((s.cmd.input.drop 4).take 4)))
          (BitVec.ofNat 32 (beValue ((s.cmd.input.drop 8).take 4))) ∧ t.rd.pos = s.params.headerSize) ∧
      (∀ size align rest, s.cmd.input = headerBytes s.params size align ++ rest →
        t.res = .header size align) ∧
      t.src = s.src ∧ t.out = s.out ∧ t.dst = s.dst ∧ t.ht = s.ht ∧ t.dec = s.dec ∧ t.enc = s.enc

/-! ### Fetch unit (40_byte_reader.md) -/

/-- R120: RD_OPEN sets the four reader registers and nothing else; over an empty buffer every read of a
byte or more then fails (READ_BYTES(0) does not: R125). That the failing read leaves the cursor is the choice
D10 of R128 (log 20, DESIGN CHOICE). -/
def Obligations.RdOpenOpensAtZero : Prop :=
  ∀ (buf : ReadBuf) (e : Endian) (s : State),
    ∃ t, exec (.rdOpen buf e) s = .next t ∧ t = { s with rd := ⟨buf, s.bufLen buf, 0, e⟩ } ∧
      (s.bufLen buf = 0 → ∀ i n, 0 < n →
        ((i = .readU8 ∧ n = 1) ∨ (i = .readU16 ∧ n = 2) ∨ (i = .readU24 ∧ n = 3) ∨
          (i = .readU32 ∧ n = 4) ∨ i = .readBytes n) →
        exec i t = .next { t with ret := .insufficientData })

/-- R121 to R125: a checked read in range returns the value of its bytes in the declared byte
order, moves the cursor by its width and changes nothing else; READ_BYTES returns any
number of bytes in address order in either byte order. -/
def Obligations.CheckedReadsReturnTheValue : Prop :=
  ∀ (s : State) (b0 b1 b2 b3 : Byte),
    ((s.bufMem s.rd.buf).readSpan s.rd.pos 1 = some [b0] → s.rd.pos + 1 ≤ s.rd.len →
      exec .readU8 s = .next { s with rd.pos := s.rd.pos + 1, ret := .u8 b0 }) ∧
    ((s.bufMem s.rd.buf).readSpan s.rd.pos 2 = some [b0, b1] → s.rd.pos + 2 ≤ s.rd.len →
      exec .readU16 s = .next { s with
        rd.pos := s.rd.pos + 2
        ret := .u16 (BitVec.ofNat 16 (match s.rd.endian with
          | .big => b0.toNat * 256 + b1.toNat
          | .little => b1.toNat * 256 + b0.toNat)) }) ∧
    ((s.bufMem s.rd.buf).readSpan s.rd.pos 3 = some [b0, b1, b2] → s.rd.pos + 3 ≤ s.rd.len →
      exec .readU24 s = .next { s with
        rd.pos := s.rd.pos + 3
        ret := .u24 (BitVec.ofNat 32 (match s.rd.endian with
          | .big => b0.toNat * 65536 + b1.toNat * 256 + b2.toNat
          | .little => b2.toNat * 65536 + b1.toNat * 256 + b0.toNat)) }) ∧
    ((s.bufMem s.rd.buf).readSpan s.rd.pos 4 = some [b0, b1, b2, b3] → s.rd.pos + 4 ≤ s.rd.len →
      exec .readU32 s = .next { s with
        rd.pos := s.rd.pos + 4
        ret := .u32 (BitVec.ofNat 32 (match s.rd.endian with
          | .big => b0.toNat * 16777216 + b1.toNat * 65536 + b2.toNat * 256 + b3.toNat
          | .little => b3.toNat * 16777216 + b2.toNat * 65536 + b1.toNat * 256 + b0.toNat)) }) ∧
    ∀ n bs, (s.bufMem s.rd.buf).readSpan s.rd.pos n = some bs → s.rd.pos + n ≤ s.rd.len →
      exec (.readBytes n) s = .next { s with rd.pos := s.rd.pos + n, ret := .bytes bs }

/-- R121 to R125, R128: a checked read fails exactly when it would run past the end; it returns
`fail(insufficient data)` and changes nothing else. Two of its clauses are choices: that the cursor stays
is D10 (log 20), and that READ_BYTES(0) fails with the cursor beyond the end is the model's (log 33:
R128 and the pseudocode of R125, against R125's sentence that `n = 0` always succeeds). -/
def Obligations.CheckedReadsPastTheEndFail : Prop :=
  ∀ (i : Instr) (n : Nat) (s : State),
    ((i = .readU8 ∧ n = 1) ∨ (i = .readU16 ∧ n = 2) ∨ (i = .readU24 ∧ n = 3) ∨
      (i = .readU32 ∧ n = 4) ∨ i = .readBytes n) →
    (s.rd.len < s.rd.pos + n → exec i s = .next { s with ret := .insufficientData }) ∧
    (s.rd.pos + n ≤ s.rd.len → ∀ t, exec i s = .next t →
      t.ret ≠ .insufficientData ∧ t.rd.pos = s.rd.pos + n)

/-- R129: an unchecked read in range answers what the checked one answers; past the end it is refused. -/
def Obligations.UncheckedReadsAgreeOrAreRefused : Prop :=
  ∀ (i j : Instr) (n : Nat) (s : State),
    ((i = .readU8Unchecked ∧ j = .readU8 ∧ n = 1) ∨ (i = .readU16Unchecked ∧ j = .readU16 ∧ n = 2) ∨
      (i = .readU24Unchecked ∧ j = .readU24 ∧ n = 3) ∨ (i = .readU32Unchecked ∧ j = .readU32 ∧ n = 4)) →
    (∀ bs, (s.bufMem s.rd.buf).readSpan s.rd.pos n = some bs → s.rd.pos + n ≤ s.rd.len →
      ∃ t, exec i s = .next t ∧ exec j s = .next t ∧ t.rd.pos = s.rd.pos + n) ∧
    (s.rd.len < s.rd.pos + n → exec i s = .refused .uncheckedReadPastEnd)

/-- R126: TELL returns `R_POS` and changes nothing else. -/
def Obligations.TellReturnsTheCursor : Prop :=
  ∀ s : State, exec .tell s = .next { s with ret := .pos s.rd.pos }

/-- R127: SEEK sets `R_POS` to any position and changes nothing else; from the end on every checked read of
a byte or more fails. That the failing read leaves the cursor is the choice D10 (log 20). -/
def Obligations.SeekSetsTheCursor : Prop :=
  ∀ (o : Nat) (s : State),
    ∃ t, exec (.seek o) s = .next t ∧ t = { s with rd.pos := o } ∧
      (s.rd.len ≤ o → exec .readU8 t = .next { t with ret := .insufficientData } ∧
        exec .readU16 t = .next { t with ret := .insufficientData } ∧
        exec .readU24 t = .next { t with ret := .insufficientData } ∧
        exec .readU32 t = .next { t with ret := .insufficientData } ∧
        ∀ n, 0 < n → exec (.readBytes n) t = .next { t with ret := .insufficientData })

/-! ### Match finder (42_match_finder.md) -/

/-- R152, R153, R156, R157: FIND reports length 0 when fewer than 3 bytes remain, and when the bucket of the
key at `OFF` is absent; only its own registers change. That `BEST_OFF` is then 0, and that `CAND`, `CLEN`,
`LIM` (and `KEY` near the end) keep what they held, is log 17 (DESIGN CHOICE, U4: the offset of a
zero-length match carries no meaning). -/
def Obligations.FindWithoutCandidatesReportsZero : Prop :=
  ∀ s : State,
    (s.enc.slen < s.enc.off + 3 →
      exec .find s = .next { s with enc.bestOff := 0, enc.bestLen := 0 }) ∧
    ∀ k, s.enc.off + 3 ≤ s.enc.slen → keyAt s.src s.enc.off = some k → s.ht.bucket k = [] →
      exec .find s = .next { s with enc.bestOff := 0, enc.bestLen := 0, enc.key := k }

/-- R154, R155, R157, R158: with candidates before `OFF` that share its key, FIND returns one of them with
the longest common prefix, capped at 273 and at the bytes remaining, the first in the bucket among equals;
the match is real, its length at least 3; only the registers of the search change. -/
def Obligations.FindReturnsTheNearestLongestMatch : Prop :=
  ∀ (s : State) (k : BitVec 24), s.src.holds s.enc.slen → s.enc.off + 3 ≤ s.enc.slen →
    keyAt s.src s.enc.off = some k → s.ht.bucket k ≠ [] →
    (∀ c ∈ s.ht.bucket k, c < s.enc.off ∧ keyAt s.src c = some k) →
    ∃ t, exec .find s = .next t ∧
      t = { s with enc := { s.enc with
        bestOff := t.enc.bestOff, bestLen := t.enc.bestLen, key := k, cand := t.enc.cand,
        clen := t.enc.clen, lim := min 273 (s.enc.slen - s.enc.off) } } ∧
      3 ≤ t.enc.bestLen ∧ t.enc.bestLen ≤ min 273 (s.enc.slen - s.enc.off) ∧
      (∀ i, i < t.enc.bestLen →
        s.src.read (t.enc.bestOff + i) = s.src.read (s.enc.off + i)) ∧
      (∀ c ∈ s.ht.bucket k, ∀ l, l ≤ min 273 (s.enc.slen - s.enc.off) →
        (∀ i, i < l → s.src.read (c + i) = s.src.read (s.enc.off + i)) → l ≤ t.enc.bestLen) ∧
      ∃ before after, s.ht.bucket k = before ++ t.enc.bestOff :: after ∧
        ∀ c ∈ before, ∃ i, i < t.enc.bestLen ∧
          s.src.read (c + i) ≠ s.src.read (s.enc.off + i)

/-- R159: HT_EVICT keeps in every bucket exactly the positions `p` with `new - p <= 4096`, in order, and
changes nothing else. -/
def Obligations.EvictKeepsTheWindow : Prop :=
  ∀ (new : Nat) (s : State), s.ht.wf →
    ∃ t, exec (.htEvict new) s = .next t ∧ t = { s with ht := t.ht } ∧ t.ht.wf ∧
      ∀ k, t.ht.bucket k = (s.ht.bucket k).filter (fun p => decide (new ≤ p + 4096))

/-- R160: HT_INSERT puts the position at the front of its key's bucket, drops
the oldest of 128, leaves every other bucket and all else; a position with fewer than 3 bytes left changes
nothing (the choice D7, log 16). -/
def Obligations.InsertPutsThePositionInFront : Prop :=
  ∀ (p : Nat) (s : State), s.ht.wf →
    (s.enc.slen ≤ p + 2 → exec (.htInsert p) s = .next s) ∧
    ∀ k, p + 2 < s.enc.slen → keyAt s.src p = some k →
      ∃ t, exec (.htInsert p) s = .next t ∧ t = { s with ht := t.ht } ∧ t.ht.wf ∧
        (t.ht.bucket k = p :: (if (s.ht.bucket k).length = 128 then (s.ht.bucket k).dropLast
          else s.ht.bucket k)) ∧
        ∀ k', k' ≠ k → t.ht.bucket k' = s.ht.bucket k'

/-- R161, R162: after HT_UPDATE every bucket is the first 128 of: the covered positions with its key,
nearest first, then what the window of `new` keeps of the old bucket; nothing else changes. -/
def Obligations.UpdateInsertsTheCoveredPositions : Prop :=
  ∀ (old new : Nat) (s : State), s.ht.wf → s.src.holds s.enc.slen → old ≤ new →
    (∀ x ∈ s.ht, x.2.length ≤ 128) →
    ∃ t, exec (.htUpdate old new) s = .next t ∧ t = { s with ht := t.ht } ∧ t.ht.wf ∧
      ∀ k, t.ht.bucket k =
        (((List.range' old (new - old)).reverse.filter
            (fun p => decide (p + 2 < s.enc.slen) && decide (keyAt s.src p = some k)))
          ++ (s.ht.bucket k).filter (fun p => decide (new ≤ p + 4096))).take 128

/-- R163: evicting after the insertions of an HT_UPDATE instead of before leaves the same table. -/
def Obligations.EvictionMayFollowInsertion : Prop :=
  ∀ (old new : Nat) (s : State), s.ht.wf → s.src.holds s.enc.slen → old < new → new ≤ old + 273 →
    (∀ x ∈ s.ht, x.2.Pairwise (· > ·) ∧ x.2.length ≤ 128 ∧ ∀ p ∈ x.2, p < old) →
    exec (.htUpdate old new) s =
      andThen (s.withTable (insertRange s.src s.enc.slen (new - old) old s.ht))
        (exec (.htEvict new))

/-! ### Encoder (43_compressor.md) -/

/-- R178: GROUP_OPEN reserves a zero byte at `OP`, keeps its address in `GSLOT`, clears `GFLAG` and `GIDX`
and opens the group; every other byte of `OUT` and all else stays. -/
def Obligations.GroupOpenReservesTheFlag : Prop :=
  ∀ s : State, ∃ t, exec .groupOpen s = .next t ∧ storedAt s.out t.out s.enc.op [0x00#8] ∧
    t = { s with
      out := t.out, enc.op := s.enc.op + 1, enc.gslot := s.enc.op, enc.gflag := 0x00#8,
      enc.gidx := 0, enc.gopen := true }

/-- R184: GROUP_CLOSE writes `GFLAG` at `GSLOT` and closes the group; every other byte of `OUT` and all else
stays. -/
def Obligations.GroupCloseWritesTheFlag : Prop :=
  ∀ s : State, s.enc.gslot < s.enc.op →
    ∃ t, exec .groupClose s = .next t ∧ storedAt s.out t.out s.enc.gslot [s.enc.gflag] ∧
      t = { s with out := t.out, enc.gopen := false }

/-- R180: EMIT_LIT appends `SRC[OFF]`, sets bit `7 - GIDX` of `GFLAG` and no other, and `PROCESSED` is 1. -/
def Obligations.EmitLitAppendsTheByte : Prop :=
  ∀ (s : State) (b : Byte), s.enc.off < s.enc.slen → s.src.read s.enc.off = some b →
    s.enc.gidx < 8 →
    ∃ t, exec .emitLit s = .next t ∧ storedAt s.out t.out s.enc.op [b] ∧
      (∀ j, j < 8 → t.enc.gflag.getLsbD j = (s.enc.gflag.getLsbD j || decide (j = 7 - s.enc.gidx))) ∧
      t = { s with
        out := t.out, enc.op := s.enc.op + 1, enc.gflag := t.enc.gflag, enc.processed := 1 }

/-- R181, R100: EMIT_REF2 appends the two bytes that encode the REF2 of the match's distance and length and
leaves every other byte of `OUT`; `PROCESSED` is the length; `GFLAG` stays. -/
def Obligations.EmitRef2AppendsTheCode : Prop :=
  ∀ s : State, s.enc.bestOff < s.enc.off → s.enc.off ≤ s.enc.bestOff + 4096 →
    3 ≤ s.enc.bestLen → s.enc.bestLen ≤ 17 →
    ∃ t, exec .emitRef2 s = .next t ∧
      storedAt s.out t.out s.enc.op
        (encode (Chunk.ref (s.enc.off - s.enc.bestOff) s.enc.bestLen).instr) ∧
      t = { s with out := t.out, enc.op := s.enc.op + 2, enc.processed := s.enc.bestLen }

/-- R182, R100: EMIT_REF3 appends the three bytes that encode the REF3 of the match's distance and length,
cut to 273, and leaves every other byte of `OUT`; `PROCESSED` is that length; `GFLAG` stays. -/
def Obligations.EmitRef3AppendsTheCode : Prop :=
  ∀ s : State, s.enc.bestOff < s.enc.off → s.enc.off ≤ s.enc.bestOff + 4096 →
    18 ≤ s.enc.bestLen →
    ∃ t, exec .emitRef3 s = .next t ∧
      storedAt s.out t.out s.enc.op
        (encode (Chunk.ref (s.enc.off - s.enc.bestOff) (min 273 s.enc.bestLen)).instr) ∧
      t = { s with out := t.out, enc.op := s.enc.op + 3, enc.processed := min 273 s.enc.bestLen }

/-- R177, R179, R183, R184: one encoder step is, in order, GROUP_OPEN if no group is open, FIND, the emit
that the length found selects, the advance with HT_UPDATE, and GROUP_CLOSE if the group is full or the
source exhausted. -/
def Obligations.EncoderStepRunsItsOperationsInOrder : Prop :=
  ∀ s : State, s.phase = .encode → s.enc.off < s.enc.slen →
    step s =
      andThen (if s.enc.gopen = true then .next s else exec .groupOpen s) fun s1 =>
      andThen (exec .find s1) fun s2 =>
      andThen (exec (if s2.enc.bestLen ≤ 2 then .emitLit
        else if s2.enc.bestLen ≤ 17 then .emitRef2 else .emitRef3) s2) fun s3 =>
      andThen (exec (.htUpdate s3.enc.off (s3.enc.off + s3.enc.processed))
        { s3 with enc.off := s3.enc.off + s3.enc.processed }) fun s4 =>
        if s4.enc.gidx + 1 = 8 ∨ s4.enc.off = s4.enc.slen then
          exec .groupClose { s4 with enc.gidx := s4.enc.gidx + 1 }
        else .next { s4 with enc.gidx := s4.enc.gidx + 1 }

/-- R164, R177, R183, R272, R277: one encoder step answers a next state, keeps the encoder's invariant (the
settled table in closed form among it), and covers 1 to 273 source bytes. -/
def Obligations.EncoderStepKeepsTheTableSettled : Prop :=
  ∀ s : State, s.phase = .encode → EncodeInv s → s.ht.wf → s.enc.off < s.enc.slen →
    ∃ t, step s = .next t ∧ EncodeInv t ∧ t.ht.wf ∧ t.phase = .encode ∧
      s.enc.off < t.enc.off ∧ t.enc.off ≤ s.enc.off + 273 ∧ t.src = s.src ∧ t.enc.slen = s.enc.slen

/-- R175, R187 items 2, 3, 5, 6, R185, R103, R104: COMPRESS of a source shorter than `2^32` ends DONE, and
its result is the stream of a legal chunk list that stands for the source, with zero reserved bytes, unused
flag bits zero and nothing after the body. That nothing follows the body (no flag byte after a full last
group, none for the empty source) is the choice D9 of R185 and R103 (log 25, DESIGN CHOICE). -/
def Obligations.CompressWritesALegalStreamOfTheSource : Prop :=
  ∀ s : State, s.phase = .idle → s.cmd.input.length < 4294967296 →
    ∃ t cs, exec .compress s = .next t ∧ t.status = ⟨.done, none⟩ ∧
      legalChunks s.cmd.input.length 0 cs = true ∧ expandChunks cs = s.cmd.input ∧
      t.res = .bytes (streamBytes (BitVec.ofNat 32 s.cmd.input.length) s.cmd.align
        (List.replicate s.params.reservedLen 0#8) 0#8 cs [])

/-- R187 items 1 and 5, R144: DECOMPRESS and DECOMPRESS_UNSAFE of what COMPRESS writes end DONE with the
source, if it is within `DST_CAPACITY`, consuming the stream exactly, and PARSE_HEADER of it gives the
source's length and the alignment, on every engine with the same `HEADER_SIZE`. That the stream is consumed
exactly rests, through R185, on the choice D9 (log 25, DESIGN CHOICE), and is read off the cursor after the
command has ended (log 26, DEDUCED). -/
def Obligations.CompressRoundTrips : Prop :=
  ∀ s t : State, s.phase = .idle → s.cmd.input.length < 4294967296 → exec .compress s = .next t →
    ∃ bs, t.res = .bytes bs ∧ ∀ s', s'.phase = .idle → s'.cmd.input = bs →
      s'.params.reservedLen = s.params.reservedLen →
      (s.cmd.input.length ≤ s'.params.dstCapacity →
        (∃ u, exec .decompress s' = .next u ∧ u.status = ⟨.done, none⟩ ∧
          u.res = .bytes s.cmd.input ∧ u.rd.pos = bs.length) ∧
        ∃ u, exec .decompressUnsafe s' = .next u ∧ u.status = ⟨.done, none⟩ ∧
          u.res = .bytes s.cmd.input) ∧
      ∃ u, exec .parseHeader s' = .next u ∧
        u.res = .header (BitVec.ofNat 32 s.cmd.input.length) s.cmd.align

/-- R185, R188: the length of the output: at least the header, at most the header, the source and one flag
byte for every 8 source bytes begun. That the empty source gives the header alone, and the upper bound for a
source that ends on a full group, rest on the choice D9 of R185 (log 25, DESIGN CHOICE). -/
def Obligations.CompressOutputLengthIsBounded : Prop :=
  ∀ s t : State, s.phase = .idle → exec .compress s = .next t →
    ∃ bs, t.res = .bytes bs ∧ s.params.headerSize ≤ bs.length ∧
      bs.length ≤ s.params.headerSize + s.cmd.input.length + (s.cmd.input.length + 7) / 8 ∧
      (s.cmd.input = [] → bs = headerBytes s.params 0#32 s.cmd.align) ∧
      (s.cmd.input ≠ [] → s.params.headerSize + 2 ≤ bs.length)

/-! ### The engine -/

/-- R22, R25, R33, R40, R43, R164, R218: every step keeps the invariant of the
engine, and R14, D23: the parameters. R39, R243, R251: on an engine with no command in progress and none
pending, also after a fault, the host's move answers: it writes `CMD`, which the next step then takes up, and
keeps the invariant. That the caller's buffer of a command with a destination is then what `DST` holds is
log 18 (DESIGN CHOICE); nothing else changes, and without a destination `DST` does not either. -/
def Obligations.StepKeepsTheInvariant : Prop :=
  (∀ s t : State, Inv s → step s = .next t → Inv t ∧ t.params = s.params) ∧
  ∀ (s : State) (cmd : Cmd) (buffer : List Byte), s.phase = .idle → s.cmdPending = false →
    ∃ t, s.hostIssue cmd buffer = some t ∧
      t = { s with cmd := cmd, cmdPending := true, dst := t.dst, dstSpoiled := t.dstSpoiled } ∧
      (cmd.dest = none → t.dst = s.dst ∧ t.dstSpoiled = s.dstSpoiled) ∧
      (∀ d, cmd.dest = some d → t.dst = Memory.ofBytes buffer ∧ t.dstSpoiled = none) ∧
      (∀ op, cmd.op = some op → issued op t) ∧ (Inv s → Inv t)

/-- R219, R72: from a state that meets the invariant no step reads or writes outside a space or reads a byte
that holds no value. -/
def Obligations.InvariantStatesNeverFault : Prop :=
  ∀ (s : State) (r : Fault), Inv s → step s ≠ .fault r

/-- R279: from any state of a checked replay that meets the invariant, the command ends within twice the
bytes owed and one more step. That the end of the command is that one more step is log 1 (DESIGN CHOICE). -/
def Obligations.CheckedReplayEndsInTime : Prop :=
  ∀ (s : State) (form : DecForm), Inv s → s.phase = .replay form → s.mode = .checked →
    ∃ k t, k ≤ 2 * (s.dec.dlen.toNat - s.dec.wp) + 1 ∧ core.run k s = .next t ∧ ended t ∧
      t.phase = .idle

/-- R140, R186, R200 to R202 against R177, R216 and log 1: the engine's steps from a command that has been
issued come to what the command is as a whole. -/
def Obligations.StepsComeToTheWholeCommand : Prop :=
  ∀ s : State,
    (issued .parseHeader s → ∃ k, core.run k s = exec .parseHeader s) ∧
    (issued .compress s → ∃ k, core.run k s = exec .compress s) ∧
    (issued .decompress s → ∃ k, core.run k s = exec .decompress s) ∧
    (issued .decompressInto s → ∃ k, core.run k s = exec .decompressInto s) ∧
    (issued .decompressUnsafe s → ∃ k, core.run k s = exec .decompressUnsafe s)

/-- R3, R20, R218, R166 (D16), R187 item 7, R201, R202: `STATUS` and `RES` of PARSE_HEADER, DECOMPRESS and
DECOMPRESS_UNSAFE are functions of the input alone, those of DECOMPRESS_INTO, and the bytes it fills the
destination with, of its stream and destination reference (length, overlap) alone, and those of COMPRESS of
its source and alignment alone, for given parameters: no level, register, space (the destination's earlier
bytes among them) or earlier command shows in them. -/
def Obligations.ResultsDependOnTheInputsOnly : Prop :=
  ∀ s s' t : State, s.phase = .idle → s'.phase = .idle → s.params = s'.params →
    s.cmd.input = s'.cmd.input →
    (∀ i : Instr, i = .parseHeader ∨ i = .decompress ∨ i = .decompressUnsafe →
      exec i s = .next t → ∃ t', exec i s' = .next t' ∧ t'.status = t.status ∧ t'.res = t.res) ∧
    (s.cmd.dest = s'.cmd.dest → exec .decompressInto s = .next t →
      ∃ t', exec .decompressInto s' = .next t' ∧ t'.status = t.status ∧ t'.res = t.res ∧
        (t.status.state = .done → t'.dst = t.dst)) ∧
    (s.cmd.align = s'.cmd.align → exec .compress s = .next t →
      ∃ t', exec .compress s' = .next t' ∧ t'.status = t.status ∧ t'.res = t.res)

/-- R26, R40, R241, R248: the mode changes only when a decompress command is taken up; `STATUS` changes only
to RUNNING without an error when a pending command is taken up, and to DONE or FAULTED when a command in
progress ends: through every other step, an engine's that waits among them, it persists. That the mode stays
when its command has ended is log 26 (DEDUCED). -/
def Obligations.ModeAndStatusChangeOnlyWithTheCommand : Prop :=
  ∀ s t : State, step s = .next t →
    (t.mode ≠ s.mode → issued .decompress s ∨ issued .decompressInto s ∨ issued .decompressUnsafe s) ∧
    (t.status ≠ s.status →
      (∃ op, issued op s ∧ t.status = ⟨.running, none⟩) ∨
      (s.phase ≠ .idle ∧ t.phase = .idle ∧ ended t))
end

