-- ==== Sys2Proof/Laws/State.lean ====
section
/-! SUPPORT. One lemma per field per named update of `State`, each true by definition: no later proof
unfolds a record update. -/

namespace Sys2Proof.Machine

variable (s : State)

/-! ### `State.openReader` -/
@[simp] theorem State.openReader_params (buf : ReadBuf) (e : Endian) : (s.openReader buf e).params = s.params := rfl
@[simp] theorem State.openReader_status (buf : ReadBuf) (e : Endian) : (s.openReader buf e).status = s.status := rfl
@[simp] theorem State.openReader_cmd (buf : ReadBuf) (e : Endian) : (s.openReader buf e).cmd = s.cmd := rfl
@[simp] theorem State.openReader_cmdPending (buf : ReadBuf) (e : Endian) : (s.openReader buf e).cmdPending = s.cmdPending := rfl
@[simp] theorem State.openReader_res (buf : ReadBuf) (e : Endian) : (s.openReader buf e).res = s.res := rfl
@[simp] theorem State.openReader_ret (buf : ReadBuf) (e : Endian) : (s.openReader buf e).ret = s.ret := rfl
@[simp] theorem State.openReader_phase (buf : ReadBuf) (e : Endian) : (s.openReader buf e).phase = s.phase := rfl
@[simp] theorem State.openReader_mode (buf : ReadBuf) (e : Endian) : (s.openReader buf e).mode = s.mode := rfl
@[simp] theorem State.openReader_rd_buf (buf : ReadBuf) (e : Endian) : (s.openReader buf e).rd.buf = buf := rfl
@[simp] theorem State.openReader_rd_len (buf : ReadBuf) (e : Endian) : (s.openReader buf e).rd.len = s.bufLen buf := rfl
@[simp] theorem State.openReader_rd_pos (buf : ReadBuf) (e : Endian) : (s.openReader buf e).rd.pos = 0 := rfl
@[simp] theorem State.openReader_rd_endian (buf : ReadBuf) (e : Endian) : (s.openReader buf e).rd.endian = e := rfl
@[simp] theorem State.openReader_hdr (buf : ReadBuf) (e : Endian) : (s.openReader buf e).hdr = s.hdr := rfl
@[simp] theorem State.openReader_dec (buf : ReadBuf) (e : Endian) : (s.openReader buf e).dec = s.dec := rfl
@[simp] theorem State.openReader_enc (buf : ReadBuf) (e : Endian) : (s.openReader buf e).enc = s.enc := rfl
@[simp] theorem State.openReader_ht (buf : ReadBuf) (e : Endian) : (s.openReader buf e).ht = s.ht := rfl
@[simp] theorem State.openReader_src (buf : ReadBuf) (e : Endian) : (s.openReader buf e).src = s.src := rfl
@[simp] theorem State.openReader_out (buf : ReadBuf) (e : Endian) : (s.openReader buf e).out = s.out := rfl
@[simp] theorem State.openReader_stream (buf : ReadBuf) (e : Endian) : (s.openReader buf e).stream = s.stream := rfl
@[simp] theorem State.openReader_streamLen (buf : ReadBuf) (e : Endian) : (s.openReader buf e).streamLen = s.streamLen := rfl
@[simp] theorem State.openReader_dst (buf : ReadBuf) (e : Endian) : (s.openReader buf e).dst = s.dst := rfl
@[simp] theorem State.openReader_dstSpoiled (buf : ReadBuf) (e : Endian) : (s.openReader buf e).dstSpoiled = s.dstSpoiled := rfl
@[simp] theorem State.openReader_freeCount (buf : ReadBuf) (e : Endian) : (s.openReader buf e).freeCount = s.freeCount := rfl

/-! ### `State.advance` -/
@[simp] theorem State.advance_params (n : Nat) : (s.advance n).params = s.params := rfl
@[simp] theorem State.advance_status (n : Nat) : (s.advance n).status = s.status := rfl
@[simp] theorem State.advance_cmd (n : Nat) : (s.advance n).cmd = s.cmd := rfl
@[simp] theorem State.advance_cmdPending (n : Nat) : (s.advance n).cmdPending = s.cmdPending := rfl
@[simp] theorem State.advance_res (n : Nat) : (s.advance n).res = s.res := rfl
@[simp] theorem State.advance_ret (n : Nat) : (s.advance n).ret = s.ret := rfl
@[simp] theorem State.advance_phase (n : Nat) : (s.advance n).phase = s.phase := rfl
@[simp] theorem State.advance_mode (n : Nat) : (s.advance n).mode = s.mode := rfl
@[simp] theorem State.advance_rd_buf (n : Nat) : (s.advance n).rd.buf = s.rd.buf := rfl
@[simp] theorem State.advance_rd_len (n : Nat) : (s.advance n).rd.len = s.rd.len := rfl
@[simp] theorem State.advance_rd_pos (n : Nat) : (s.advance n).rd.pos = s.rd.pos + n := rfl
@[simp] theorem State.advance_rd_endian (n : Nat) : (s.advance n).rd.endian = s.rd.endian := rfl
@[simp] theorem State.advance_hdr (n : Nat) : (s.advance n).hdr = s.hdr := rfl
@[simp] theorem State.advance_dec (n : Nat) : (s.advance n).dec = s.dec := rfl
@[simp] theorem State.advance_enc (n : Nat) : (s.advance n).enc = s.enc := rfl
@[simp] theorem State.advance_ht (n : Nat) : (s.advance n).ht = s.ht := rfl
@[simp] theorem State.advance_src (n : Nat) : (s.advance n).src = s.src := rfl
@[simp] theorem State.advance_out (n : Nat) : (s.advance n).out = s.out := rfl
@[simp] theorem State.advance_stream (n : Nat) : (s.advance n).stream = s.stream := rfl
@[simp] theorem State.advance_streamLen (n : Nat) : (s.advance n).streamLen = s.streamLen := rfl
@[simp] theorem State.advance_dst (n : Nat) : (s.advance n).dst = s.dst := rfl
@[simp] theorem State.advance_dstSpoiled (n : Nat) : (s.advance n).dstSpoiled = s.dstSpoiled := rfl
@[simp] theorem State.advance_freeCount (n : Nat) : (s.advance n).freeCount = s.freeCount := rfl

/-! ### `State.appendOut` -/
@[simp] theorem State.appendOut_params (bs : List Byte) : (s.appendOut bs).params = s.params := rfl
@[simp] theorem State.appendOut_status (bs : List Byte) : (s.appendOut bs).status = s.status := rfl
@[simp] theorem State.appendOut_cmd (bs : List Byte) : (s.appendOut bs).cmd = s.cmd := rfl
@[simp] theorem State.appendOut_cmdPending (bs : List Byte) : (s.appendOut bs).cmdPending = s.cmdPending := rfl
@[simp] theorem State.appendOut_res (bs : List Byte) : (s.appendOut bs).res = s.res := rfl
@[simp] theorem State.appendOut_ret (bs : List Byte) : (s.appendOut bs).ret = s.ret := rfl
@[simp] theorem State.appendOut_phase (bs : List Byte) : (s.appendOut bs).phase = s.phase := rfl
@[simp] theorem State.appendOut_mode (bs : List Byte) : (s.appendOut bs).mode = s.mode := rfl
@[simp] theorem State.appendOut_rd (bs : List Byte) : (s.appendOut bs).rd = s.rd := rfl
@[simp] theorem State.appendOut_hdr (bs : List Byte) : (s.appendOut bs).hdr = s.hdr := rfl
@[simp] theorem State.appendOut_dec (bs : List Byte) : (s.appendOut bs).dec = s.dec := rfl
@[simp] theorem State.appendOut_enc_off (bs : List Byte) : (s.appendOut bs).enc.off = s.enc.off := rfl
@[simp] theorem State.appendOut_enc_slen (bs : List Byte) : (s.appendOut bs).enc.slen = s.enc.slen := rfl
@[simp] theorem State.appendOut_enc_op (bs : List Byte) : (s.appendOut bs).enc.op = s.enc.op + bs.length := rfl
@[simp] theorem State.appendOut_enc_gslot (bs : List Byte) : (s.appendOut bs).enc.gslot = s.enc.gslot := rfl
@[simp] theorem State.appendOut_enc_gflag (bs : List Byte) : (s.appendOut bs).enc.gflag = s.enc.gflag := rfl
@[simp] theorem State.appendOut_enc_gidx (bs : List Byte) : (s.appendOut bs).enc.gidx = s.enc.gidx := rfl
@[simp] theorem State.appendOut_enc_gopen (bs : List Byte) : (s.appendOut bs).enc.gopen = s.enc.gopen := rfl
@[simp] theorem State.appendOut_enc_bestOff (bs : List Byte) : (s.appendOut bs).enc.bestOff = s.enc.bestOff := rfl
@[simp] theorem State.appendOut_enc_bestLen (bs : List Byte) : (s.appendOut bs).enc.bestLen = s.enc.bestLen := rfl
@[simp] theorem State.appendOut_enc_processed (bs : List Byte) : (s.appendOut bs).enc.processed = s.enc.processed := rfl
@[simp] theorem State.appendOut_enc_key (bs : List Byte) : (s.appendOut bs).enc.key = s.enc.key := rfl
@[simp] theorem State.appendOut_enc_cand (bs : List Byte) : (s.appendOut bs).enc.cand = s.enc.cand := rfl
@[simp] theorem State.appendOut_enc_clen (bs : List Byte) : (s.appendOut bs).enc.clen = s.enc.clen := rfl
@[simp] theorem State.appendOut_enc_lim (bs : List Byte) : (s.appendOut bs).enc.lim = s.enc.lim := rfl
@[simp] theorem State.appendOut_ht (bs : List Byte) : (s.appendOut bs).ht = s.ht := rfl
@[simp] theorem State.appendOut_src (bs : List Byte) : (s.appendOut bs).src = s.src := rfl
@[simp] theorem State.appendOut_out (bs : List Byte) : (s.appendOut bs).out = s.out.writeAll s.enc.op bs := rfl
@[simp] theorem State.appendOut_stream (bs : List Byte) : (s.appendOut bs).stream = s.stream := rfl
@[simp] theorem State.appendOut_streamLen (bs : List Byte) : (s.appendOut bs).streamLen = s.streamLen := rfl
@[simp] theorem State.appendOut_dst (bs : List Byte) : (s.appendOut bs).dst = s.dst := rfl
@[simp] theorem State.appendOut_dstSpoiled (bs : List Byte) : (s.appendOut bs).dstSpoiled = s.dstSpoiled := rfl
@[simp] theorem State.appendOut_freeCount (bs : List Byte) : (s.appendOut bs).freeCount = s.freeCount := rfl

/-! ### `State.putDst` -/
@[simp] theorem State.putDst_params (b : Byte) : (s.putDst b).params = s.params := rfl
@[simp] theorem State.putDst_status (b : Byte) : (s.putDst b).status = s.status := rfl
@[simp] theorem State.putDst_cmd (b : Byte) : (s.putDst b).cmd = s.cmd := rfl
@[simp] theorem State.putDst_cmdPending (b : Byte) : (s.putDst b).cmdPending = s.cmdPending := rfl
@[simp] theorem State.putDst_res (b : Byte) : (s.putDst b).res = s.res := rfl
@[simp] theorem State.putDst_ret (b : Byte) : (s.putDst b).ret = s.ret := rfl
@[simp] theorem State.putDst_phase (b : Byte) : (s.putDst b).phase = s.phase := rfl
@[simp] theorem State.putDst_mode (b : Byte) : (s.putDst b).mode = s.mode := rfl
@[simp] theorem State.putDst_rd (b : Byte) : (s.putDst b).rd = s.rd := rfl
@[simp] theorem State.putDst_hdr (b : Byte) : (s.putDst b).hdr = s.hdr := rfl
@[simp] theorem State.putDst_dec_wp (b : Byte) : (s.putDst b).dec.wp = s.dec.wp + 1 := rfl
@[simp] theorem State.putDst_dec_dlen (b : Byte) : (s.putDst b).dec.dlen = s.dec.dlen := rfl
@[simp] theorem State.putDst_dec_flag (b : Byte) : (s.putDst b).dec.flag = s.dec.flag := rfl
@[simp] theorem State.putDst_dec_cnt (b : Byte) : (s.putDst b).dec.cnt = s.dec.cnt := rfl
@[simp] theorem State.putDst_dec_pair (b : Byte) : (s.putDst b).dec.pair = s.dec.pair := rfl
@[simp] theorem State.putDst_dec_dist (b : Byte) : (s.putDst b).dec.dist = s.dec.dist := rfl
@[simp] theorem State.putDst_dec_nib (b : Byte) : (s.putDst b).dec.nib = s.dec.nib := rfl
@[simp] theorem State.putDst_dec_extra (b : Byte) : (s.putDst b).dec.extra = s.dec.extra := rfl
@[simp] theorem State.putDst_dec_len (b : Byte) : (s.putDst b).dec.len = s.dec.len := rfl
@[simp] theorem State.putDst_dec_csrc (b : Byte) : (s.putDst b).dec.csrc = s.dec.csrc := rfl
@[simp] theorem State.putDst_enc (b : Byte) : (s.putDst b).enc = s.enc := rfl
@[simp] theorem State.putDst_ht (b : Byte) : (s.putDst b).ht = s.ht := rfl
@[simp] theorem State.putDst_src (b : Byte) : (s.putDst b).src = s.src := rfl
@[simp] theorem State.putDst_out (b : Byte) : (s.putDst b).out = s.out := rfl
@[simp] theorem State.putDst_stream (b : Byte) : (s.putDst b).stream = s.stream := rfl
@[simp] theorem State.putDst_streamLen (b : Byte) : (s.putDst b).streamLen = s.streamLen := rfl
@[simp] theorem State.putDst_dst (b : Byte) : (s.putDst b).dst = s.dst.write s.dec.wp b := rfl
@[simp] theorem State.putDst_dstSpoiled (b : Byte) : (s.putDst b).dstSpoiled = s.dstSpoiled := rfl
@[simp] theorem State.putDst_freeCount (b : Byte) : (s.putDst b).freeCount = s.freeCount := rfl

/-! ### `State.allocDst` -/
@[simp] theorem State.allocDst_params (size : BitVec 32) : (s.allocDst size).params = s.params := rfl
@[simp] theorem State.allocDst_status (size : BitVec 32) : (s.allocDst size).status = s.status := rfl
@[simp] theorem State.allocDst_cmd (size : BitVec 32) : (s.allocDst size).cmd = s.cmd := rfl
@[simp] theorem State.allocDst_cmdPending (size : BitVec 32) : (s.allocDst size).cmdPending = s.cmdPending := rfl
@[simp] theorem State.allocDst_res (size : BitVec 32) : (s.allocDst size).res = s.res := rfl
@[simp] theorem State.allocDst_ret (size : BitVec 32) : (s.allocDst size).ret = s.ret := rfl
@[simp] theorem State.allocDst_phase (size : BitVec 32) : (s.allocDst size).phase = s.phase := rfl
@[simp] theorem State.allocDst_mode (size : BitVec 32) : (s.allocDst size).mode = s.mode := rfl
@[simp] theorem State.allocDst_rd (size : BitVec 32) : (s.allocDst size).rd = s.rd := rfl
@[simp] theorem State.allocDst_hdr (size : BitVec 32) : (s.allocDst size).hdr = s.hdr := rfl
@[simp] theorem State.allocDst_dec_wp (size : BitVec 32) : (s.allocDst size).dec.wp = s.dec.wp := rfl
@[simp] theorem State.allocDst_dec_dlen (size : BitVec 32) : (s.allocDst size).dec.dlen = size := rfl
@[simp] theorem State.allocDst_dec_flag (size : BitVec 32) : (s.allocDst size).dec.flag = s.dec.flag := rfl
@[simp] theorem State.allocDst_dec_cnt (size : BitVec 32) : (s.allocDst size).dec.cnt = s.dec.cnt := rfl
@[simp] theorem State.allocDst_dec_pair (size : BitVec 32) : (s.allocDst size).dec.pair = s.dec.pair := rfl
@[simp] theorem State.allocDst_dec_dist (size : BitVec 32) : (s.allocDst size).dec.dist = s.dec.dist := rfl
@[simp] theorem State.allocDst_dec_nib (size : BitVec 32) : (s.allocDst size).dec.nib = s.dec.nib := rfl
@[simp] theorem State.allocDst_dec_extra (size : BitVec 32) : (s.allocDst size).dec.extra = s.dec.extra := rfl
@[simp] theorem State.allocDst_dec_len (size : BitVec 32) : (s.allocDst size).dec.len = s.dec.len := rfl
@[simp] theorem State.allocDst_dec_csrc (size : BitVec 32) : (s.allocDst size).dec.csrc = s.dec.csrc := rfl
@[simp] theorem State.allocDst_enc (size : BitVec 32) : (s.allocDst size).enc = s.enc := rfl
@[simp] theorem State.allocDst_ht (size : BitVec 32) : (s.allocDst size).ht = s.ht := rfl
@[simp] theorem State.allocDst_src (size : BitVec 32) : (s.allocDst size).src = s.src := rfl
@[simp] theorem State.allocDst_out (size : BitVec 32) : (s.allocDst size).out = s.out := rfl
@[simp] theorem State.allocDst_stream (size : BitVec 32) : (s.allocDst size).stream = s.stream := rfl
@[simp] theorem State.allocDst_streamLen (size : BitVec 32) : (s.allocDst size).streamLen = s.streamLen := rfl
@[simp] theorem State.allocDst_dst (size : BitVec 32) : (s.allocDst size).dst = [] := rfl
@[simp] theorem State.allocDst_dstSpoiled (size : BitVec 32) : (s.allocDst size).dstSpoiled = none := rfl
@[simp] theorem State.allocDst_freeCount (size : BitVec 32) : (s.allocDst size).freeCount = s.freeCount := rfl

/-! ### `State.begin` -/
@[simp] theorem State.begin_params (p : Phase) : (s.begin p).params = s.params := rfl
@[simp] theorem State.begin_status (p : Phase) : (s.begin p).status = ⟨.running, none⟩ := rfl
@[simp] theorem State.begin_cmd (p : Phase) : (s.begin p).cmd = s.cmd := rfl
@[simp] theorem State.begin_cmdPending (p : Phase) : (s.begin p).cmdPending = false := rfl
@[simp] theorem State.begin_res (p : Phase) : (s.begin p).res = .nothing := rfl
@[simp] theorem State.begin_ret (p : Phase) : (s.begin p).ret = s.ret := rfl
@[simp] theorem State.begin_phase (p : Phase) : (s.begin p).phase = p := rfl
@[simp] theorem State.begin_mode (p : Phase) : (s.begin p).mode = s.mode := rfl
@[simp] theorem State.begin_rd (p : Phase) : (s.begin p).rd = s.rd := rfl
@[simp] theorem State.begin_hdr (p : Phase) : (s.begin p).hdr = s.hdr := rfl
@[simp] theorem State.begin_dec (p : Phase) : (s.begin p).dec = s.dec := rfl
@[simp] theorem State.begin_enc (p : Phase) : (s.begin p).enc = s.enc := rfl
@[simp] theorem State.begin_ht (p : Phase) : (s.begin p).ht = s.ht := rfl
@[simp] theorem State.begin_src (p : Phase) : (s.begin p).src = s.src := rfl
@[simp] theorem State.begin_out (p : Phase) : (s.begin p).out = s.out := rfl
@[simp] theorem State.begin_stream (p : Phase) : (s.begin p).stream = s.stream := rfl
@[simp] theorem State.begin_streamLen (p : Phase) : (s.begin p).streamLen = s.streamLen := rfl
@[simp] theorem State.begin_dst (p : Phase) : (s.begin p).dst = s.dst := rfl
@[simp] theorem State.begin_dstSpoiled (p : Phase) : (s.begin p).dstSpoiled = s.dstSpoiled := rfl
@[simp] theorem State.begin_freeCount (p : Phase) : (s.begin p).freeCount = s.freeCount := rfl

/-! ### `State.finish` -/
@[simp] theorem State.finish_params (r : Res) : (s.finish r).params = s.params := rfl
@[simp] theorem State.finish_status (r : Res) : (s.finish r).status = ⟨.done, none⟩ := rfl
@[simp] theorem State.finish_cmd (r : Res) : (s.finish r).cmd = s.cmd := rfl
@[simp] theorem State.finish_cmdPending (r : Res) : (s.finish r).cmdPending = s.cmdPending := rfl
@[simp] theorem State.finish_res (r : Res) : (s.finish r).res = r := rfl
@[simp] theorem State.finish_ret (r : Res) : (s.finish r).ret = s.ret := rfl
@[simp] theorem State.finish_phase (r : Res) : (s.finish r).phase = .idle := rfl
@[simp] theorem State.finish_mode (r : Res) : (s.finish r).mode = s.mode := rfl
@[simp] theorem State.finish_rd (r : Res) : (s.finish r).rd = s.rd := rfl
@[simp] theorem State.finish_hdr (r : Res) : (s.finish r).hdr = s.hdr := rfl
@[simp] theorem State.finish_dec (r : Res) : (s.finish r).dec = s.dec := rfl
@[simp] theorem State.finish_enc (r : Res) : (s.finish r).enc = s.enc := rfl
@[simp] theorem State.finish_ht (r : Res) : (s.finish r).ht = s.ht := rfl
@[simp] theorem State.finish_src (r : Res) : (s.finish r).src = s.src := rfl
@[simp] theorem State.finish_out (r : Res) : (s.finish r).out = s.out := rfl
@[simp] theorem State.finish_stream (r : Res) : (s.finish r).stream = s.stream := rfl
@[simp] theorem State.finish_streamLen (r : Res) : (s.finish r).streamLen = s.streamLen := rfl
@[simp] theorem State.finish_dst (r : Res) : (s.finish r).dst = s.dst := rfl
@[simp] theorem State.finish_dstSpoiled (r : Res) : (s.finish r).dstSpoiled = s.dstSpoiled := rfl
@[simp] theorem State.finish_freeCount (r : Res) : (s.finish r).freeCount = s.freeCount := rfl

/-! ### `State.raise` -/
@[simp] theorem State.raise_params (e : FaultKind) : (s.raise e).params = s.params := rfl
@[simp] theorem State.raise_status (e : FaultKind) : (s.raise e).status = ⟨.faulted, some e⟩ := rfl
@[simp] theorem State.raise_cmd (e : FaultKind) : (s.raise e).cmd = s.cmd := rfl
@[simp] theorem State.raise_cmdPending (e : FaultKind) : (s.raise e).cmdPending = s.cmdPending := rfl
@[simp] theorem State.raise_res (e : FaultKind) : (s.raise e).res = .nothing := rfl
@[simp] theorem State.raise_ret (e : FaultKind) : (s.raise e).ret = s.ret := rfl
@[simp] theorem State.raise_phase (e : FaultKind) : (s.raise e).phase = .idle := rfl
@[simp] theorem State.raise_mode (e : FaultKind) : (s.raise e).mode = s.mode := rfl
@[simp] theorem State.raise_rd (e : FaultKind) : (s.raise e).rd = s.rd := rfl
@[simp] theorem State.raise_hdr (e : FaultKind) : (s.raise e).hdr = s.hdr := rfl
@[simp] theorem State.raise_dec (e : FaultKind) : (s.raise e).dec = s.dec := rfl
@[simp] theorem State.raise_enc (e : FaultKind) : (s.raise e).enc = s.enc := rfl
@[simp] theorem State.raise_ht (e : FaultKind) : (s.raise e).ht = s.ht := rfl
@[simp] theorem State.raise_src (e : FaultKind) : (s.raise e).src = s.src := rfl
@[simp] theorem State.raise_out (e : FaultKind) : (s.raise e).out = s.out := rfl
@[simp] theorem State.raise_stream (e : FaultKind) : (s.raise e).stream = s.stream := rfl
@[simp] theorem State.raise_streamLen (e : FaultKind) : (s.raise e).streamLen = s.streamLen := rfl
@[simp] theorem State.raise_dst (e : FaultKind) : (s.raise e).dst = s.dst := rfl
@[simp] theorem State.raise_dstSpoiled (e : FaultKind) : (s.raise e).dstSpoiled = s.dstSpoiled := rfl
@[simp] theorem State.raise_freeCount (e : FaultKind) : (s.raise e).freeCount = s.freeCount := rfl

/-! ### `State.spoilDst` -/
@[simp] theorem State.spoilDst_params : (s.spoilDst).params = s.params := rfl
@[simp] theorem State.spoilDst_status : (s.spoilDst).status = s.status := rfl
@[simp] theorem State.spoilDst_cmd : (s.spoilDst).cmd = s.cmd := rfl
@[simp] theorem State.spoilDst_cmdPending : (s.spoilDst).cmdPending = s.cmdPending := rfl
@[simp] theorem State.spoilDst_res : (s.spoilDst).res = s.res := rfl
@[simp] theorem State.spoilDst_ret : (s.spoilDst).ret = s.ret := rfl
@[simp] theorem State.spoilDst_phase : (s.spoilDst).phase = s.phase := rfl
@[simp] theorem State.spoilDst_mode : (s.spoilDst).mode = s.mode := rfl
@[simp] theorem State.spoilDst_rd : (s.spoilDst).rd = s.rd := rfl
@[simp] theorem State.spoilDst_hdr : (s.spoilDst).hdr = s.hdr := rfl
@[simp] theorem State.spoilDst_dec : (s.spoilDst).dec = s.dec := rfl
@[simp] theorem State.spoilDst_enc : (s.spoilDst).enc = s.enc := rfl
@[simp] theorem State.spoilDst_ht : (s.spoilDst).ht = s.ht := rfl
@[simp] theorem State.spoilDst_src : (s.spoilDst).src = s.src := rfl
@[simp] theorem State.spoilDst_out : (s.spoilDst).out = s.out := rfl
@[simp] theorem State.spoilDst_stream : (s.spoilDst).stream = s.stream := rfl
@[simp] theorem State.spoilDst_streamLen : (s.spoilDst).streamLen = s.streamLen := rfl
@[simp] theorem State.spoilDst_dst : (s.spoilDst).dst = [] := rfl
@[simp] theorem State.spoilDst_dstSpoiled : (s.spoilDst).dstSpoiled = some s.freeCount := rfl
@[simp] theorem State.spoilDst_freeCount : (s.spoilDst).freeCount = s.freeCount + 1 := rfl

/-! ### `State.loadStream` -/
@[simp] theorem State.loadStream_params : (s.loadStream).params = s.params := rfl
@[simp] theorem State.loadStream_status : (s.loadStream).status = s.status := rfl
@[simp] theorem State.loadStream_cmd : (s.loadStream).cmd = s.cmd := rfl
@[simp] theorem State.loadStream_cmdPending : (s.loadStream).cmdPending = s.cmdPending := rfl
@[simp] theorem State.loadStream_res : (s.loadStream).res = s.res := rfl
@[simp] theorem State.loadStream_ret : (s.loadStream).ret = s.ret := rfl
@[simp] theorem State.loadStream_phase : (s.loadStream).phase = s.phase := rfl
@[simp] theorem State.loadStream_mode : (s.loadStream).mode = s.mode := rfl
@[simp] theorem State.loadStream_rd : (s.loadStream).rd = s.rd := rfl
@[simp] theorem State.loadStream_hdr : (s.loadStream).hdr = s.hdr := rfl
@[simp] theorem State.loadStream_dec : (s.loadStream).dec = s.dec := rfl
@[simp] theorem State.loadStream_enc : (s.loadStream).enc = s.enc := rfl
@[simp] theorem State.loadStream_ht : (s.loadStream).ht = s.ht := rfl
@[simp] theorem State.loadStream_src : (s.loadStream).src = s.src := rfl
@[simp] theorem State.loadStream_out : (s.loadStream).out = s.out := rfl
@[simp] theorem State.loadStream_stream : (s.loadStream).stream = Memory.ofBytes s.cmd.input := rfl
@[simp] theorem State.loadStream_streamLen : (s.loadStream).streamLen = s.cmd.input.length := rfl
@[simp] theorem State.loadStream_dst : (s.loadStream).dst = s.dst := rfl
@[simp] theorem State.loadStream_dstSpoiled : (s.loadStream).dstSpoiled = s.dstSpoiled := rfl
@[simp] theorem State.loadStream_freeCount : (s.loadStream).freeCount = s.freeCount := rfl

/-! ### `State.chunkDone` -/
@[simp] theorem State.chunkDone_params : (s.chunkDone).params = s.params := rfl
@[simp] theorem State.chunkDone_status : (s.chunkDone).status = s.status := rfl
@[simp] theorem State.chunkDone_cmd : (s.chunkDone).cmd = s.cmd := rfl
@[simp] theorem State.chunkDone_cmdPending : (s.chunkDone).cmdPending = s.cmdPending := rfl
@[simp] theorem State.chunkDone_res : (s.chunkDone).res = s.res := rfl
@[simp] theorem State.chunkDone_ret : (s.chunkDone).ret = s.ret := rfl
@[simp] theorem State.chunkDone_phase : (s.chunkDone).phase = s.phase := rfl
@[simp] theorem State.chunkDone_mode : (s.chunkDone).mode = s.mode := rfl
@[simp] theorem State.chunkDone_rd : (s.chunkDone).rd = s.rd := rfl
@[simp] theorem State.chunkDone_hdr : (s.chunkDone).hdr = s.hdr := rfl
@[simp] theorem State.chunkDone_dec_wp : (s.chunkDone).dec.wp = s.dec.wp := rfl
@[simp] theorem State.chunkDone_dec_dlen : (s.chunkDone).dec.dlen = s.dec.dlen := rfl
@[simp] theorem State.chunkDone_dec_flag : (s.chunkDone).dec.flag = flagShift s.dec.flag := rfl
@[simp] theorem State.chunkDone_dec_cnt : (s.chunkDone).dec.cnt = s.dec.cnt - 1 := rfl
@[simp] theorem State.chunkDone_dec_pair : (s.chunkDone).dec.pair = s.dec.pair := rfl
@[simp] theorem State.chunkDone_dec_dist : (s.chunkDone).dec.dist = s.dec.dist := rfl
@[simp] theorem State.chunkDone_dec_nib : (s.chunkDone).dec.nib = s.dec.nib := rfl
@[simp] theorem State.chunkDone_dec_extra : (s.chunkDone).dec.extra = s.dec.extra := rfl
@[simp] theorem State.chunkDone_dec_len : (s.chunkDone).dec.len = s.dec.len := rfl
@[simp] theorem State.chunkDone_dec_csrc : (s.chunkDone).dec.csrc = s.dec.csrc := rfl
@[simp] theorem State.chunkDone_enc : (s.chunkDone).enc = s.enc := rfl
@[simp] theorem State.chunkDone_ht : (s.chunkDone).ht = s.ht := rfl
@[simp] theorem State.chunkDone_src : (s.chunkDone).src = s.src := rfl
@[simp] theorem State.chunkDone_out : (s.chunkDone).out = s.out := rfl
@[simp] theorem State.chunkDone_stream : (s.chunkDone).stream = s.stream := rfl
@[simp] theorem State.chunkDone_streamLen : (s.chunkDone).streamLen = s.streamLen := rfl
@[simp] theorem State.chunkDone_dst : (s.chunkDone).dst = s.dst := rfl
@[simp] theorem State.chunkDone_dstSpoiled : (s.chunkDone).dstSpoiled = s.dstSpoiled := rfl
@[simp] theorem State.chunkDone_freeCount : (s.chunkDone).freeCount = s.freeCount := rfl

/-! ### `State.loadPair` -/
@[simp] theorem State.loadPair_params (p : BitVec 16) : (s.loadPair p).params = s.params := rfl
@[simp] theorem State.loadPair_status (p : BitVec 16) : (s.loadPair p).status = s.status := rfl
@[simp] theorem State.loadPair_cmd (p : BitVec 16) : (s.loadPair p).cmd = s.cmd := rfl
@[simp] theorem State.loadPair_cmdPending (p : BitVec 16) : (s.loadPair p).cmdPending = s.cmdPending := rfl
@[simp] theorem State.loadPair_res (p : BitVec 16) : (s.loadPair p).res = s.res := rfl
@[simp] theorem State.loadPair_ret (p : BitVec 16) : (s.loadPair p).ret = s.ret := rfl
@[simp] theorem State.loadPair_phase (p : BitVec 16) : (s.loadPair p).phase = s.phase := rfl
@[simp] theorem State.loadPair_mode (p : BitVec 16) : (s.loadPair p).mode = s.mode := rfl
@[simp] theorem State.loadPair_rd_buf (p : BitVec 16) : (s.loadPair p).rd.buf = s.rd.buf := rfl
@[simp] theorem State.loadPair_rd_len (p : BitVec 16) : (s.loadPair p).rd.len = s.rd.len := rfl
@[simp] theorem State.loadPair_rd_pos (p : BitVec 16) : (s.loadPair p).rd.pos = s.rd.pos + 2 := rfl
@[simp] theorem State.loadPair_rd_endian (p : BitVec 16) : (s.loadPair p).rd.endian = s.rd.endian := rfl
@[simp] theorem State.loadPair_hdr (p : BitVec 16) : (s.loadPair p).hdr = s.hdr := rfl
@[simp] theorem State.loadPair_dec_wp (p : BitVec 16) : (s.loadPair p).dec.wp = s.dec.wp := rfl
@[simp] theorem State.loadPair_dec_dlen (p : BitVec 16) : (s.loadPair p).dec.dlen = s.dec.dlen := rfl
@[simp] theorem State.loadPair_dec_flag (p : BitVec 16) : (s.loadPair p).dec.flag = s.dec.flag := rfl
@[simp] theorem State.loadPair_dec_cnt (p : BitVec 16) : (s.loadPair p).dec.cnt = s.dec.cnt := rfl
@[simp] theorem State.loadPair_dec_pair (p : BitVec 16) : (s.loadPair p).dec.pair = p := rfl
@[simp] theorem State.loadPair_dec_dist (p : BitVec 16) : (s.loadPair p).dec.dist = distOf p := rfl
@[simp] theorem State.loadPair_dec_nib (p : BitVec 16) : (s.loadPair p).dec.nib = pairNibble p := rfl
@[simp] theorem State.loadPair_dec_extra (p : BitVec 16) : (s.loadPair p).dec.extra = s.dec.extra := rfl
@[simp] theorem State.loadPair_dec_len (p : BitVec 16) : (s.loadPair p).dec.len = s.dec.len := rfl
@[simp] theorem State.loadPair_dec_csrc (p : BitVec 16) : (s.loadPair p).dec.csrc = s.dec.csrc := rfl
@[simp] theorem State.loadPair_enc (p : BitVec 16) : (s.loadPair p).enc = s.enc := rfl
@[simp] theorem State.loadPair_ht (p : BitVec 16) : (s.loadPair p).ht = s.ht := rfl
@[simp] theorem State.loadPair_src (p : BitVec 16) : (s.loadPair p).src = s.src := rfl
@[simp] theorem State.loadPair_out (p : BitVec 16) : (s.loadPair p).out = s.out := rfl
@[simp] theorem State.loadPair_stream (p : BitVec 16) : (s.loadPair p).stream = s.stream := rfl
@[simp] theorem State.loadPair_streamLen (p : BitVec 16) : (s.loadPair p).streamLen = s.streamLen := rfl
@[simp] theorem State.loadPair_dst (p : BitVec 16) : (s.loadPair p).dst = s.dst := rfl
@[simp] theorem State.loadPair_dstSpoiled (p : BitVec 16) : (s.loadPair p).dstSpoiled = s.dstSpoiled := rfl
@[simp] theorem State.loadPair_freeCount (p : BitVec 16) : (s.loadPair p).freeCount = s.freeCount := rfl

/-! ### `State.loadShort` -/
@[simp] theorem State.loadShort_params (n : BitVec 4) (d : BitVec 12) : (s.loadShort n d).params = s.params := rfl
@[simp] theorem State.loadShort_status (n : BitVec 4) (d : BitVec 12) : (s.loadShort n d).status = s.status := rfl
@[simp] theorem State.loadShort_cmd (n : BitVec 4) (d : BitVec 12) : (s.loadShort n d).cmd = s.cmd := rfl
@[simp] theorem State.loadShort_cmdPending (n : BitVec 4) (d : BitVec 12) : (s.loadShort n d).cmdPending = s.cmdPending := rfl
@[simp] theorem State.loadShort_res (n : BitVec 4) (d : BitVec 12) : (s.loadShort n d).res = s.res := rfl
@[simp] theorem State.loadShort_ret (n : BitVec 4) (d : BitVec 12) : (s.loadShort n d).ret = s.ret := rfl
@[simp] theorem State.loadShort_phase (n : BitVec 4) (d : BitVec 12) : (s.loadShort n d).phase = s.phase := rfl
@[simp] theorem State.loadShort_mode (n : BitVec 4) (d : BitVec 12) : (s.loadShort n d).mode = s.mode := rfl
@[simp] theorem State.loadShort_rd_buf (n : BitVec 4) (d : BitVec 12) : (s.loadShort n d).rd.buf = s.rd.buf := rfl
@[simp] theorem State.loadShort_rd_len (n : BitVec 4) (d : BitVec 12) : (s.loadShort n d).rd.len = s.rd.len := rfl
@[simp] theorem State.loadShort_rd_pos (n : BitVec 4) (d : BitVec 12) : (s.loadShort n d).rd.pos = s.rd.pos + 2 := rfl
@[simp] theorem State.loadShort_rd_endian (n : BitVec 4) (d : BitVec 12) : (s.loadShort n d).rd.endian = s.rd.endian := rfl
@[simp] theorem State.loadShort_hdr (n : BitVec 4) (d : BitVec 12) : (s.loadShort n d).hdr = s.hdr := rfl
@[simp] theorem State.loadShort_dec_wp (n : BitVec 4) (d : BitVec 12) : (s.loadShort n d).dec.wp = s.dec.wp := rfl
@[simp] theorem State.loadShort_dec_dlen (n : BitVec 4) (d : BitVec 12) : (s.loadShort n d).dec.dlen = s.dec.dlen := rfl
@[simp] theorem State.loadShort_dec_flag (n : BitVec 4) (d : BitVec 12) : (s.loadShort n d).dec.flag = s.dec.flag := rfl
@[simp] theorem State.loadShort_dec_cnt (n : BitVec 4) (d : BitVec 12) : (s.loadShort n d).dec.cnt = s.dec.cnt := rfl
@[simp] theorem State.loadShort_dec_pair (n : BitVec 4) (d : BitVec 12) : (s.loadShort n d).dec.pair = n ++ d := rfl
@[simp] theorem State.loadShort_dec_dist (n : BitVec 4) (d : BitVec 12) : (s.loadShort n d).dec.dist = distOf (n ++ d) := rfl
@[simp] theorem State.loadShort_dec_nib (n : BitVec 4) (d : BitVec 12) : (s.loadShort n d).dec.nib = pairNibble (n ++ d) := rfl
@[simp] theorem State.loadShort_dec_extra (n : BitVec 4) (d : BitVec 12) : (s.loadShort n d).dec.extra = s.dec.extra := rfl
@[simp] theorem State.loadShort_dec_len (n : BitVec 4) (d : BitVec 12) : (s.loadShort n d).dec.len = shortLen n := rfl
@[simp] theorem State.loadShort_dec_csrc (n : BitVec 4) (d : BitVec 12) : (s.loadShort n d).dec.csrc = s.dec.csrc := rfl
@[simp] theorem State.loadShort_enc (n : BitVec 4) (d : BitVec 12) : (s.loadShort n d).enc = s.enc := rfl
@[simp] theorem State.loadShort_ht (n : BitVec 4) (d : BitVec 12) : (s.loadShort n d).ht = s.ht := rfl
@[simp] theorem State.loadShort_src (n : BitVec 4) (d : BitVec 12) : (s.loadShort n d).src = s.src := rfl
@[simp] theorem State.loadShort_out (n : BitVec 4) (d : BitVec 12) : (s.loadShort n d).out = s.out := rfl
@[simp] theorem State.loadShort_stream (n : BitVec 4) (d : BitVec 12) : (s.loadShort n d).stream = s.stream := rfl
@[simp] theorem State.loadShort_streamLen (n : BitVec 4) (d : BitVec 12) : (s.loadShort n d).streamLen = s.streamLen := rfl
@[simp] theorem State.loadShort_dst (n : BitVec 4) (d : BitVec 12) : (s.loadShort n d).dst = s.dst := rfl
@[simp] theorem State.loadShort_dstSpoiled (n : BitVec 4) (d : BitVec 12) : (s.loadShort n d).dstSpoiled = s.dstSpoiled := rfl
@[simp] theorem State.loadShort_freeCount (n : BitVec 4) (d : BitVec 12) : (s.loadShort n d).freeCount = s.freeCount := rfl

/-! ### `State.loadLong` -/
@[simp] theorem State.loadLong_params (d : BitVec 12) (e : Byte) : (s.loadLong d e).params = s.params := rfl
@[simp] theorem State.loadLong_status (d : BitVec 12) (e : Byte) : (s.loadLong d e).status = s.status := rfl
@[simp] theorem State.loadLong_cmd (d : BitVec 12) (e : Byte) : (s.loadLong d e).cmd = s.cmd := rfl
@[simp] theorem State.loadLong_cmdPending (d : BitVec 12) (e : Byte) : (s.loadLong d e).cmdPending = s.cmdPending := rfl
@[simp] theorem State.loadLong_res (d : BitVec 12) (e : Byte) : (s.loadLong d e).res = s.res := rfl
@[simp] theorem State.loadLong_ret (d : BitVec 12) (e : Byte) : (s.loadLong d e).ret = s.ret := rfl
@[simp] theorem State.loadLong_phase (d : BitVec 12) (e : Byte) : (s.loadLong d e).phase = s.phase := rfl
@[simp] theorem State.loadLong_mode (d : BitVec 12) (e : Byte) : (s.loadLong d e).mode = s.mode := rfl
@[simp] theorem State.loadLong_rd_buf (d : BitVec 12) (e : Byte) : (s.loadLong d e).rd.buf = s.rd.buf := rfl
@[simp] theorem State.loadLong_rd_len (d : BitVec 12) (e : Byte) : (s.loadLong d e).rd.len = s.rd.len := rfl
@[simp] theorem State.loadLong_rd_pos (d : BitVec 12) (e : Byte) : (s.loadLong d e).rd.pos = s.rd.pos + 2 + 1 := rfl
@[simp] theorem State.loadLong_rd_endian (d : BitVec 12) (e : Byte) : (s.loadLong d e).rd.endian = s.rd.endian := rfl
@[simp] theorem State.loadLong_hdr (d : BitVec 12) (e : Byte) : (s.loadLong d e).hdr = s.hdr := rfl
@[simp] theorem State.loadLong_dec_wp (d : BitVec 12) (e : Byte) : (s.loadLong d e).dec.wp = s.dec.wp := rfl
@[simp] theorem State.loadLong_dec_dlen (d : BitVec 12) (e : Byte) : (s.loadLong d e).dec.dlen = s.dec.dlen := rfl
@[simp] theorem State.loadLong_dec_flag (d : BitVec 12) (e : Byte) : (s.loadLong d e).dec.flag = s.dec.flag := rfl
@[simp] theorem State.loadLong_dec_cnt (d : BitVec 12) (e : Byte) : (s.loadLong d e).dec.cnt = s.dec.cnt := rfl
@[simp] theorem State.loadLong_dec_pair (d : BitVec 12) (e : Byte) : (s.loadLong d e).dec.pair = 0#4 ++ d := rfl
@[simp] theorem State.loadLong_dec_dist (d : BitVec 12) (e : Byte) : (s.loadLong d e).dec.dist = distOf (0#4 ++ d) := rfl
@[simp] theorem State.loadLong_dec_nib (d : BitVec 12) (e : Byte) : (s.loadLong d e).dec.nib = pairNibble (0#4 ++ d) := rfl
@[simp] theorem State.loadLong_dec_extra (d : BitVec 12) (e : Byte) : (s.loadLong d e).dec.extra = e := rfl
@[simp] theorem State.loadLong_dec_len (d : BitVec 12) (e : Byte) : (s.loadLong d e).dec.len = longLen e := rfl
@[simp] theorem State.loadLong_dec_csrc (d : BitVec 12) (e : Byte) : (s.loadLong d e).dec.csrc = s.dec.csrc := rfl
@[simp] theorem State.loadLong_enc (d : BitVec 12) (e : Byte) : (s.loadLong d e).enc = s.enc := rfl
@[simp] theorem State.loadLong_ht (d : BitVec 12) (e : Byte) : (s.loadLong d e).ht = s.ht := rfl
@[simp] theorem State.loadLong_src (d : BitVec 12) (e : Byte) : (s.loadLong d e).src = s.src := rfl
@[simp] theorem State.loadLong_out (d : BitVec 12) (e : Byte) : (s.loadLong d e).out = s.out := rfl
@[simp] theorem State.loadLong_stream (d : BitVec 12) (e : Byte) : (s.loadLong d e).stream = s.stream := rfl
@[simp] theorem State.loadLong_streamLen (d : BitVec 12) (e : Byte) : (s.loadLong d e).streamLen = s.streamLen := rfl
@[simp] theorem State.loadLong_dst (d : BitVec 12) (e : Byte) : (s.loadLong d e).dst = s.dst := rfl
@[simp] theorem State.loadLong_dstSpoiled (d : BitVec 12) (e : Byte) : (s.loadLong d e).dstSpoiled = s.dstSpoiled := rfl
@[simp] theorem State.loadLong_freeCount (d : BitVec 12) (e : Byte) : (s.loadLong d e).freeCount = s.freeCount := rfl

/-! ### `State.loadHeader` -/
@[simp] theorem State.loadHeader_params (a b : BitVec 32) (r : List Byte) : (s.loadHeader a b r).params = s.params := rfl
@[simp] theorem State.loadHeader_status (a b : BitVec 32) (r : List Byte) : (s.loadHeader a b r).status = s.status := rfl
@[simp] theorem State.loadHeader_cmd (a b : BitVec 32) (r : List Byte) : (s.loadHeader a b r).cmd = s.cmd := rfl
@[simp] theorem State.loadHeader_cmdPending (a b : BitVec 32) (r : List Byte) : (s.loadHeader a b r).cmdPending = s.cmdPending := rfl
@[simp] theorem State.loadHeader_res (a b : BitVec 32) (r : List Byte) : (s.loadHeader a b r).res = s.res := rfl
@[simp] theorem State.loadHeader_ret (a b : BitVec 32) (r : List Byte) : (s.loadHeader a b r).ret = s.ret := rfl
@[simp] theorem State.loadHeader_phase (a b : BitVec 32) (r : List Byte) : (s.loadHeader a b r).phase = s.phase := rfl
@[simp] theorem State.loadHeader_mode (a b : BitVec 32) (r : List Byte) : (s.loadHeader a b r).mode = s.mode := rfl
@[simp] theorem State.loadHeader_rd_buf (a b : BitVec 32) (r : List Byte) : (s.loadHeader a b r).rd.buf = s.rd.buf := rfl
@[simp] theorem State.loadHeader_rd_len (a b : BitVec 32) (r : List Byte) : (s.loadHeader a b r).rd.len = s.rd.len := rfl
@[simp] theorem State.loadHeader_rd_pos (a b : BitVec 32) (r : List Byte) : (s.loadHeader a b r).rd.pos = s.rd.pos + s.params.headerSize := rfl
@[simp] theorem State.loadHeader_rd_endian (a b : BitVec 32) (r : List Byte) : (s.loadHeader a b r).rd.endian = s.rd.endian := rfl
@[simp] theorem State.loadHeader_hdr (a b : BitVec 32) (r : List Byte) : (s.loadHeader a b r).hdr = ⟨Config.magic, a, b, r⟩ := rfl
@[simp] theorem State.loadHeader_dec (a b : BitVec 32) (r : List Byte) : (s.loadHeader a b r).dec = s.dec := rfl
@[simp] theorem State.loadHeader_enc (a b : BitVec 32) (r : List Byte) : (s.loadHeader a b r).enc = s.enc := rfl
@[simp] theorem State.loadHeader_ht (a b : BitVec 32) (r : List Byte) : (s.loadHeader a b r).ht = s.ht := rfl
@[simp] theorem State.loadHeader_src (a b : BitVec 32) (r : List Byte) : (s.loadHeader a b r).src = s.src := rfl
@[simp] theorem State.loadHeader_out (a b : BitVec 32) (r : List Byte) : (s.loadHeader a b r).out = s.out := rfl
@[simp] theorem State.loadHeader_stream (a b : BitVec 32) (r : List Byte) : (s.loadHeader a b r).stream = s.stream := rfl
@[simp] theorem State.loadHeader_streamLen (a b : BitVec 32) (r : List Byte) : (s.loadHeader a b r).streamLen = s.streamLen := rfl
@[simp] theorem State.loadHeader_dst (a b : BitVec 32) (r : List Byte) : (s.loadHeader a b r).dst = s.dst := rfl
@[simp] theorem State.loadHeader_dstSpoiled (a b : BitVec 32) (r : List Byte) : (s.loadHeader a b r).dstSpoiled = s.dstSpoiled := rfl
@[simp] theorem State.loadHeader_freeCount (a b : BitVec 32) (r : List Byte) : (s.loadHeader a b r).freeCount = s.freeCount := rfl

/-! ### `State.loadFlag` -/
@[simp] theorem State.loadFlag_params (f : Byte) : (s.loadFlag f).params = s.params := rfl
@[simp] theorem State.loadFlag_status (f : Byte) : (s.loadFlag f).status = s.status := rfl
@[simp] theorem State.loadFlag_cmd (f : Byte) : (s.loadFlag f).cmd = s.cmd := rfl
@[simp] theorem State.loadFlag_cmdPending (f : Byte) : (s.loadFlag f).cmdPending = s.cmdPending := rfl
@[simp] theorem State.loadFlag_res (f : Byte) : (s.loadFlag f).res = s.res := rfl
@[simp] theorem State.loadFlag_ret (f : Byte) : (s.loadFlag f).ret = s.ret := rfl
@[simp] theorem State.loadFlag_phase (f : Byte) : (s.loadFlag f).phase = s.phase := rfl
@[simp] theorem State.loadFlag_mode (f : Byte) : (s.loadFlag f).mode = s.mode := rfl
@[simp] theorem State.loadFlag_rd_buf (f : Byte) : (s.loadFlag f).rd.buf = s.rd.buf := rfl
@[simp] theorem State.loadFlag_rd_len (f : Byte) : (s.loadFlag f).rd.len = s.rd.len := rfl
@[simp] theorem State.loadFlag_rd_pos (f : Byte) : (s.loadFlag f).rd.pos = s.rd.pos + 1 := rfl
@[simp] theorem State.loadFlag_rd_endian (f : Byte) : (s.loadFlag f).rd.endian = s.rd.endian := rfl
@[simp] theorem State.loadFlag_hdr (f : Byte) : (s.loadFlag f).hdr = s.hdr := rfl
@[simp] theorem State.loadFlag_dec_wp (f : Byte) : (s.loadFlag f).dec.wp = s.dec.wp := rfl
@[simp] theorem State.loadFlag_dec_dlen (f : Byte) : (s.loadFlag f).dec.dlen = s.dec.dlen := rfl
@[simp] theorem State.loadFlag_dec_flag (f : Byte) : (s.loadFlag f).dec.flag = f := rfl
@[simp] theorem State.loadFlag_dec_cnt (f : Byte) : (s.loadFlag f).dec.cnt = Config.groupChunks := rfl
@[simp] theorem State.loadFlag_dec_pair (f : Byte) : (s.loadFlag f).dec.pair = s.dec.pair := rfl
@[simp] theorem State.loadFlag_dec_dist (f : Byte) : (s.loadFlag f).dec.dist = s.dec.dist := rfl
@[simp] theorem State.loadFlag_dec_nib (f : Byte) : (s.loadFlag f).dec.nib = s.dec.nib := rfl
@[simp] theorem State.loadFlag_dec_extra (f : Byte) : (s.loadFlag f).dec.extra = s.dec.extra := rfl
@[simp] theorem State.loadFlag_dec_len (f : Byte) : (s.loadFlag f).dec.len = s.dec.len := rfl
@[simp] theorem State.loadFlag_dec_csrc (f : Byte) : (s.loadFlag f).dec.csrc = s.dec.csrc := rfl
@[simp] theorem State.loadFlag_enc (f : Byte) : (s.loadFlag f).enc = s.enc := rfl
@[simp] theorem State.loadFlag_ht (f : Byte) : (s.loadFlag f).ht = s.ht := rfl
@[simp] theorem State.loadFlag_src (f : Byte) : (s.loadFlag f).src = s.src := rfl
@[simp] theorem State.loadFlag_out (f : Byte) : (s.loadFlag f).out = s.out := rfl
@[simp] theorem State.loadFlag_stream (f : Byte) : (s.loadFlag f).stream = s.stream := rfl
@[simp] theorem State.loadFlag_streamLen (f : Byte) : (s.loadFlag f).streamLen = s.streamLen := rfl
@[simp] theorem State.loadFlag_dst (f : Byte) : (s.loadFlag f).dst = s.dst := rfl
@[simp] theorem State.loadFlag_dstSpoiled (f : Byte) : (s.loadFlag f).dstSpoiled = s.dstSpoiled := rfl
@[simp] theorem State.loadFlag_freeCount (f : Byte) : (s.loadFlag f).freeCount = s.freeCount := rfl

/-! ### `State.openGroup` -/
@[simp] theorem State.openGroup_params : (s.openGroup).params = s.params := rfl
@[simp] theorem State.openGroup_status : (s.openGroup).status = s.status := rfl
@[simp] theorem State.openGroup_cmd : (s.openGroup).cmd = s.cmd := rfl
@[simp] theorem State.openGroup_cmdPending : (s.openGroup).cmdPending = s.cmdPending := rfl
@[simp] theorem State.openGroup_res : (s.openGroup).res = s.res := rfl
@[simp] theorem State.openGroup_ret : (s.openGroup).ret = s.ret := rfl
@[simp] theorem State.openGroup_phase : (s.openGroup).phase = s.phase := rfl
@[simp] theorem State.openGroup_mode : (s.openGroup).mode = s.mode := rfl
@[simp] theorem State.openGroup_rd : (s.openGroup).rd = s.rd := rfl
@[simp] theorem State.openGroup_hdr : (s.openGroup).hdr = s.hdr := rfl
@[simp] theorem State.openGroup_dec : (s.openGroup).dec = s.dec := rfl
@[simp] theorem State.openGroup_enc_off : (s.openGroup).enc.off = s.enc.off := rfl
@[simp] theorem State.openGroup_enc_slen : (s.openGroup).enc.slen = s.enc.slen := rfl
@[simp] theorem State.openGroup_enc_op : (s.openGroup).enc.op = s.enc.op + 1 := rfl
@[simp] theorem State.openGroup_enc_gslot : (s.openGroup).enc.gslot = s.enc.op := rfl
@[simp] theorem State.openGroup_enc_gflag : (s.openGroup).enc.gflag = 0x00#8 := rfl
@[simp] theorem State.openGroup_enc_gidx : (s.openGroup).enc.gidx = 0 := rfl
@[simp] theorem State.openGroup_enc_gopen : (s.openGroup).enc.gopen = true := rfl
@[simp] theorem State.openGroup_enc_bestOff : (s.openGroup).enc.bestOff = s.enc.bestOff := rfl
@[simp] theorem State.openGroup_enc_bestLen : (s.openGroup).enc.bestLen = s.enc.bestLen := rfl
@[simp] theorem State.openGroup_enc_processed : (s.openGroup).enc.processed = s.enc.processed := rfl
@[simp] theorem State.openGroup_enc_key : (s.openGroup).enc.key = s.enc.key := rfl
@[simp] theorem State.openGroup_enc_cand : (s.openGroup).enc.cand = s.enc.cand := rfl
@[simp] theorem State.openGroup_enc_clen : (s.openGroup).enc.clen = s.enc.clen := rfl
@[simp] theorem State.openGroup_enc_lim : (s.openGroup).enc.lim = s.enc.lim := rfl
@[simp] theorem State.openGroup_ht : (s.openGroup).ht = s.ht := rfl
@[simp] theorem State.openGroup_src : (s.openGroup).src = s.src := rfl
@[simp] theorem State.openGroup_out : (s.openGroup).out = s.out.writeAll s.enc.op [0x00#8] := rfl
@[simp] theorem State.openGroup_stream : (s.openGroup).stream = s.stream := rfl
@[simp] theorem State.openGroup_streamLen : (s.openGroup).streamLen = s.streamLen := rfl
@[simp] theorem State.openGroup_dst : (s.openGroup).dst = s.dst := rfl
@[simp] theorem State.openGroup_dstSpoiled : (s.openGroup).dstSpoiled = s.dstSpoiled := rfl
@[simp] theorem State.openGroup_freeCount : (s.openGroup).freeCount = s.freeCount := rfl

/-! ### `State.closeGroup` -/
@[simp] theorem State.closeGroup_params : (s.closeGroup).params = s.params := rfl
@[simp] theorem State.closeGroup_status : (s.closeGroup).status = s.status := rfl
@[simp] theorem State.closeGroup_cmd : (s.closeGroup).cmd = s.cmd := rfl
@[simp] theorem State.closeGroup_cmdPending : (s.closeGroup).cmdPending = s.cmdPending := rfl
@[simp] theorem State.closeGroup_res : (s.closeGroup).res = s.res := rfl
@[simp] theorem State.closeGroup_ret : (s.closeGroup).ret = s.ret := rfl
@[simp] theorem State.closeGroup_phase : (s.closeGroup).phase = s.phase := rfl
@[simp] theorem State.closeGroup_mode : (s.closeGroup).mode = s.mode := rfl
@[simp] theorem State.closeGroup_rd : (s.closeGroup).rd = s.rd := rfl
@[simp] theorem State.closeGroup_hdr : (s.closeGroup).hdr = s.hdr := rfl
@[simp] theorem State.closeGroup_dec : (s.closeGroup).dec = s.dec := rfl
@[simp] theorem State.closeGroup_enc_off : (s.closeGroup).enc.off = s.enc.off := rfl
@[simp] theorem State.closeGroup_enc_slen : (s.closeGroup).enc.slen = s.enc.slen := rfl
@[simp] theorem State.closeGroup_enc_op : (s.closeGroup).enc.op = s.enc.op := rfl
@[simp] theorem State.closeGroup_enc_gslot : (s.closeGroup).enc.gslot = s.enc.gslot := rfl
@[simp] theorem State.closeGroup_enc_gflag : (s.closeGroup).enc.gflag = s.enc.gflag := rfl
@[simp] theorem State.closeGroup_enc_gidx : (s.closeGroup).enc.gidx = s.enc.gidx := rfl
@[simp] theorem State.closeGroup_enc_gopen : (s.closeGroup).enc.gopen = false := rfl
@[simp] theorem State.closeGroup_enc_bestOff : (s.closeGroup).enc.bestOff = s.enc.bestOff := rfl
@[simp] theorem State.closeGroup_enc_bestLen : (s.closeGroup).enc.bestLen = s.enc.bestLen := rfl
@[simp] theorem State.closeGroup_enc_processed : (s.closeGroup).enc.processed = s.enc.processed := rfl
@[simp] theorem State.closeGroup_enc_key : (s.closeGroup).enc.key = s.enc.key := rfl
@[simp] theorem State.closeGroup_enc_cand : (s.closeGroup).enc.cand = s.enc.cand := rfl
@[simp] theorem State.closeGroup_enc_clen : (s.closeGroup).enc.clen = s.enc.clen := rfl
@[simp] theorem State.closeGroup_enc_lim : (s.closeGroup).enc.lim = s.enc.lim := rfl
@[simp] theorem State.closeGroup_ht : (s.closeGroup).ht = s.ht := rfl
@[simp] theorem State.closeGroup_src : (s.closeGroup).src = s.src := rfl
@[simp] theorem State.closeGroup_out : (s.closeGroup).out = s.out.write s.enc.gslot s.enc.gflag := rfl
@[simp] theorem State.closeGroup_stream : (s.closeGroup).stream = s.stream := rfl
@[simp] theorem State.closeGroup_streamLen : (s.closeGroup).streamLen = s.streamLen := rfl
@[simp] theorem State.closeGroup_dst : (s.closeGroup).dst = s.dst := rfl
@[simp] theorem State.closeGroup_dstSpoiled : (s.closeGroup).dstSpoiled = s.dstSpoiled := rfl
@[simp] theorem State.closeGroup_freeCount : (s.closeGroup).freeCount = s.freeCount := rfl

/-! ### `State.emitByte` -/
@[simp] theorem State.emitByte_params (b : Byte) : (s.emitByte b).params = s.params := rfl
@[simp] theorem State.emitByte_status (b : Byte) : (s.emitByte b).status = s.status := rfl
@[simp] theorem State.emitByte_cmd (b : Byte) : (s.emitByte b).cmd = s.cmd := rfl
@[simp] theorem State.emitByte_cmdPending (b : Byte) : (s.emitByte b).cmdPending = s.cmdPending := rfl
@[simp] theorem State.emitByte_res (b : Byte) : (s.emitByte b).res = s.res := rfl
@[simp] theorem State.emitByte_ret (b : Byte) : (s.emitByte b).ret = s.ret := rfl
@[simp] theorem State.emitByte_phase (b : Byte) : (s.emitByte b).phase = s.phase := rfl
@[simp] theorem State.emitByte_mode (b : Byte) : (s.emitByte b).mode = s.mode := rfl
@[simp] theorem State.emitByte_rd (b : Byte) : (s.emitByte b).rd = s.rd := rfl
@[simp] theorem State.emitByte_hdr (b : Byte) : (s.emitByte b).hdr = s.hdr := rfl
@[simp] theorem State.emitByte_dec (b : Byte) : (s.emitByte b).dec = s.dec := rfl
@[simp] theorem State.emitByte_enc_off (b : Byte) : (s.emitByte b).enc.off = s.enc.off := rfl
@[simp] theorem State.emitByte_enc_slen (b : Byte) : (s.emitByte b).enc.slen = s.enc.slen := rfl
@[simp] theorem State.emitByte_enc_op (b : Byte) : (s.emitByte b).enc.op = s.enc.op + 1 := rfl
@[simp] theorem State.emitByte_enc_gslot (b : Byte) : (s.emitByte b).enc.gslot = s.enc.gslot := rfl
@[simp] theorem State.emitByte_enc_gflag (b : Byte) : (s.emitByte b).enc.gflag = setLiteral s.enc.gflag s.enc.gidx := rfl
@[simp] theorem State.emitByte_enc_gidx (b : Byte) : (s.emitByte b).enc.gidx = s.enc.gidx := rfl
@[simp] theorem State.emitByte_enc_gopen (b : Byte) : (s.emitByte b).enc.gopen = s.enc.gopen := rfl
@[simp] theorem State.emitByte_enc_bestOff (b : Byte) : (s.emitByte b).enc.bestOff = s.enc.bestOff := rfl
@[simp] theorem State.emitByte_enc_bestLen (b : Byte) : (s.emitByte b).enc.bestLen = s.enc.bestLen := rfl
@[simp] theorem State.emitByte_enc_processed (b : Byte) : (s.emitByte b).enc.processed = 1 := rfl
@[simp] theorem State.emitByte_enc_key (b : Byte) : (s.emitByte b).enc.key = s.enc.key := rfl
@[simp] theorem State.emitByte_enc_cand (b : Byte) : (s.emitByte b).enc.cand = s.enc.cand := rfl
@[simp] theorem State.emitByte_enc_clen (b : Byte) : (s.emitByte b).enc.clen = s.enc.clen := rfl
@[simp] theorem State.emitByte_enc_lim (b : Byte) : (s.emitByte b).enc.lim = s.enc.lim := rfl
@[simp] theorem State.emitByte_ht (b : Byte) : (s.emitByte b).ht = s.ht := rfl
@[simp] theorem State.emitByte_src (b : Byte) : (s.emitByte b).src = s.src := rfl
@[simp] theorem State.emitByte_out (b : Byte) : (s.emitByte b).out = s.out.writeAll s.enc.op [b] := rfl
@[simp] theorem State.emitByte_stream (b : Byte) : (s.emitByte b).stream = s.stream := rfl
@[simp] theorem State.emitByte_streamLen (b : Byte) : (s.emitByte b).streamLen = s.streamLen := rfl
@[simp] theorem State.emitByte_dst (b : Byte) : (s.emitByte b).dst = s.dst := rfl
@[simp] theorem State.emitByte_dstSpoiled (b : Byte) : (s.emitByte b).dstSpoiled = s.dstSpoiled := rfl
@[simp] theorem State.emitByte_freeCount (b : Byte) : (s.emitByte b).freeCount = s.freeCount := rfl

/-! ### `State.emitCode` -/
@[simp] theorem State.emitCode_params (n : Nat) (bs : List Byte) : (s.emitCode n bs).params = s.params := rfl
@[simp] theorem State.emitCode_status (n : Nat) (bs : List Byte) : (s.emitCode n bs).status = s.status := rfl
@[simp] theorem State.emitCode_cmd (n : Nat) (bs : List Byte) : (s.emitCode n bs).cmd = s.cmd := rfl
@[simp] theorem State.emitCode_cmdPending (n : Nat) (bs : List Byte) : (s.emitCode n bs).cmdPending = s.cmdPending := rfl
@[simp] theorem State.emitCode_res (n : Nat) (bs : List Byte) : (s.emitCode n bs).res = s.res := rfl
@[simp] theorem State.emitCode_ret (n : Nat) (bs : List Byte) : (s.emitCode n bs).ret = s.ret := rfl
@[simp] theorem State.emitCode_phase (n : Nat) (bs : List Byte) : (s.emitCode n bs).phase = s.phase := rfl
@[simp] theorem State.emitCode_mode (n : Nat) (bs : List Byte) : (s.emitCode n bs).mode = s.mode := rfl
@[simp] theorem State.emitCode_rd (n : Nat) (bs : List Byte) : (s.emitCode n bs).rd = s.rd := rfl
@[simp] theorem State.emitCode_hdr (n : Nat) (bs : List Byte) : (s.emitCode n bs).hdr = s.hdr := rfl
@[simp] theorem State.emitCode_dec (n : Nat) (bs : List Byte) : (s.emitCode n bs).dec = s.dec := rfl
@[simp] theorem State.emitCode_enc_off (n : Nat) (bs : List Byte) : (s.emitCode n bs).enc.off = s.enc.off := rfl
@[simp] theorem State.emitCode_enc_slen (n : Nat) (bs : List Byte) : (s.emitCode n bs).enc.slen = s.enc.slen := rfl
@[simp] theorem State.emitCode_enc_op (n : Nat) (bs : List Byte) : (s.emitCode n bs).enc.op = s.enc.op + bs.length := rfl
@[simp] theorem State.emitCode_enc_gslot (n : Nat) (bs : List Byte) : (s.emitCode n bs).enc.gslot = s.enc.gslot := rfl
@[simp] theorem State.emitCode_enc_gflag (n : Nat) (bs : List Byte) : (s.emitCode n bs).enc.gflag = s.enc.gflag := rfl
@[simp] theorem State.emitCode_enc_gidx (n : Nat) (bs : List Byte) : (s.emitCode n bs).enc.gidx = s.enc.gidx := rfl
@[simp] theorem State.emitCode_enc_gopen (n : Nat) (bs : List Byte) : (s.emitCode n bs).enc.gopen = s.enc.gopen := rfl
@[simp] theorem State.emitCode_enc_bestOff (n : Nat) (bs : List Byte) : (s.emitCode n bs).enc.bestOff = s.enc.bestOff := rfl
@[simp] theorem State.emitCode_enc_bestLen (n : Nat) (bs : List Byte) : (s.emitCode n bs).enc.bestLen = s.enc.bestLen := rfl
@[simp] theorem State.emitCode_enc_processed (n : Nat) (bs : List Byte) : (s.emitCode n bs).enc.processed = n := rfl
@[simp] theorem State.emitCode_enc_key (n : Nat) (bs : List Byte) : (s.emitCode n bs).enc.key = s.enc.key := rfl
@[simp] theorem State.emitCode_enc_cand (n : Nat) (bs : List Byte) : (s.emitCode n bs).enc.cand = s.enc.cand := rfl
@[simp] theorem State.emitCode_enc_clen (n : Nat) (bs : List Byte) : (s.emitCode n bs).enc.clen = s.enc.clen := rfl
@[simp] theorem State.emitCode_enc_lim (n : Nat) (bs : List Byte) : (s.emitCode n bs).enc.lim = s.enc.lim := rfl
@[simp] theorem State.emitCode_ht (n : Nat) (bs : List Byte) : (s.emitCode n bs).ht = s.ht := rfl
@[simp] theorem State.emitCode_src (n : Nat) (bs : List Byte) : (s.emitCode n bs).src = s.src := rfl
@[simp] theorem State.emitCode_out (n : Nat) (bs : List Byte) : (s.emitCode n bs).out = s.out.writeAll s.enc.op bs := rfl
@[simp] theorem State.emitCode_stream (n : Nat) (bs : List Byte) : (s.emitCode n bs).stream = s.stream := rfl
@[simp] theorem State.emitCode_streamLen (n : Nat) (bs : List Byte) : (s.emitCode n bs).streamLen = s.streamLen := rfl
@[simp] theorem State.emitCode_dst (n : Nat) (bs : List Byte) : (s.emitCode n bs).dst = s.dst := rfl
@[simp] theorem State.emitCode_dstSpoiled (n : Nat) (bs : List Byte) : (s.emitCode n bs).dstSpoiled = s.dstSpoiled := rfl
@[simp] theorem State.emitCode_freeCount (n : Nat) (bs : List Byte) : (s.emitCode n bs).freeCount = s.freeCount := rfl

/-! ### `State.loadSource` -/
@[simp] theorem State.loadSource_params : (s.loadSource).params = s.params := rfl
@[simp] theorem State.loadSource_status : (s.loadSource).status = s.status := rfl
@[simp] theorem State.loadSource_cmd : (s.loadSource).cmd = s.cmd := rfl
@[simp] theorem State.loadSource_cmdPending : (s.loadSource).cmdPending = s.cmdPending := rfl
@[simp] theorem State.loadSource_res : (s.loadSource).res = s.res := rfl
@[simp] theorem State.loadSource_ret : (s.loadSource).ret = s.ret := rfl
@[simp] theorem State.loadSource_phase : (s.loadSource).phase = s.phase := rfl
@[simp] theorem State.loadSource_mode : (s.loadSource).mode = s.mode := rfl
@[simp] theorem State.loadSource_rd : (s.loadSource).rd = s.rd := rfl
@[simp] theorem State.loadSource_hdr : (s.loadSource).hdr = s.hdr := rfl
@[simp] theorem State.loadSource_dec : (s.loadSource).dec = s.dec := rfl
@[simp] theorem State.loadSource_enc_off : (s.loadSource).enc.off = 0 := rfl
@[simp] theorem State.loadSource_enc_slen : (s.loadSource).enc.slen = s.cmd.input.length := rfl
@[simp] theorem State.loadSource_enc_op : (s.loadSource).enc.op = 0 := rfl
@[simp] theorem State.loadSource_enc_gslot : (s.loadSource).enc.gslot = s.enc.gslot := rfl
@[simp] theorem State.loadSource_enc_gflag : (s.loadSource).enc.gflag = s.enc.gflag := rfl
@[simp] theorem State.loadSource_enc_gidx : (s.loadSource).enc.gidx = 0 := rfl
@[simp] theorem State.loadSource_enc_gopen : (s.loadSource).enc.gopen = false := rfl
@[simp] theorem State.loadSource_enc_bestOff : (s.loadSource).enc.bestOff = s.enc.bestOff := rfl
@[simp] theorem State.loadSource_enc_bestLen : (s.loadSource).enc.bestLen = s.enc.bestLen := rfl
@[simp] theorem State.loadSource_enc_processed : (s.loadSource).enc.processed = s.enc.processed := rfl
@[simp] theorem State.loadSource_enc_key : (s.loadSource).enc.key = s.enc.key := rfl
@[simp] theorem State.loadSource_enc_cand : (s.loadSource).enc.cand = s.enc.cand := rfl
@[simp] theorem State.loadSource_enc_clen : (s.loadSource).enc.clen = s.enc.clen := rfl
@[simp] theorem State.loadSource_enc_lim : (s.loadSource).enc.lim = s.enc.lim := rfl
@[simp] theorem State.loadSource_ht : (s.loadSource).ht = [] := rfl
@[simp] theorem State.loadSource_src : (s.loadSource).src = Memory.ofBytes s.cmd.input := rfl
@[simp] theorem State.loadSource_out : (s.loadSource).out = [] := rfl
@[simp] theorem State.loadSource_stream : (s.loadSource).stream = s.stream := rfl
@[simp] theorem State.loadSource_streamLen : (s.loadSource).streamLen = s.streamLen := rfl
@[simp] theorem State.loadSource_dst : (s.loadSource).dst = s.dst := rfl
@[simp] theorem State.loadSource_dstSpoiled : (s.loadSource).dstSpoiled = s.dstSpoiled := rfl
@[simp] theorem State.loadSource_freeCount : (s.loadSource).freeCount = s.freeCount := rfl

/-! ### `State.replayInit` -/
@[simp] theorem State.replayInit_params : (s.replayInit).params = s.params := rfl
@[simp] theorem State.replayInit_status : (s.replayInit).status = s.status := rfl
@[simp] theorem State.replayInit_cmd : (s.replayInit).cmd = s.cmd := rfl
@[simp] theorem State.replayInit_cmdPending : (s.replayInit).cmdPending = s.cmdPending := rfl
@[simp] theorem State.replayInit_res : (s.replayInit).res = s.res := rfl
@[simp] theorem State.replayInit_ret : (s.replayInit).ret = s.ret := rfl
@[simp] theorem State.replayInit_phase : (s.replayInit).phase = s.phase := rfl
@[simp] theorem State.replayInit_mode : (s.replayInit).mode = s.mode := rfl
@[simp] theorem State.replayInit_rd_buf : (s.replayInit).rd.buf = s.rd.buf := rfl
@[simp] theorem State.replayInit_rd_len : (s.replayInit).rd.len = s.rd.len := rfl
@[simp] theorem State.replayInit_rd_pos : (s.replayInit).rd.pos = s.params.headerSize := rfl
@[simp] theorem State.replayInit_rd_endian : (s.replayInit).rd.endian = s.rd.endian := rfl
@[simp] theorem State.replayInit_hdr : (s.replayInit).hdr = s.hdr := rfl
@[simp] theorem State.replayInit_dec_wp : (s.replayInit).dec.wp = 0 := rfl
@[simp] theorem State.replayInit_dec_dlen : (s.replayInit).dec.dlen = s.dec.dlen := rfl
@[simp] theorem State.replayInit_dec_flag : (s.replayInit).dec.flag = 0#8 := rfl
@[simp] theorem State.replayInit_dec_cnt : (s.replayInit).dec.cnt = 0 := rfl
@[simp] theorem State.replayInit_dec_pair : (s.replayInit).dec.pair = s.dec.pair := rfl
@[simp] theorem State.replayInit_dec_dist : (s.replayInit).dec.dist = s.dec.dist := rfl
@[simp] theorem State.replayInit_dec_nib : (s.replayInit).dec.nib = s.dec.nib := rfl
@[simp] theorem State.replayInit_dec_extra : (s.replayInit).dec.extra = s.dec.extra := rfl
@[simp] theorem State.replayInit_dec_len : (s.replayInit).dec.len = s.dec.len := rfl
@[simp] theorem State.replayInit_dec_csrc : (s.replayInit).dec.csrc = s.dec.csrc := rfl
@[simp] theorem State.replayInit_enc : (s.replayInit).enc = s.enc := rfl
@[simp] theorem State.replayInit_ht : (s.replayInit).ht = s.ht := rfl
@[simp] theorem State.replayInit_src : (s.replayInit).src = s.src := rfl
@[simp] theorem State.replayInit_out : (s.replayInit).out = s.out := rfl
@[simp] theorem State.replayInit_stream : (s.replayInit).stream = s.stream := rfl
@[simp] theorem State.replayInit_streamLen : (s.replayInit).streamLen = s.streamLen := rfl
@[simp] theorem State.replayInit_dst : (s.replayInit).dst = s.dst := rfl
@[simp] theorem State.replayInit_dstSpoiled : (s.replayInit).dstSpoiled = s.dstSpoiled := rfl
@[simp] theorem State.replayInit_freeCount : (s.replayInit).freeCount = s.freeCount := rfl

/-! ### `setUpReplay` -/
@[simp] theorem setUpReplay_params (form : DecForm) : (setUpReplay form s).params = s.params := rfl
@[simp] theorem setUpReplay_status (form : DecForm) : (setUpReplay form s).status = s.status := rfl
@[simp] theorem setUpReplay_cmd (form : DecForm) : (setUpReplay form s).cmd = s.cmd := rfl
@[simp] theorem setUpReplay_cmdPending (form : DecForm) : (setUpReplay form s).cmdPending = s.cmdPending := rfl
@[simp] theorem setUpReplay_res (form : DecForm) : (setUpReplay form s).res = s.res := rfl
@[simp] theorem setUpReplay_ret (form : DecForm) : (setUpReplay form s).ret = s.ret := rfl
@[simp] theorem setUpReplay_phase (form : DecForm) : (setUpReplay form s).phase = .replay form := rfl
@[simp] theorem setUpReplay_mode (form : DecForm) : (setUpReplay form s).mode = s.mode := rfl
@[simp] theorem setUpReplay_rd_buf (form : DecForm) : (setUpReplay form s).rd.buf = s.rd.buf := rfl
@[simp] theorem setUpReplay_rd_len (form : DecForm) : (setUpReplay form s).rd.len = s.rd.len := rfl
@[simp] theorem setUpReplay_rd_pos (form : DecForm) : (setUpReplay form s).rd.pos = s.params.headerSize := rfl
@[simp] theorem setUpReplay_rd_endian (form : DecForm) : (setUpReplay form s).rd.endian = s.rd.endian := rfl
@[simp] theorem setUpReplay_hdr (form : DecForm) : (setUpReplay form s).hdr = s.hdr := rfl
@[simp] theorem setUpReplay_dec_wp (form : DecForm) : (setUpReplay form s).dec.wp = 0 := rfl
@[simp] theorem setUpReplay_dec_dlen (form : DecForm) : (setUpReplay form s).dec.dlen = s.hdr.size := rfl
@[simp] theorem setUpReplay_dec_flag (form : DecForm) : (setUpReplay form s).dec.flag = 0#8 := rfl
@[simp] theorem setUpReplay_dec_cnt (form : DecForm) : (setUpReplay form s).dec.cnt = 0 := rfl
@[simp] theorem setUpReplay_dec_pair (form : DecForm) : (setUpReplay form s).dec.pair = s.dec.pair := rfl
@[simp] theorem setUpReplay_dec_dist (form : DecForm) : (setUpReplay form s).dec.dist = s.dec.dist := rfl
@[simp] theorem setUpReplay_dec_nib (form : DecForm) : (setUpReplay form s).dec.nib = s.dec.nib := rfl
@[simp] theorem setUpReplay_dec_extra (form : DecForm) : (setUpReplay form s).dec.extra = s.dec.extra := rfl
@[simp] theorem setUpReplay_dec_len (form : DecForm) : (setUpReplay form s).dec.len = s.dec.len := rfl
@[simp] theorem setUpReplay_dec_csrc (form : DecForm) : (setUpReplay form s).dec.csrc = s.dec.csrc := rfl
@[simp] theorem setUpReplay_enc (form : DecForm) : (setUpReplay form s).enc = s.enc := rfl
@[simp] theorem setUpReplay_ht (form : DecForm) : (setUpReplay form s).ht = s.ht := rfl
@[simp] theorem setUpReplay_src (form : DecForm) : (setUpReplay form s).src = s.src := rfl
@[simp] theorem setUpReplay_out (form : DecForm) : (setUpReplay form s).out = s.out := rfl
@[simp] theorem setUpReplay_stream (form : DecForm) : (setUpReplay form s).stream = s.stream := rfl
@[simp] theorem setUpReplay_streamLen (form : DecForm) : (setUpReplay form s).streamLen = s.streamLen := rfl
@[simp] theorem setUpReplay_dst (form : DecForm) : (setUpReplay form s).dst = [] := rfl
@[simp] theorem setUpReplay_dstSpoiled (form : DecForm) : (setUpReplay form s).dstSpoiled = none := rfl
@[simp] theorem setUpReplay_freeCount (form : DecForm) : (setUpReplay form s).freeCount = s.freeCount := rfl

/-! ### `startDecompress` -/
@[simp] theorem startDecompress_params (form : DecForm) : (startDecompress form s).params = s.params := rfl
@[simp] theorem startDecompress_status (form : DecForm) : (startDecompress form s).status = ⟨.running, none⟩ := rfl
@[simp] theorem startDecompress_cmd (form : DecForm) : (startDecompress form s).cmd = s.cmd := rfl
@[simp] theorem startDecompress_cmdPending (form : DecForm) : (startDecompress form s).cmdPending = false := rfl
@[simp] theorem startDecompress_res (form : DecForm) : (startDecompress form s).res = .nothing := rfl
@[simp] theorem startDecompress_ret (form : DecForm) : (startDecompress form s).ret = s.ret := rfl
@[simp] theorem startDecompress_phase (form : DecForm) : (startDecompress form s).phase = .header form := rfl
@[simp] theorem startDecompress_mode (form : DecForm) : (startDecompress form s).mode = modeOf form := rfl
@[simp] theorem startDecompress_rd_buf (form : DecForm) : (startDecompress form s).rd.buf = .stream := rfl
@[simp] theorem startDecompress_rd_len (form : DecForm) : (startDecompress form s).rd.len = s.cmd.input.length := rfl
@[simp] theorem startDecompress_rd_pos (form : DecForm) : (startDecompress form s).rd.pos = 0 := rfl
@[simp] theorem startDecompress_rd_endian (form : DecForm) : (startDecompress form s).rd.endian = .big := rfl
@[simp] theorem startDecompress_hdr (form : DecForm) : (startDecompress form s).hdr = s.hdr := rfl
@[simp] theorem startDecompress_dec (form : DecForm) : (startDecompress form s).dec = s.dec := rfl
@[simp] theorem startDecompress_enc (form : DecForm) : (startDecompress form s).enc = s.enc := rfl
@[simp] theorem startDecompress_ht (form : DecForm) : (startDecompress form s).ht = s.ht := rfl
@[simp] theorem startDecompress_src (form : DecForm) : (startDecompress form s).src = s.src := rfl
@[simp] theorem startDecompress_out (form : DecForm) : (startDecompress form s).out = s.out := rfl
@[simp] theorem startDecompress_stream (form : DecForm) : (startDecompress form s).stream = Memory.ofBytes s.cmd.input := rfl
@[simp] theorem startDecompress_streamLen (form : DecForm) : (startDecompress form s).streamLen = s.cmd.input.length := rfl
@[simp] theorem startDecompress_dst (form : DecForm) : (startDecompress form s).dst = s.dst := rfl
@[simp] theorem startDecompress_dstSpoiled (form : DecForm) : (startDecompress form s).dstSpoiled = s.dstSpoiled := rfl
@[simp] theorem startDecompress_freeCount (form : DecForm) : (startDecompress form s).freeCount = s.freeCount := rfl

/-! ### `startProbe` -/
@[simp] theorem startProbe_params : (startProbe s).params = s.params := rfl
@[simp] theorem startProbe_status : (startProbe s).status = ⟨.running, none⟩ := rfl
@[simp] theorem startProbe_cmd : (startProbe s).cmd = s.cmd := rfl
@[simp] theorem startProbe_cmdPending : (startProbe s).cmdPending = false := rfl
@[simp] theorem startProbe_res : (startProbe s).res = .nothing := rfl
@[simp] theorem startProbe_ret : (startProbe s).ret = s.ret := rfl
@[simp] theorem startProbe_phase : (startProbe s).phase = .probe := rfl
@[simp] theorem startProbe_mode : (startProbe s).mode = s.mode := rfl
@[simp] theorem startProbe_rd_buf : (startProbe s).rd.buf = .stream := rfl
@[simp] theorem startProbe_rd_len : (startProbe s).rd.len = s.cmd.input.length := rfl
@[simp] theorem startProbe_rd_pos : (startProbe s).rd.pos = 0 := rfl
@[simp] theorem startProbe_rd_endian : (startProbe s).rd.endian = .big := rfl
@[simp] theorem startProbe_hdr : (startProbe s).hdr = s.hdr := rfl
@[simp] theorem startProbe_dec : (startProbe s).dec = s.dec := rfl
@[simp] theorem startProbe_enc : (startProbe s).enc = s.enc := rfl
@[simp] theorem startProbe_ht : (startProbe s).ht = s.ht := rfl
@[simp] theorem startProbe_src : (startProbe s).src = s.src := rfl
@[simp] theorem startProbe_out : (startProbe s).out = s.out := rfl
@[simp] theorem startProbe_stream : (startProbe s).stream = Memory.ofBytes s.cmd.input := rfl
@[simp] theorem startProbe_streamLen : (startProbe s).streamLen = s.cmd.input.length := rfl
@[simp] theorem startProbe_dst : (startProbe s).dst = s.dst := rfl
@[simp] theorem startProbe_dstSpoiled : (startProbe s).dstSpoiled = s.dstSpoiled := rfl
@[simp] theorem startProbe_freeCount : (startProbe s).freeCount = s.freeCount := rfl

/-! ### `State.takeFault` (60_exceptions.md R241, R242) -/

@[simp] theorem State.takeFault_params (e : FaultKind) : (s.takeFault e).params = s.params := by
  cases e <;> rfl
@[simp] theorem State.takeFault_status (e : FaultKind) : (s.takeFault e).status = ⟨.faulted, some e⟩ := by
  cases e <;> rfl
@[simp] theorem State.takeFault_cmd (e : FaultKind) : (s.takeFault e).cmd = s.cmd := by
  cases e <;> rfl
@[simp] theorem State.takeFault_cmdPending (e : FaultKind) : (s.takeFault e).cmdPending = s.cmdPending := by
  cases e <;> rfl
@[simp] theorem State.takeFault_res (e : FaultKind) : (s.takeFault e).res = .nothing := by
  cases e <;> rfl
@[simp] theorem State.takeFault_ret (e : FaultKind) : (s.takeFault e).ret = s.ret := by
  cases e <;> rfl
@[simp] theorem State.takeFault_phase (e : FaultKind) : (s.takeFault e).phase = .idle := by
  cases e <;> rfl
@[simp] theorem State.takeFault_mode (e : FaultKind) : (s.takeFault e).mode = s.mode := by
  cases e <;> rfl
@[simp] theorem State.takeFault_rd (e : FaultKind) : (s.takeFault e).rd = s.rd := by
  cases e <;> rfl
@[simp] theorem State.takeFault_hdr (e : FaultKind) : (s.takeFault e).hdr = s.hdr := by
  cases e <;> rfl
@[simp] theorem State.takeFault_dec (e : FaultKind) : (s.takeFault e).dec = s.dec := by
  cases e <;> rfl
@[simp] theorem State.takeFault_enc (e : FaultKind) : (s.takeFault e).enc = s.enc := by
  cases e <;> rfl
@[simp] theorem State.takeFault_ht (e : FaultKind) : (s.takeFault e).ht = s.ht := by
  cases e <;> rfl
@[simp] theorem State.takeFault_src (e : FaultKind) : (s.takeFault e).src = s.src := by
  cases e <;> rfl
@[simp] theorem State.takeFault_out (e : FaultKind) : (s.takeFault e).out = s.out := by
  cases e <;> rfl
@[simp] theorem State.takeFault_stream (e : FaultKind) : (s.takeFault e).stream = s.stream := by
  cases e <;> rfl
@[simp] theorem State.takeFault_streamLen (e : FaultKind) : (s.takeFault e).streamLen = s.streamLen := by
  cases e <;> rfl
@[simp] theorem State.takeFault_malformedHeader_dst :
    (s.takeFault .malformedHeader).dst = s.dst := rfl
@[simp] theorem State.takeFault_malformedHeader_dstSpoiled :
    (s.takeFault .malformedHeader).dstSpoiled = s.dstSpoiled := rfl
@[simp] theorem State.takeFault_insufficientDestination_dst :
    (s.takeFault .insufficientDestination).dst = s.dst := rfl
@[simp] theorem State.takeFault_insufficientDestination_dstSpoiled :
    (s.takeFault .insufficientDestination).dstSpoiled = s.dstSpoiled := rfl
@[simp] theorem State.takeFault_truncatedStream_dst :
    (s.takeFault .truncatedStream).dst = [] := rfl
@[simp] theorem State.takeFault_truncatedStream_dstSpoiled :
    (s.takeFault .truncatedStream).dstSpoiled = some s.freeCount := rfl
@[simp] theorem State.takeFault_corruptCopy_dst : (s.takeFault .corruptCopy).dst = [] := rfl
@[simp] theorem State.takeFault_corruptCopy_dstSpoiled :
    (s.takeFault .corruptCopy).dstSpoiled = some s.freeCount := rfl

/-! ### Buffers -/

@[simp] theorem State.bufMem_stream : s.bufMem .stream = s.stream := rfl
@[simp] theorem State.bufMem_src : s.bufMem .src = s.src := rfl
@[simp] theorem State.bufLen_stream : s.bufLen .stream = s.streamLen := rfl
@[simp] theorem State.bufLen_src : s.bufLen .src = s.enc.slen := rfl

end Sys2Proof.Machine
end

