-- ==== Sys2Proof/Laws/Memory.lean ====
section
/-! SUPPORT. The laws of one space: read after write, the canonical form kept by every operation, equal
reads mean equal spaces, and what a contiguous space holds. -/

namespace Sys2Proof.Machine

/-! ### Read after write -/

@[simp] theorem Memory.read_nil (a : Nat) : Memory.read [] a = none := rfl

theorem Memory.read_cons (m : Memory) (b a : Nat) (v : Byte) :
    Memory.read ((b, v) :: m) a = if a = b then some v else m.read a := rfl

theorem Memory.read_write (m : Memory) (a b : Nat) (v : Byte) :
    (m.write a v).read b = if b = a then some v else m.read b := by
  induction m with
  | nil => simp [Memory.write, Memory.read]
  | cons x m ih =>
    obtain ⟨c, w⟩ := x
    simp only [Memory.write]
    split
    · rfl
    · split
      · subst_vars
        simp only [Memory.read_cons]
        split <;> rfl
      · simp only [Memory.read_cons, ih]
        by_cases hbc : b = c <;> by_cases hba : b = a <;> simp_all

@[simp] theorem Memory.read_write_same (m : Memory) (a : Nat) (v : Byte) :
    (m.write a v).read a = some v := by simp [Memory.read_write]

theorem Memory.read_write_other (m : Memory) {a b : Nat} (v : Byte) (h : b ≠ a) :
    (m.write a v).read b = m.read b := by simp [Memory.read_write, h]

theorem Memory.read_writeAll (m : Memory) (a b : Nat) (vs : List Byte) :
    (m.writeAll a vs).read b =
      if a ≤ b ∧ b < a + vs.length then vs[b - a]? else m.read b := by
  induction vs generalizing m a with
  | nil => simp [Memory.writeAll]
  | cons v vs ih =>
    simp only [Memory.writeAll, ih, Memory.read_write, List.length_cons]
    by_cases hb : b = a
    · subst hb; simp
    · by_cases hin : a ≤ b ∧ b < a + (vs.length + 1)
      · have h' : a + 1 ≤ b ∧ b < a + 1 + vs.length := by omega
        have hs : b - a = (b - (a + 1)) + 1 := by omega
        simp [hin, h', hs]
      · have h' : ¬(a + 1 ≤ b ∧ b < a + 1 + vs.length) := by omega
        rw [if_neg h', if_neg hin, if_neg hb]

/-- A byte outside the written range reads as before. -/
theorem Memory.read_writeAll_other (m : Memory) {a b : Nat} (vs : List Byte)
    (h : b < a ∨ a + vs.length ≤ b) : (m.writeAll a vs).read b = m.read b := by
  rw [Memory.read_writeAll, if_neg (by omega)]

theorem Memory.read_ofBytesAt (a b : Nat) (vs : List Byte) :
    (Memory.ofBytesAt a vs).read b = if a ≤ b then vs[b - a]? else none := by
  induction vs generalizing a with
  | nil => simp [Memory.ofBytesAt]
  | cons v vs ih =>
    simp only [Memory.ofBytesAt, Memory.read_cons, ih]
    by_cases hb : b = a
    · subst hb; simp
    · by_cases hle : a ≤ b
      · have hs : b - a = (b - (a + 1)) + 1 := by omega
        simp [hb, hle, hs, show a + 1 ≤ b by omega]
      · simp [hb, hle, show ¬ a + 1 ≤ b by omega]

/-- A loaded space reads as the byte sequence it was loaded from. -/
@[simp] theorem Memory.read_ofBytes (b : Nat) (vs : List Byte) :
    (Memory.ofBytes vs).read b = vs[b]? := by simp [Memory.ofBytes, Memory.read_ofBytesAt]

/-! ### The canonical form -/

theorem Memory.mem_write_fst {m : Memory} {a : Nat} {v : Byte} {x : Host.Cell}
    (h : x ∈ m.write a v) : x.1 = a ∨ ∃ y ∈ m, y.1 = x.1 := by
  induction m with
  | nil => simp [Memory.write] at h; simp [h]
  | cons y m ih =>
    obtain ⟨c, w⟩ := y
    simp only [Memory.write] at h
    split at h
    · rcases List.mem_cons.1 h with rfl | h
      · exact .inl rfl
      · exact .inr ⟨x, h, rfl⟩
    · split at h
      · rcases List.mem_cons.1 h with rfl | h
        · exact .inl rfl
        · exact .inr ⟨x, List.mem_cons_of_mem _ h, rfl⟩
      · rcases List.mem_cons.1 h with rfl | h
        · exact .inr ⟨_, List.mem_cons_self, rfl⟩
        · rcases ih h with h | ⟨y, hy, he⟩
          · exact .inl h
          · exact .inr ⟨y, List.mem_cons_of_mem _ hy, he⟩

/-- Writing keeps the canonical form. -/
theorem Memory.write_wf {m : Memory} (h : m.wf) (a : Nat) (v : Byte) : (m.write a v).wf := by
  induction m with
  | nil => simp [Memory.write, Memory.wf]
  | cons y m ih =>
    obtain ⟨c, w⟩ := y
    obtain ⟨hc, hm⟩ := List.pairwise_cons.1 h
    simp only [Memory.write]
    split
    · refine List.pairwise_cons.2 ⟨fun x hx => ?_, h⟩
      rcases List.mem_cons.1 hx with rfl | hx
      · assumption
      · have := hc x hx; simp only at this ⊢; omega
    · split
      · subst_vars; exact List.pairwise_cons.2 ⟨hc, hm⟩
      · refine List.pairwise_cons.2 ⟨fun x hx => ?_, ih hm⟩
        rcases Memory.mem_write_fst hx with he | ⟨y, hy, he⟩
        · simp only; omega
        · have := hc y hy; simp only at this ⊢; omega

theorem Memory.writeAll_wf {m : Memory} (h : m.wf) (a : Nat) (vs : List Byte) :
    (m.writeAll a vs).wf := by
  induction vs generalizing m a with
  | nil => exact h
  | cons v vs ih => exact ih (Memory.write_wf h a v) (a + 1)

theorem Memory.ofBytesAt_fst (a : Nat) (vs : List Byte) :
    (Memory.ofBytesAt a vs).map Prod.fst = List.range' a vs.length := by
  induction vs generalizing a with
  | nil => rfl
  | cons v vs ih => simp [Memory.ofBytesAt, ih, List.range'_succ]

/-- A loaded space holds exactly its bytes. -/
theorem Memory.ofBytes_holds (vs : List Byte) : (Memory.ofBytes vs).holds vs.length := by
  simp [Memory.holds, Memory.ofBytes, Memory.ofBytesAt_fst, List.range_eq_range']

theorem Memory.holds_wf {m : Memory} {n : Nat} (h : m.holds n) : m.wf := by
  have : (m.map Prod.fst).Pairwise (· < ·) := by rw [h]; exact List.pairwise_lt_range
  exact List.pairwise_map.1 this

theorem Memory.ofBytes_wf (vs : List Byte) : (Memory.ofBytes vs).wf :=
  Memory.holds_wf (Memory.ofBytes_holds vs)

/-! ### Contiguous spaces -/

theorem Memory.read_isSome_iff (m : Memory) (a : Nat) :
    (m.read a).isSome ↔ a ∈ m.map Prod.fst := by
  induction m with
  | nil => simp
  | cons x m ih =>
    obtain ⟨b, v⟩ := x
    by_cases h : a = b
    · simp [Memory.read_cons, h]
    · simpa [Memory.read_cons, h] using ih

theorem Memory.holds_isSome_iff {m : Memory} {n : Nat} (h : m.holds n) (a : Nat) :
    (m.read a).isSome ↔ a < n := by
  rw [Memory.read_isSome_iff, h, List.mem_range]

theorem Memory.holds_read {m : Memory} {n : Nat} (h : m.holds n) {a : Nat} (ha : a < n) :
    ∃ v, m.read a = some v :=
  Option.isSome_iff_exists.1 ((Memory.holds_isSome_iff h a).2 ha)

theorem Memory.holds_read_none {m : Memory} {n : Nat} (h : m.holds n) {a : Nat} (ha : n ≤ a) :
    m.read a = none := by
  have := Memory.holds_isSome_iff h a
  cases hr : m.read a with
  | none => rfl
  | some v => simp [hr] at this; omega

/-- A canonical space is determined by the set of its addresses. -/
theorem Memory.holds_of_wf {m : Memory} {n : Nat} (hw : m.wf)
    (h : ∀ a, (m.read a).isSome ↔ a < n) : m.holds n := by
  have hs : (m.map Prod.fst).Pairwise (· < ·) := List.pairwise_map.2 hw
  refine List.Perm.eq_of_pairwise' hs List.pairwise_lt_range ?_
  refine (List.perm_ext_iff_of_nodup (hs.imp fun h => Nat.ne_of_lt h)
    List.nodup_range).2 fun a => ?_
  rw [← Memory.read_isSome_iff, h, List.mem_range]

/-- Writing at the end of a contiguous space makes it one longer. -/
theorem Memory.holds_write_end {m : Memory} {n : Nat} (h : m.holds n) (v : Byte) :
    (m.write n v).holds (n + 1) := by
  refine Memory.holds_of_wf (Memory.write_wf (Memory.holds_wf h) n v) fun a => ?_
  rw [Memory.read_write]
  have := Memory.holds_isSome_iff h a
  split
  · simp; omega
  · rw [this]; omega

/-- Writing inside a contiguous space leaves its length. -/
theorem Memory.holds_write_inside {m : Memory} {n a : Nat} (h : m.holds n) (ha : a < n) (v : Byte) :
    (m.write a v).holds n := by
  refine Memory.holds_of_wf (Memory.write_wf (Memory.holds_wf h) a v) fun b => ?_
  rw [Memory.read_write]
  have := Memory.holds_isSome_iff h b
  split
  · simp; omega
  · exact this

theorem Memory.holds_writeAll_end {m : Memory} {n : Nat} (h : m.holds n) (vs : List Byte) :
    (m.writeAll n vs).holds (n + vs.length) := by
  induction vs generalizing m n with
  | nil => exact h
  | cons v vs ih =>
    have := ih (Memory.holds_write_end h v)
    simpa [Memory.writeAll, Nat.add_assoc, Nat.add_comm 1] using this

/-- Two canonical spaces that read the same are the same data. -/
theorem Memory.ext_of_wf {m m' : Memory} (h : m.wf) (h' : m'.wf)
    (hr : ∀ a, m.read a = m'.read a) : m = m' := by
  induction m generalizing m' with
  | nil =>
    cases m' with
    | nil => rfl
    | cons y m' =>
      have := hr y.1
      simp [Memory.read] at this
  | cons x m ih =>
    obtain ⟨a, v⟩ := x
    cases m' with
    | nil => have := hr a; simp [Memory.read] at this
    | cons y m' =>
      obtain ⟨b, w⟩ := y
      obtain ⟨hx, hm⟩ := List.pairwise_cons.1 h
      obtain ⟨hy, hm'⟩ := List.pairwise_cons.1 h'
      have low : ∀ {k : Memory} {c d : Nat}, (∀ z ∈ k, c < z.1) → d ≤ c → k.read d = none := by
        intro k c d hk hd
        cases hkd : k.read d with
        | none => rfl
        | some u =>
          have hmem : d ∈ k.map Prod.fst := (Memory.read_isSome_iff k d).1 (by simp [hkd])
          obtain ⟨z, hz, rfl⟩ := List.mem_map.1 hmem
          have := hk z hz
          omega
      have hab : a = b := by
        by_contra hne
        rcases Nat.lt_or_gt_of_ne hne with hlt | hgt
        · have := hr a
          simp [Memory.read_cons, hne, low hy (Nat.le_of_lt hlt)] at this
        · have := hr b
          simp [Memory.read_cons, Ne.symm hne, low hx (Nat.le_of_lt hgt)] at this
      subst hab
      have hvw : v = w := by simpa [Memory.read_cons] using hr a
      subst hvw
      rw [ih hm hm' fun c => ?_]
      by_cases hc : c = a
      · subst hc; rw [low hx (Nat.le_refl _), low hy (Nat.le_refl _)]
      · simpa [Memory.read_cons, hc] using hr c

/-! ### Reading several bytes -/

theorem Memory.readUpTo_length_le (m : Memory) (a n : Nat) : (m.readUpTo a n).length ≤ n := by
  induction n generalizing a with
  | zero => simp [Memory.readUpTo]
  | succ n ih =>
    simp only [Memory.readUpTo]
    split
    · simpa using ih (a + 1)
    · simp

theorem Memory.readUpTo_getElem? (m : Memory) (a n i : Nat) (h : i < (m.readUpTo a n).length) :
    (m.readUpTo a n)[i]? = m.read (a + i) := by
  induction n generalizing a i with
  | zero => simp [Memory.readUpTo] at h
  | succ n ih =>
    simp only [Memory.readUpTo] at h ⊢
    split at h
    · rename_i v hv
      cases i with
      | zero => simp [hv]
      | succ i =>
        have := ih (a + 1) i (by simpa using h)
        simpa [hv, Nat.add_assoc, Nat.add_comm 1] using this
    · simp at h

/-- Where every byte holds a value, all of them are read. -/
theorem Memory.readUpTo_length_of_some {m : Memory} {a n : Nat}
    (h : ∀ i, i < n → (m.read (a + i)).isSome) : (m.readUpTo a n).length = n := by
  induction n generalizing a with
  | zero => rfl
  | succ n ih =>
    obtain ⟨v, hv⟩ := Option.isSome_iff_exists.1 (h 0 (Nat.succ_pos n))
    have hv' : m.read a = some v := by simpa using hv
    simp only [Memory.readUpTo, hv', List.length_cons]
    rw [ih fun i hi => ?_]
    have := h (i + 1) (Nat.succ_lt_succ hi)
    rwa [Nat.add_comm i 1, ← Nat.add_assoc] at this

theorem Memory.readUpTo_holds_length {m : Memory} {k a n : Nat} (h : m.holds k)
    (hn : a + n ≤ k) : (m.readUpTo a n).length = n :=
  Memory.readUpTo_length_of_some fun i hi => (Memory.holds_isSome_iff h _).2 (by omega)

/-- A loaded space gives back a stretch of its bytes. -/
theorem Memory.readUpTo_ofBytes (bs : List Byte) (a n : Nat) :
    (Memory.ofBytes bs).readUpTo a n = (bs.drop a).take n := by
  induction n generalizing a with
  | zero => simp [Memory.readUpTo]
  | succ n ih =>
    simp only [Memory.readUpTo, Memory.read_ofBytes]
    cases h : bs[a]? with
    | none => simp [List.drop_eq_nil_of_le (List.getElem?_eq_none_iff.1 h)]
    | some v =>
      obtain ⟨ha, hv⟩ := List.getElem?_eq_some_iff.1 h
      simp only [ih]
      rw [List.drop_eq_getElem_cons ha, List.take_succ_cons, hv]

/-- `readSpan` answers exactly when all of its bytes hold a value. -/
theorem Memory.readSpan_eq_some_iff (m : Memory) (a n : Nat) (bs : List Byte) :
    m.readSpan a n = some bs ↔ bs.length = n ∧ ∀ i, i < n → m.read (a + i) = bs[i]? := by
  constructor
  · intro h
    simp only [Memory.readSpan] at h
    split at h
    · rename_i hl
      obtain rfl := Option.some.inj h
      exact ⟨hl, fun i hi => (Memory.readUpTo_getElem? m a n i (by omega)).symm⟩
    · simp at h
  · rintro ⟨hl, hr⟩
    have hlen : (m.readUpTo a n).length = n :=
      Memory.readUpTo_length_of_some fun i hi => by
        rw [hr i hi, List.getElem?_eq_getElem (by omega)]; rfl
    have heq : m.readUpTo a n = bs := by
      apply List.ext_getElem? fun i => ?_
      by_cases hi : i < n
      · rw [Memory.readUpTo_getElem? m a n i (by omega), hr i hi]
      · rw [List.getElem?_eq_none (by omega), List.getElem?_eq_none (by omega)]
    simp [Memory.readSpan, heq, hl]

theorem Memory.readSpan_holds {m : Memory} {k a n : Nat} (h : m.holds k) (hn : a + n ≤ k) :
    ∃ bs, m.readSpan a n = some bs := by
  simp [Memory.readSpan, Memory.readUpTo_holds_length h hn]

theorem Memory.readSpan_ofBytes (bs : List Byte) (a n : Nat) (h : a + n ≤ bs.length) :
    (Memory.ofBytes bs).readSpan a n = some ((bs.drop a).take n) := by
  have hl : ((bs.drop a).take n).length = n := by simp; omega
  simp only [Memory.readSpan, Memory.readUpTo_ofBytes, hl, if_true]

end Sys2Proof.Machine
end

