-- ==== Sys2Proof/Laws/Ops.lean ====
section
/-! SUPPORT. What the shared operations can answer: sequencing, the bounded reads, the host's move, byte
values. -/

namespace Sys2Proof.Machine

/-! ### Sequencing -/

@[simp] theorem andThen_next (s : State) (f : State → Result) : andThen (.next s) f = f s := rfl
@[simp] theorem andThen_fault (r : Fault) (f : State → Result) :
    andThen (.fault r) f = .fault r := rfl
@[simp] theorem andThen_refused (r : Refusal) (f : State → Result) :
    andThen (.refused r) f = .refused r := rfl

/-- A sequence answers a next state only through one of its first part. -/
theorem andThen_eq_next_iff (o : Result) (f : State → Result) (t : State) :
    andThen o f = .next t ↔ ∃ s, o = .next s ∧ f s = .next t := by
  cases o <;> simp

theorem andThen_eq_fault_iff (o : Result) (f : State → Result) (r : Fault) :
    andThen o f = .fault r ↔ o = .fault r ∨ ∃ s, o = .next s ∧ f s = .fault r := by
  cases o <;> simp

theorem andThen_eq_refused_iff (o : Result) (f : State → Result) (r : Refusal) :
    andThen o f = .refused r ↔ o = .refused r ∨ ∃ s, o = .next s ∧ f s = .refused r := by
  cases o <;> simp

theorem andThen_assoc (o : Result) (f g : State → Result) :
    andThen (andThen o f) g = andThen o fun s => andThen (f s) g := by
  cases o <;> rfl

@[simp] theorem nextState?_next (s : State) : nextState? (.next s) = some s := rfl
@[simp] theorem nextState?_fault (r : Fault) : nextState? (.fault r) = none := rfl
@[simp] theorem nextState?_refused (r : Refusal) : nextState? (.refused r) = none := rfl

theorem nextState?_eq_some_iff (o : Result) (t : State) : nextState? o = some t ↔ o = .next t := by
  cases o <;> simp

/-! ### The bounded read (40_byte_reader.md R128) -/

theorem State.take_eq_short_iff (s : State) (n : Nat) :
    s.take n = .short ↔ s.rd.len < s.rd.pos + n := by
  unfold State.take
  split
  · simp_all
  · split <;> simp_all

theorem State.take_eq_got_iff (s : State) (n : Nat) (bs : List Byte) :
    s.take n = .got bs ↔
      s.rd.pos + n ≤ s.rd.len ∧ (s.bufMem s.rd.buf).readSpan s.rd.pos n = some bs := by
  unfold State.take
  split
  · simp; omega
  · split <;> simp_all

/-- In a whole buffer a read that is in range finds its bytes. -/
theorem State.take_whole {s : State} {n : Nat} (hb : (s.bufMem s.rd.buf).holds s.rd.len)
    (h : s.rd.pos + n ≤ s.rd.len) :
    ∃ bs, s.take n = .got bs ∧ bs.length = n := by
  obtain ⟨bs, hbs⟩ := Memory.readSpan_holds hb h
  exact ⟨bs, (State.take_eq_got_iff s n bs).2 ⟨h, hbs⟩,
    ((Memory.readSpan_eq_some_iff _ _ _ _).1 hbs).1⟩

/-- All that a checked read can do (R128). -/
theorem checkedRead_cases (n : Nat) (value : Endian → List Byte → Ret) (s : State) :
    (s.take n = .short ∧ checkedRead n value s = .next { s with ret := .insufficientData }) ∨
    (s.take n = .hole ∧ checkedRead n value s = .fault (.noValue (bufSpace s.rd.buf))) ∨
    ∃ bs, s.take n = .got bs ∧
      checkedRead n value s = .next { s.advance n with ret := value s.rd.endian bs } := by
  unfold checkedRead
  cases h : s.take n <;> simp

/-- All that an unchecked read can do (R129). -/
theorem uncheckedRead_cases (n : Nat) (value : Endian → List Byte → Ret) (s : State) :
    (s.take n = .short ∧ uncheckedRead n value s = .refused .uncheckedReadPastEnd) ∨
    (s.take n = .hole ∧ uncheckedRead n value s = .fault (.noValue (bufSpace s.rd.buf))) ∨
    ∃ bs, s.take n = .got bs ∧
      uncheckedRead n value s = .next { s.advance n with ret := value s.rd.endian bs } := by
  unfold uncheckedRead
  cases h : s.take n <;> simp

/-- A checked read in range. -/
theorem checkedRead_got {n : Nat} {value : Endian → List Byte → Ret} {s : State} {bs : List Byte}
    (h : s.take n = .got bs) :
    checkedRead n value s = .next { s.advance n with ret := value s.rd.endian bs } := by
  simp [checkedRead, h]

/-- In range, an unchecked read is the checked one (R129). -/
theorem uncheckedRead_eq_checkedRead {n : Nat} (value : Endian → List Byte → Ret) {s : State}
    (h : s.rd.pos + n ≤ s.rd.len) : uncheckedRead n value s = checkedRead n value s := by
  have : s.take n ≠ .short := fun hs => by
    have := (State.take_eq_short_iff s n).1 hs; omega
  unfold uncheckedRead checkedRead
  cases ht : s.take n <;> simp_all

/-! ### The host's move (60_exceptions.md R243, R251) -/

/-- All that the host's move can do: it answers exactly on an idle engine with nothing pending, writes
`CMD`, and places the bytes of a caller's destination in `DST`. -/
theorem State.hostIssue_eq_some_iff (s t : State) (cmd : Cmd) (buffer : List Byte) :
    s.hostIssue cmd buffer = some t ↔
      s.phase = .idle ∧ s.cmdPending = false ∧
      t = { s with
        cmd := cmd, cmdPending := true,
        dst := if cmd.dest.isSome then Memory.ofBytes buffer else s.dst,
        dstSpoiled := if cmd.dest.isSome then none else s.dstSpoiled } := by
  unfold State.hostIssue
  split <;> cases cmd.dest <;> simp [*, eq_comm (b := t)]

/-! ### Byte values -/

@[simp] theorem beValue_nil : beValue [] = 0 := rfl

theorem beValue_one (a : Byte) : beValue [a] = a.toNat := by simp [beValue]

theorem beValue_two (a b : Byte) : beValue [a, b] = a.toNat * 256 + b.toNat := by simp [beValue]

theorem beValue_three (a b c : Byte) :
    beValue [a, b, c] = a.toNat * 65536 + b.toNat * 256 + c.toNat := by
  simp [beValue]; omega

theorem beValue_four (a b c d : Byte) :
    beValue [a, b, c, d] = a.toNat * 16777216 + b.toNat * 65536 + c.toNat * 256 + d.toNat := by
  simp [beValue]; omega

theorem leValue_eq (bs : List Byte) : leValue bs = beValue bs.reverse := rfl

/-- The big-endian pair as a number (20_memory.md R61). -/
theorem be16_toNat (a b : Byte) : (be16 a b).toNat = a.toNat * 256 + b.toNat := by
  have hb := b.isLt
  simp only [be16, BitVec.toNat_append]
  rw [← Nat.shiftLeft_add_eq_or_of_lt hb]
  simp only [Nat.shiftLeft_eq]

/-- The big-endian 32-bit value as a number (20_memory.md R61). -/
theorem be32_toNat (a b c d : Byte) :
    (be32 a b c d).toNat
      = a.toNat * 16777216 + b.toNat * 65536 + c.toNat * 256 + d.toNat := by
  have hb := b.isLt
  have hc := c.isLt
  have hd := d.isLt
  simp only [be32, BitVec.toNat_append]
  rw [← Nat.shiftLeft_add_eq_or_of_lt hd, ← Nat.shiftLeft_add_eq_or_of_lt hc,
    ← Nat.shiftLeft_add_eq_or_of_lt hb]
  simp only [Nat.shiftLeft_eq]
  omega

@[simp] theorem be32_bytes32 (v : BitVec 32) :
    be32 (v.extractLsb' 24 8) (v.extractLsb' 16 8) (v.extractLsb' 8 8) (v.extractLsb' 0 8) = v := by
  apply BitVec.eq_of_toNat_eq
  have := v.isLt
  simp only [be32_toNat, BitVec.extractLsb'_toNat, Nat.shiftRight_eq_div_pow]
  omega

theorem bytes32_length (v : BitVec 32) : (bytes32 v).length = 4 := rfl

@[simp] theorem headerBytes_length (p : Config.Params) (size align : BitVec 32) :
    (headerBytes p size align).length = p.headerSize := by
  simp [headerBytes, bytes32]; omega

/-- What WRITE_HEADER writes is a header record with zero reserved bytes (R141). -/
theorem headerBytes_eq_encode (p : Config.Params) (size align : BitVec 32) :
    headerBytes p size align = encode (.hdr size align (List.replicate p.reservedLen 0#8)) := rfl

/-- The length of a header record (R14). -/
theorem encode_hdr_length (size align : BitVec 32) (r : List Byte) :
    (encode (.hdr size align r)).length = 12 + r.length := by
  simp [encode, bytes32]; omega

end Sys2Proof.Machine
end

