-- ==== Sys2Proof/Laws/Copy.lean ====
section
/-! SUPPORT. The match data path (44_decompressor.md R211, R212): what a copy can do, and its closed
form (20_memory.md R75). -/

namespace Sys2Proof.Machine

/-- A byte that has been written reads as itself, spoiled or not. -/
theorem State.dstByte_of_read {s : State} {a : Nat} {v : Byte} (h : s.dst.read a = some v) :
    s.dstByte a = some v := by simp [State.dstByte, h]

/-- Where nothing is spoiled, `DST` reads as its bytes. -/
theorem State.dstByte_fresh {s : State} (h : s.dstSpoiled = none) (a : Nat) :
    s.dstByte a = s.dst.read a := by
  cases hr : s.dst.read a <;> simp [State.dstByte, hr, h]

/-- A bad access of COPY answers no next state. -/
@[simp] theorem badCopy_ne_next (r : Fault) (s t : State) : badCopy r s ≠ .next t := by
  unfold badCopy; split <;> simp

/-- Everything a copy loop can do when it answers a next state. -/
theorem copyLoop_next {n : Nat} {s t : State} (h : copyLoop n s = .next t) :
    t = { s with dst := t.dst, dec.wp := s.dec.wp + n, dec.csrc := s.dec.csrc + n } ∧
      (n = 0 ∨ s.dec.wp + n ≤ s.dec.dlen.toNat) ∧ (s.dst.wf → t.dst.wf) ∧
      (∀ k, s.dst.holds k → k = s.dec.wp → t.dst.holds (s.dec.wp + n)) ∧
      ∀ a, a < s.dec.wp ∨ s.dec.wp + n ≤ a → t.dst.read a = s.dst.read a := by
  induction n generalizing s with
  | zero =>
    obtain rfl : s = t := by simpa [copyLoop] using h
    exact ⟨rfl, .inl rfl, id, fun k hk e => e ▸ hk, fun _ _ => rfl⟩
  | succ n ih =>
    unfold copyLoop at h
    split at h
    · exact absurd h (badCopy_ne_next _ _ _)
    · rename_i b hb
      split at h
      · rename_i hlt
        obtain ⟨h1, h2, h3, h4, h5⟩ := ih h
        refine ⟨?_, .inr ?_, fun hw => h3 (Memory.write_wf hw _ _), ?_, ?_⟩
        · rw [h1]; simp [State.putDst, Nat.add_assoc, Nat.add_comm 1]
        · rcases h2 with rfl | h2
          · omega
          · simpa [State.putDst, Nat.add_assoc, Nat.add_comm 1] using h2
        · rintro k hk rfl
          have := h4 (s.dec.wp + 1) (Memory.holds_write_end hk b) rfl
          simpa [State.putDst, Nat.add_assoc, Nat.add_comm 1] using this
        · intro a ha
          rw [h5 a (by simp only [State.putDst]; omega)]
          exact Memory.read_write_other _ _ (by omega)
      · exact absurd h (badCopy_ne_next _ _ _)

/-- The closed form of R75: with the `dist` bytes behind `WP` written and room for `n` bytes, the loop
repeats them. -/
theorem copyLoop_closed {n dist : Nat} {s : State} (hd : 1 ≤ dist)
    (hc : s.dec.csrc + dist = s.dec.wp) (hn : s.dec.wp + n ≤ s.dec.dlen.toNat)
    (hw : ∀ a, s.dec.csrc ≤ a → a < s.dec.wp → (s.dst.read a).isSome) :
    ∃ t, copyLoop n s = .next t ∧
      ∀ i, i < n → t.dst.read (s.dec.wp + i) = s.dst.read (s.dec.csrc + i % dist) := by
  induction n generalizing s with
  | zero => exact ⟨s, rfl, fun i hi => absurd hi (by omega)⟩
  | succ n ih =>
    obtain ⟨v, hv⟩ := Option.isSome_iff_exists.1 (hw s.dec.csrc (Nat.le_refl _) (by omega))
    have hlt : s.dec.wp < s.dec.dlen.toNat := by omega
    obtain ⟨t, ht, hr⟩ := ih (s := { s.putDst v with dec.csrc := s.dec.csrc + 1 })
      (by simp only [State.putDst]; omega) (by simp only [State.putDst]; omega) (by
        intro a h1 h2
        simp only [State.putDst] at h1 h2 ⊢
        rw [Memory.read_write]
        split
        · rfl
        · exact hw a (by omega) (by omega))
    refine ⟨t, by rw [copyLoop, State.dstByte_of_read hv]; simpa only [if_pos hlt] using ht, ?_⟩
    intro i hi
    cases i with
    | zero =>
      have := (copyLoop_next ht).2.2.2.2 s.dec.wp (.inl (by simp [State.putDst]))
      simpa [State.putDst, hv] using this
    | succ j =>
      have := hr j (by omega)
      simp only [State.putDst, Memory.read_write] at this
      rw [show s.dec.wp + (j + 1) = s.dec.wp + 1 + j by omega, this]
      have hj : j % dist < dist := Nat.mod_lt _ hd
      rcases Nat.lt_or_ge (j % dist + 1) dist with hlt' | hge
      · have hm : (j + 1) % dist = j % dist + 1 := by
          rw [Nat.add_mod, Nat.mod_eq_of_lt (a := 1) (by omega), Nat.mod_eq_of_lt hlt']
        rw [if_neg (by omega), hm]
        congr 1
        omega
      · have hm : (j + 1) % dist = 0 := by
          have hdiv : dist ∣ j + 1 := by
            refine ⟨j / dist + 1, ?_⟩
            have := Nat.div_add_mod j dist
            rw [Nat.mul_add]; omega
          exact Nat.mod_eq_zero_of_dvd hdiv
        rw [if_pos (by omega), hm, Nat.add_zero, hv]

/-- COPY from written bytes into room (R212): the closed form as a relation between the two states. -/
theorem copyMatch_closed {s : State} (h1 : 1 ≤ s.dec.dist.toNat) (h2 : s.dec.dist.toNat ≤ s.dec.wp)
    (h3 : s.dec.wp + s.dec.len.toNat ≤ s.dec.dlen.toNat) (h4 : sourceWritten s s.dec.dist.toNat) :
    ∃ t, copyMatch s = .next t ∧ copiedBehind s t s.dec.dist.toNat s.dec.len.toNat ∧
      t = { s with
        dst := t.dst, dec.wp := s.dec.wp + s.dec.len.toNat,
        dec.csrc := s.dec.wp - s.dec.dist.toNat + s.dec.len.toNat } := by
  obtain ⟨t, ht, hr⟩ := copyLoop_closed (n := s.dec.len.toNat) (dist := s.dec.dist.toNat)
    (s := { s with dec.csrc := s.dec.wp - s.dec.dist.toNat }) h1 (by simp only; omega) h3
    (fun a ha hb => h4 a (by simp only at ha; omega) hb)
  have hn := copyLoop_next ht
  exact ⟨t, by simp only [copyMatch, if_pos h2, ht], ⟨hr, hn.2.2.2.2⟩, hn.1⟩

/-- A copy loop with a byte to write past the end of `DST` stops: the last byte at the latest (R82). -/
theorem copyLoop_outside {n : Nat} {s : State} (h0 : 0 < n) (h : s.dec.dlen.toNat < s.dec.wp + n) :
    (s.mode = .trusted → copyLoop n s = .refused .trustedMalformed) ∧
    (s.mode = .checked →
      copyLoop n s = .fault (.noValue .dst) ∨ copyLoop n s = .fault (.outsideSpace .dst)) := by
  induction n generalizing s with
  | zero => omega
  | succ n ih =>
    unfold copyLoop
    split
    · exact ⟨fun hm => by simp [badCopy, hm], fun hm => .inl (by simp [badCopy, hm])⟩
    · rename_i b _
      split
      · rename_i hlt
        rw [← State.putDst_mode s b]
        exact ih (s := { s.putDst b with dec.csrc := s.dec.csrc + 1 }) (by omega)
          (by simp only [State.putDst]; omega)
      · exact ⟨fun hm => by simp [badCopy, hm], fun hm => .inr (by simp [badCopy, hm])⟩

/-- COPY from before `DST[0]`, or with a byte to write past its end: refused in trusted mode (R82, U1), a
fault of the model in checked mode (log 15). -/
theorem copyMatch_outside {s : State} (h : s.dec.wp < s.dec.dist.toNat ∨
      (0 < s.dec.len.toNat ∧ s.dec.dlen.toNat < s.dec.wp + s.dec.len.toNat)) :
    (s.mode = .trusted → copyMatch s = .refused .trustedMalformed) ∧
    (s.mode = .checked →
      copyMatch s = .fault (.noValue .dst) ∨ copyMatch s = .fault (.outsideSpace .dst)) := by
  unfold copyMatch
  split
  · rename_i hle
    have h := h.resolve_left (by omega)
    exact copyLoop_outside (s := { s with dec.csrc := s.dec.wp - s.dec.dist.toNat }) h.1 h.2
  · exact ⟨fun hm => by simp [badCopy, hm], fun hm => .inl (by simp [badCopy, hm])⟩

/-- Everything COPY can do when it answers a next state. -/
theorem copyMatch_next {s t : State} (h : copyMatch s = .next t) :
    s.dec.dist.toNat ≤ s.dec.wp ∧
      t = { s with
        dst := t.dst, dec.wp := s.dec.wp + s.dec.len.toNat,
        dec.csrc := s.dec.wp - s.dec.dist.toNat + s.dec.len.toNat } ∧
      (s.dst.wf → t.dst.wf) ∧
      (s.dst.holds s.dec.wp → t.dst.holds (s.dec.wp + s.dec.len.toNat)) := by
  unfold copyMatch at h
  split at h
  · rename_i hle
    obtain ⟨h1, -, h3, h4, -⟩ := copyLoop_next h
    exact ⟨hle, h1, h3, fun hh => h4 _ hh rfl⟩
  · exact absurd h (badCopy_ne_next _ _ _)

/-! ### The copy over a byte list -/

/-- Writing at the end of a byte list appends. -/
theorem Memory.write_ofBytes_end (bs : List Byte) (b : Byte) :
    (Memory.ofBytes bs).write bs.length b = Memory.ofBytes (bs ++ [b]) := by
  apply Memory.ext_of_wf (Memory.write_wf (Memory.ofBytes_wf _) _ _) (Memory.ofBytes_wf _)
  intro a
  rw [Memory.read_write, Memory.read_ofBytes, Memory.read_ofBytes, List.getElem?_append]
  split
  · rename_i h; simp [h]
  · rename_i h
    split
    · rfl
    · rename_i h'
      rw [List.getElem?_eq_none (by omega), List.getElem?_eq_none (by simp; omega)]

theorem appendCopy_length (dist n : Nat) {out : List Byte} (h1 : 1 ≤ dist) (h2 : dist ≤ out.length) :
    (appendCopy dist n out).length = out.length + n := by
  induction n generalizing out with
  | zero => rfl
  | succ n ih =>
    have hl : (out ++ (out.drop (out.length - dist)).take 1).length = out.length + 1 := by
      simp; omega
    rw [appendCopy, ih (by omega), hl]
    omega

/-- The copy loop over a destination that is a byte list appends the bytes `dist` behind, one at a time
(20_memory.md R75). -/
theorem copyLoop_appendCopy {dist n : Nat} {s : State} {out : List Byte} (h1 : 1 ≤ dist)
    (h2 : dist ≤ out.length) (hd : s.dst = Memory.ofBytes out) (hw : s.dec.wp = out.length)
    (hc : s.dec.csrc = out.length - dist) (hn : out.length + n ≤ s.dec.dlen.toNat) :
    ∃ t, copyLoop n s = .next t ∧ t.dst = Memory.ofBytes (appendCopy dist n out) := by
  induction n generalizing s out with
  | zero => exact ⟨s, rfl, hd⟩
  | succ n ih =>
    have hlt : out.length - dist < out.length := by omega
    have hb : s.dst.read s.dec.csrc = some out[out.length - dist] := by
      rw [hd, hc, Memory.read_ofBytes, List.getElem?_eq_getElem hlt]
    have ht : (out.drop (out.length - dist)).take 1 = [out[out.length - dist]] := by
      rw [List.drop_eq_getElem_cons hlt]
      rfl
    obtain ⟨t, h, hr⟩ := ih (s := { s.putDst out[out.length - dist] with dec.csrc := s.dec.csrc + 1 })
      (out := out ++ [out[out.length - dist]]) (by simp; omega)
      (by simp only [State.putDst]; rw [hd, hw, Memory.write_ofBytes_end]) (by simp [State.putDst, hw])
      (by simp only [List.length_append, List.length_cons, List.length_nil]; omega)
      (by simp only [State.putDst, List.length_append, List.length_cons, List.length_nil]; omega)
    refine ⟨t, ?_, by rw [appendCopy, ht]; exact hr⟩
    rw [copyLoop, State.dstByte_of_read hb]
    simpa only [if_pos (show s.dec.wp < s.dec.dlen.toNat by omega)] using h

end Sys2Proof.Machine
end

