-- ==== Sys2Proof/Laws/Items.lean ====
section
/-! SUPPORT. The stream items (44_decompressor.md R205 to R213): operand values, selection, and what an
item can do. -/

namespace Sys2Proof.Machine

/-! ### Operands (30_encoding.md R98, R99) -/

theorem getLsbD_pair (n : BitVec 4) (d : BitVec 12) (i : Nat) :
    BitVec.getLsbD (w := 16) (n ++ d) i = if i < 12 then d.getLsbD i else n.getLsbD (i - 12) :=
  BitVec.getLsbD_append

theorem pairNibble_append (n : BitVec 4) (d : BitVec 12) : pairNibble (n ++ d) = n := by
  unfold pairNibble
  ext i hi
  simp [getLsbD_pair, BitVec.getLsbD_eq_getElem hi]

theorem pairDistance_append (n : BitVec 4) (d : BitVec 12) : pairDistance (n ++ d) = d := by
  unfold pairDistance
  ext i hi
  simp [getLsbD_pair, hi]

/-- A pair is its two fields. -/
theorem append_pairFields (pair : BitVec 16) : pairNibble pair ++ pairDistance pair = pair := by
  unfold pairNibble pairDistance
  ext i hi
  simp only [BitVec.getElem_append]
  split
  · simp [BitVec.getLsbD_eq_getElem hi]
  · rename_i h
    simp [show 12 + (i - 12) = i by omega, BitVec.getLsbD_eq_getElem hi]

theorem distOf_toNat (n : BitVec 4) (d : BitVec 12) : (distOf (n ++ d)).toNat = d.toNat + 1 := by
  have := d.isLt
  simp only [distOf, pairDistance_append, BitVec.toNat_add, BitVec.toNat_setWidth, BitVec.toNat_ofNat]
  omega

theorem shortLen_toNat (n : BitVec 4) : (shortLen n).toNat = n.toNat + 2 := by
  have := n.isLt
  simp only [shortLen, BitVec.toNat_add, BitVec.toNat_setWidth, BitVec.toNat_ofNat]
  omega

theorem longLen_toNat (e : BitVec 8) : (longLen e).toNat = e.toNat + 18 := by
  have := e.isLt
  simp only [longLen, BitVec.toNat_add, BitVec.toNat_setWidth, BitVec.toNat_ofNat]
  omega

theorem State.loadShort_dist (s : State) (n : BitVec 4) (d : BitVec 12) :
    (s.loadShort n d).dec.dist.toNat = d.toNat + 1 := distOf_toNat n d

theorem State.loadShort_len (s : State) (n : BitVec 4) (d : BitVec 12) :
    (s.loadShort n d).dec.len.toNat = n.toNat + 2 := shortLen_toNat n

theorem State.loadLong_dist (s : State) (d : BitVec 12) (e : Byte) :
    (s.loadLong d e).dec.dist.toNat = d.toNat + 1 := distOf_toNat 0#4 d

theorem State.loadLong_len (s : State) (d : BitVec 12) (e : Byte) :
    (s.loadLong d e).dec.len.toNat = e.toNat + 18 := longLen_toNat e

/-! ### Selection (R204, R206) -/

/-- A selected item runs. -/
theorem selected_eq {c : Ctx} {s : State} (run : State → Result) (h1 : s.replaying = true)
    (h2 : s.dec.wp < s.dec.dlen.toNat) (h3 : s.itemCtx = c) : selected c s run = run s := by
  simp [selected, h1, h2, h3]

/-- An item answers a next state only where it is selected. -/
theorem selected_next {c : Ctx} {s t : State} {run : State → Result}
    (h : selected c s run = .next t) :
    s.replaying = true ∧ s.dec.wp < s.dec.dlen.toNat ∧ s.itemCtx = c ∧ run s = .next t := by
  unfold selected at h
  split at h
  · split at h
    · rename_i h1 h2
      exact ⟨h1, h2.1, h2.2, h⟩
    · cases h
  · cases h

/-- The three item contexts by the decoder state. -/
theorem State.itemCtx_flag_iff (s : State) : s.itemCtx = .flag ↔ s.dec.cnt = 0 := by
  unfold State.itemCtx
  split
  · simp_all
  · split <;> simp_all

theorem State.itemCtx_literal_iff (s : State) :
    s.itemCtx = .literal ↔ s.dec.cnt ≠ 0 ∧ s.dec.flag.getLsbD 7 = true := by
  unfold State.itemCtx flagIsLiteral
  split
  · simp_all
  · split <;> simp_all

theorem State.itemCtx_reference_iff (s : State) :
    s.itemCtx = .reference ↔ s.dec.cnt ≠ 0 ∧ s.dec.flag.getLsbD 7 = false := by
  unfold State.itemCtx flagIsLiteral
  split
  · simp_all
  · split <;> simp_all

/-- The decoder selects an item, never a header record. -/
theorem State.itemCtx_ne_header (s : State) : s.itemCtx ≠ .header := by
  unfold State.itemCtx
  split
  · simp
  · split <;> simp

theorem awaitsReference.ctx {s : State} (h : awaitsReference s) : s.itemCtx = .reference :=
  (State.itemCtx_reference_iff s).2 ⟨Nat.pos_iff_ne_zero.1 h.2.2.1, h.2.2.2⟩

/-! ### Validate, then copy (R211, R212, R213) -/

theorem State.copyInBounds_iff (s : State) : s.copyInBounds = true ↔
    s.dec.dist.toNat ≤ s.dec.wp ∧ s.dec.wp + s.dec.len.toNat ≤ s.dec.dlen.toNat := by
  simp [State.copyInBounds]

/-- A match inside the destination copies, and the flag moves on. -/
theorem validateAndCopy_inside {s : State} (h1 : 1 ≤ s.dec.dist.toNat)
    (h2 : s.dec.dist.toNat ≤ s.dec.wp) (h3 : s.dec.wp + s.dec.len.toNat ≤ s.dec.dlen.toNat)
    (h4 : sourceWritten s s.dec.dist.toNat) :
    ∃ t, validateAndCopy s = .next t ∧ copiedBehind s t s.dec.dist.toNat s.dec.len.toNat ∧
      t = { s with
        dst := t.dst, dec.wp := s.dec.wp + s.dec.len.toNat,
        dec.csrc := s.dec.wp - s.dec.dist.toNat + s.dec.len.toNat,
        dec.flag := s.dec.flag <<< 1, dec.cnt := s.dec.cnt - 1 } := by
  obtain ⟨t, ht, hc, he⟩ := copyMatch_closed h1 h2 h3 h4
  refine ⟨t.chunkDone, ?_, hc, by rw [he]; rfl⟩
  simp [validateAndCopy, (State.copyInBounds_iff s).2 ⟨h2, h3⟩, ht]

/-- A match outside the destination faults in checked mode and is refused in trusted mode. -/
theorem validateAndCopy_outside {s : State}
    (h : s.dec.wp < s.dec.dist.toNat ∨ s.dec.dlen.toNat < s.dec.wp + s.dec.len.toNat) :
    validateAndCopy s = match s.mode with
      | .checked => .next (s.takeFault .corruptCopy)
      | .trusted => .refused .trustedMalformed := by
  have hf : ¬s.copyInBounds = true := fun hb => by
    have := (State.copyInBounds_iff s).1 hb; omega
  cases hm : s.mode <;> simp [validateAndCopy, hf, hm]

/-- Everything validate-and-copy can do when it answers a next state. -/
theorem validateAndCopy_next {s t : State} (h : validateAndCopy s = .next t) :
    (s.copyInBounds = true ∧
      t = { s with
        dst := t.dst, dec.wp := s.dec.wp + s.dec.len.toNat,
        dec.csrc := s.dec.wp - s.dec.dist.toNat + s.dec.len.toNat,
        dec.flag := s.dec.flag <<< 1, dec.cnt := s.dec.cnt - 1 } ∧
      (s.dst.wf → t.dst.wf) ∧ (s.dst.holds s.dec.wp → t.dst.holds (s.dec.wp + s.dec.len.toNat))) ∨
    (s.copyInBounds = false ∧ s.mode = .checked ∧ t = s.takeFault .corruptCopy) := by
  unfold validateAndCopy at h
  split at h
  · rename_i hb
    obtain ⟨u, hu, ht⟩ := (andThen_eq_next_iff _ _ _).1 h
    obtain ⟨-, he, hw, hh⟩ := copyMatch_next hu
    obtain rfl := (Host.Outcome.next.inj ht)
    exact .inl ⟨hb, by rw [he]; rfl, hw, hh⟩
  · rename_i hb
    split at h
    · rename_i hm
      exact .inr ⟨by simpa using hb, hm, (Host.Outcome.next.inj h).symm⟩
    · cases h

end Sys2Proof.Machine
end

