-- ==== Sys2Proof/Laws/Fetch.lean ====
section
/-! SUPPORT. Fetching: what the decoder makes of bytes (30_encoding.md), the header read (41_header_codec.md
R140) and the fetch of one stream item (44_decompressor.md R216). -/

namespace Sys2Proof.Machine

/-! ### Field packing (20_memory.md R61) -/

@[simp] theorem bytes16_be16 (b0 b1 : Byte) : bytes16 (be16 b0 b1) = [b0, b1] := by
  have h0 : (be16 b0 b1).extractLsb' 8 8 = b0 := by
    apply BitVec.eq_of_toNat_eq
    have h1 := b1.isLt
    have h2 := b0.isLt
    simp only [BitVec.extractLsb'_toNat, be16_toNat, Nat.shiftRight_eq_div_pow]
    omega
  have h1 : (be16 b0 b1).extractLsb' 0 8 = b1 := by
    apply BitVec.eq_of_toNat_eq
    have h1 := b1.isLt
    simp only [BitVec.extractLsb'_toNat, be16_toNat, Nat.shiftRight_eq_div_pow]
    omega
  simp [bytes16, h0, h1]

@[simp] theorem be16_bytes16 (v : BitVec 16) :
    be16 (v.extractLsb' 8 8) (v.extractLsb' 0 8) = v := by
  apply BitVec.eq_of_toNat_eq
  have := v.isLt
  simp only [be16_toNat, BitVec.extractLsb'_toNat, Nat.shiftRight_eq_div_pow]
  omega

@[simp] theorem bytes32_be32 (b0 b1 b2 b3 : Byte) :
    bytes32 (be32 b0 b1 b2 b3) = [b0, b1, b2, b3] := by
  have h0 := b0.isLt
  have h1 := b1.isLt
  have h2 := b2.isLt
  have h3 := b3.isLt
  have e0 : (be32 b0 b1 b2 b3).extractLsb' 24 8 = b0 := by
    apply BitVec.eq_of_toNat_eq
    simp only [BitVec.extractLsb'_toNat, be32_toNat, Nat.shiftRight_eq_div_pow]; omega
  have e1 : (be32 b0 b1 b2 b3).extractLsb' 16 8 = b1 := by
    apply BitVec.eq_of_toNat_eq
    simp only [BitVec.extractLsb'_toNat, be32_toNat, Nat.shiftRight_eq_div_pow]; omega
  have e2 : (be32 b0 b1 b2 b3).extractLsb' 8 8 = b2 := by
    apply BitVec.eq_of_toNat_eq
    simp only [BitVec.extractLsb'_toNat, be32_toNat, Nat.shiftRight_eq_div_pow]; omega
  have e3 : (be32 b0 b1 b2 b3).extractLsb' 0 8 = b3 := by
    apply BitVec.eq_of_toNat_eq
    simp only [BitVec.extractLsb'_toNat, be32_toNat, Nat.shiftRight_eq_div_pow]; omega
  simp [bytes32, e0, e1, e2, e3]

/-! ### The header record (R91, R145) -/

/-- A header is accepted exactly when the bytes are those of a header record and what follows it. -/
theorem decodeHeader_eq_ok {p : Config.Params} {bs rest : List Byte} {i : Instr}
    (h : decodeHeader p bs = .ok i rest) :
    ∃ size align r, i = .hdr size align r ∧ r.length = p.reservedLen ∧
      bs = encode (.hdr size align r) ++ rest := by
  unfold decodeHeader at h
  split at h
  · rename_i m0 m1 m2 m3 s0 s1 s2 s3 a0 a1 a2 a3 tail
    split at h
    · cases h
    · rename_i hl
      split at h
      · rename_i hm
        injection h with h1 h2
        subst h1 h2
        refine ⟨_, _, _, rfl, by simp at hl ⊢; omega, ?_⟩
        simp only [encode]
        rw [← hm]
        simp [List.take_append_drop]
      · cases h
  · cases h

/-- The bytes of a header record are accepted. -/
theorem decodeHeader_encode {p : Config.Params} (size align : BitVec 32) {r : List Byte}
    (rest : List Byte) (hr : r.length = p.reservedLen) :
    decodeHeader p (encode (.hdr size align r) ++ rest) = .ok (.hdr size align r) rest := by
  simp only [encode, bytes32, List.cons_append, List.nil_append, decodeHeader,
    be32_bytes32, List.length_append]
  rw [if_neg (by simp; omega), if_pos trivial]
  simp [← hr]

/-- A header is accepted or rejected, and what is accepted is a header record. -/
theorem decodeHeader_cases (p : Config.Params) (bs : List Byte) :
    (∃ size align r rest, decodeHeader p bs = .ok (.hdr size align r) rest ∧
      r.length = p.reservedLen ∧ bs = encode (.hdr size align r) ++ rest) ∨
    ∃ why, decodeHeader p bs = .rejected why := by
  cases h : decodeHeader p bs with
  | ok i rest =>
    obtain ⟨size, align, r, rfl, hr, hb⟩ := decodeHeader_eq_ok h
    exact .inl ⟨size, align, r, rest, rfl, hr, hb⟩
  | rejected why => exact .inr ⟨why, rfl⟩

/-- Acceptance by the two tests of R140: `HEADER_SIZE` bytes, and the magic. -/
theorem decodeHeader_rejected_iff (p : Config.Params) (bs : List Byte) :
    (∃ why, decodeHeader p bs = .rejected why) ↔
      bs.length < p.headerSize ∨ bs.take 4 ≠ [0x59#8, 0x61#8, 0x7A#8, 0x30#8] := by
  have hmagic : bytes32 Config.magic = [0x59#8, 0x61#8, 0x7A#8, 0x30#8] := by decide
  constructor
  · rintro ⟨why, h⟩
    by_contra hc
    push Not at hc
    obtain ⟨hl, hm⟩ := hc
    match bs, hl with
    | m0 :: m1 :: m2 :: m3 :: s0 :: s1 :: s2 :: s3 :: a0 :: a1 :: a2 :: a3 :: tail, hl =>
      simp only [List.take_succ_cons, List.take_zero, List.cons.injEq, and_true] at hm
      obtain ⟨rfl, rfl, rfl, rfl⟩ := hm
      have hk : ¬tail.length < p.reservedLen := by
        simp only [List.length_cons, Config.Params.headerSize] at hl; omega
      simp [decodeHeader, hk, show be32 0x59#8 0x61#8 0x7A#8 0x30#8 = 0x59617A30#32 from by decide] at h
    | [], hl | [_], hl | [_, _], hl | [_, _, _], hl | [_, _, _, _], hl | [_, _, _, _, _], hl
    | [_, _, _, _, _, _], hl | [_, _, _, _, _, _, _], hl | [_, _, _, _, _, _, _, _], hl
    | [_, _, _, _, _, _, _, _, _], hl | [_, _, _, _, _, _, _, _, _, _], hl
    | [_, _, _, _, _, _, _, _, _, _, _], hl =>
      simp only [List.length_cons, List.length_nil, Config.Params.headerSize] at hl
      omega
  · intro hc
    rcases decodeHeader_cases p bs with ⟨size, align, r, rest, -, hr, hb⟩ | h
    · subst hb
      rcases hc with hc | hc
      · simp only [List.length_append, encode_hdr_length, Config.Params.headerSize] at hc
        omega
      · exact absurd (by simp [encode, hmagic]) hc
    · exact h

/-- The header read over a whole buffer (R140). -/
theorem readHeader_cases {s : State} (hw : (s.bufMem s.rd.buf).holds s.rd.len)
    (found absent : State → Result) :
    (∃ size align r rest, decode s.params .header s.headerWindow = .ok (.hdr size align r) rest ∧
      r.length = s.params.reservedLen ∧ s.headerWindow = encode (.hdr size align r) ++ rest ∧
      readHeader found absent s =
        found (s.loadHeader size align r)) ∨
    ((∃ why, decode s.params .header s.headerWindow = .rejected why) ∧
      ∃ k, k ≤ min s.params.headerSize (s.rd.len - s.rd.pos) ∧
        readHeader found absent s = absent (s.advance k)) := by
  have hlen : s.headerWindow.length = min s.params.headerSize (s.rd.len - s.rd.pos) := by
    by_cases hp : s.rd.pos ≤ s.rd.len
    · exact Memory.readUpTo_holds_length hw (by omega)
    · have h0 : min s.params.headerSize (s.rd.len - s.rd.pos) = 0 := by omega
      simp [State.headerWindow, h0, Memory.readUpTo]
  rcases decodeHeader_cases s.params s.headerWindow with ⟨size, align, r, rest, h, hr, hb⟩ | ⟨why, h⟩
  · exact .inl ⟨size, align, r, rest, h, hr, hb, by simp [readHeader, decode, h, execHdr]⟩
  · refine .inr ⟨⟨why, h⟩, headerReadLen s.params s.headerWindow.length, ?_, ?_⟩
    · rw [headerReadLen, hlen]; split <;> omega
    · simp [readHeader, decode, h, hlen]

/-! ### One item -/

/-- The bytes at the cursor of a whole buffer. -/
theorem State.itemWindow_length {s : State} (hw : (s.bufMem s.rd.buf).holds s.rd.len) :
    s.itemWindow.length = s.itemAvail := by
  by_cases hp : s.rd.pos ≤ s.rd.len
  · exact Memory.readUpTo_holds_length hw (by simp only [State.itemAvail]; omega)
  · have h0 : s.itemAvail = 0 := by simp only [State.itemAvail]; omega
    simp [State.itemWindow, h0, Memory.readUpTo]

/-- The four items are run by their meanings. -/
theorem runItem_eq_exec {i : Instr} {c : Ctx} (h : i.ctx = some c) (hc : c ≠ .header) (s : State) :
    runItem i s = exec i s := by
  cases i <;> simp_all [Instr.ctx, runItem, exec]

/-- What decodes in an item context is an item of that context, with its bytes in front of the rest. -/
theorem decode_item_ctx {p : Config.Params} {c : Ctx} {bs rest : List Byte} {i : Instr}
    (hc : c ≠ .header) (h : decode p c bs = .ok i rest) : i.ctx = some c ∧ bs.length = (encode i).length + rest.length := by
  cases c with
  | header => exact absurd rfl hc
  | flag =>
    cases bs <;> simp only [decode, Decoded.ok.injEq, reduceCtorEq] at h
    obtain ⟨rfl, rfl⟩ := h
    simp [Instr.ctx, encode]
    omega
  | literal =>
    cases bs <;> simp only [decode, Decoded.ok.injEq, reduceCtorEq] at h
    obtain ⟨rfl, rfl⟩ := h
    simp [Instr.ctx, encode]
    omega
  | reference =>
    simp only [decode] at h
    unfold decodeReference at h
    split at h
    · simp only at h
      split at h
      · split at h
        · injection h with h1 h2
          subst h1 h2
          simp [Instr.ctx, encode, bytes16]
          omega
        · cases h
      · injection h with h1 h2
        subst h1 h2
        simp [Instr.ctx, encode, bytes16]
        omega
    · cases h

/-- The fetch of one item (R216): the decoded item is executed, or a read ran past the end, or a byte held
no value. -/
theorem itemStep_cases (s : State) :
    (∃ i rest, decode s.params s.itemCtx s.itemWindow = .ok i rest ∧ itemStep s = exec i s) ∨
    ((∃ why, decode s.params s.itemCtx s.itemWindow = .rejected why) ∧ itemStep s = truncatedItem s) ∨
    (s.itemWindow.length < s.itemAvail ∧
      itemStep s = .fault (.noValue (bufSpace s.rd.buf))) := by
  cases h : decode s.params s.itemCtx s.itemWindow with
  | ok i rest =>
    refine .inl ⟨i, rest, rfl, ?_⟩
    simp only [itemStep, h]
    exact runItem_eq_exec (decode_item_ctx s.itemCtx_ne_header h).1 s.itemCtx_ne_header s
  | rejected why =>
    by_cases hl : s.itemWindow.length < s.itemAvail
    · exact .inr (.inr ⟨hl, by simp [itemStep, h, hl]⟩)
    · exact .inr (.inl ⟨⟨why, rfl⟩, by simp [itemStep, h, hl]⟩)

/-- A partial fetch moves the cursor and the decoder's temporaries only (R239). -/
theorem State.partialFetch_cases (s : State) :
    s.partialFetch = s ∨ ∃ b0 b1, s.itemWindow = [b0, b1] ∧ s.partialFetch = s.loadPair (be16 b0 b1) := by
  unfold State.partialFetch
  split
  · rename_i b0 b1 h1 h2
    exact .inr ⟨b0, b1, h2, rfl⟩
  · exact .inl rfl

end Sys2Proof.Machine
end

