-- ==== Sys2Proof/Laws/Replay.lean ====
section
/-! SUPPORT. The replay (44_decompressor.md R204 to R218): what one item can do to the state, that it keeps
the invariant of the replay, and what the loop can do. -/

namespace Sys2Proof.Machine

/-- Everything a stream item can do when it answers a next state. -/
theorem item_next {i : Instr} {c : Ctx} {s t : State} (hi : i.ctx = some c) (hc : c ≠ .header)
    (h : exec i s = .next t) :
    (s.replaying = true ∧ s.dec.wp < s.dec.dlen.toNat ∧ s.itemCtx = c) ∧
      ((∃ f, i = .grp f ∧ c = .flag ∧ t = s.loadFlag f) ∨
      (∃ b, i = .lit b ∧ c = .literal ∧ t = ((s.advance 1).putDst b).chunkDone) ∨
      (∃ n d, i = .ref2 n d ∧ c = .reference ∧ n ≠ 0#4 ∧
        validateAndCopy (s.loadShort n d) = .next t) ∨
      ∃ d e, i = .ref3 d e ∧ c = .reference ∧ validateAndCopy (s.loadLong d e) = .next t) := by
  cases i <;> simp only [Instr.ctx, reduceCtorEq, Option.some.injEq] at hi <;> subst hi
  · rename_i f
    simp only [exec, execGrp] at h
    obtain ⟨h1, h2, h3, h4⟩ := selected_next h
    exact ⟨⟨h1, h2, h3⟩, .inl ⟨f, rfl, rfl, (Host.Outcome.next.inj h4).symm⟩⟩
  · rename_i b
    simp only [exec, execLit] at h
    obtain ⟨h1, h2, h3, h4⟩ := selected_next h
    exact ⟨⟨h1, h2, h3⟩, .inr (.inl ⟨b, rfl, rfl, (Host.Outcome.next.inj h4).symm⟩)⟩
  · rename_i n d
    simp only [exec, execRef2] at h
    split at h
    · cases h
    · rename_i hn
      obtain ⟨h1, h2, h3, h4⟩ := selected_next h
      exact ⟨⟨h1, h2, h3⟩, .inr (.inr (.inl ⟨n, d, rfl, rfl, hn, h4⟩))⟩
  · rename_i d e
    simp only [exec, execRef3] at h
    obtain ⟨h1, h2, h3, h4⟩ := selected_next h
    exact ⟨⟨h1, h2, h3⟩, .inr (.inr (.inr ⟨d, e, rfl, rfl, h4⟩))⟩
  · exact absurd rfl hc

/-- What a match item does when it answers a next state, whichever of the two it is: the copy of `len`
bytes, or CorruptCopy. -/
theorem match_next {u t : State} (h : validateAndCopy u = .next t) :
    (u.copyInBounds = true ∧ t.phase = u.phase ∧ t.rd = u.rd ∧ t.mode = u.mode ∧
      t.dec.wp = u.dec.wp + u.dec.len.toNat ∧ t.dec.dlen = u.dec.dlen ∧
      t.dec.cnt = u.dec.cnt - 1 ∧ t.dec.flag = u.dec.flag <<< 1 ∧
      u.dec.wp + u.dec.len.toNat ≤ u.dec.dlen.toNat ∧ t.dstSpoiled = u.dstSpoiled ∧
      (u.dst.wf → t.dst.wf) ∧ (u.dst.holds u.dec.wp → t.dst.holds t.dec.wp) ∧
      t.stream = u.stream ∧ t.streamLen = u.streamLen ∧ t.src = u.src ∧ t.out = u.out ∧
      t.ht = u.ht ∧ t.enc = u.enc ∧ t.hdr = u.hdr ∧ t.cmd = u.cmd ∧ t.cmdPending = u.cmdPending ∧
      t.ret = u.ret ∧ t.status = u.status ∧ t.res = u.res ∧ t.params = u.params) ∨
    (u.copyInBounds = false ∧ u.mode = .checked ∧ t = u.takeFault .corruptCopy) := by
  rcases validateAndCopy_next h with ⟨hb, he, hw, hh⟩ | hf
  · refine .inl ⟨hb, ?_⟩
    have hin := (State.copyInBounds_iff u).1 hb
    have hwp : t.dec.wp = u.dec.wp + u.dec.len.toNat := by rw [he]
    refine ⟨by rw [he], by rw [he], by rw [he], hwp, by rw [he], by rw [he], by rw [he], hin.2,
      by rw [he], hw, fun hu => by rw [hwp]; exact hh hu, ?_⟩
    rw [he]
    simp
  · exact .inr hf

/-- An item that answers a next state with the replay still on keeps the replay's invariant; it writes a
byte or more, or it was a GRP. -/
theorem item_keeps_replayInv {i : Instr} {c : Ctx} {form : DecForm} {s t : State}
    (hi : i.ctx = some c) (hc : c ≠ .header) (hp : s.phase = .replay form) (hv : ReplayInv form s)
    (hr : s.rd.pos + (encode i).length ≤ s.rd.len) (h : exec i s = .next t) :
    (t.phase = .replay form ∧ ReplayInv form t ∧ t.status = s.status ∧ t.dec.dlen = s.dec.dlen ∧
      t.mode = s.mode ∧
      ((c = .flag ∧ t.dec.cnt = 8 ∧ t.dec.wp = s.dec.wp) ∨
        (c ≠ .flag ∧ t.dec.cnt = s.dec.cnt - 1 ∧ s.dec.wp < t.dec.wp))) ∨
    (t.phase = .idle ∧ s.mode = .checked ∧ t.status = ⟨.faulted, some .corruptCopy⟩) := by
  obtain ⟨⟨h1, h2, h3⟩, h4⟩ := item_next hi hc h
  rcases h4 with ⟨f, rfl, rfl, rfl⟩ | ⟨b, rfl, rfl, rfl⟩ | ⟨n, d, rfl, rfl, hn, h4⟩ | ⟨d, e, rfl, rfl, h4⟩
  · refine .inl ⟨hp, ?_, rfl, rfl, rfl, .inl ⟨rfl, rfl, rfl⟩⟩
    exact ⟨⟨hv.buf, hv.endian, hv.len, hr, hv.whole⟩, hv.wp, hv.written, hv.fresh,
      Nat.le_succ_of_le hv.body, hv.mode⟩
  · refine .inl ⟨hp, ?_, rfl, rfl, rfl, .inr ⟨by simp, rfl, by simp⟩⟩
    exact ⟨⟨hv.buf, hv.endian, hv.len, hr, hv.whole⟩, h2, Memory.holds_write_end hv.written b,
      hv.fresh, Nat.le_succ_of_le hv.body, hv.mode⟩
  · rcases match_next h4 with ⟨-, m1, m2, m3, m4, m5, m6, -, m7, m8, -, m9, m10, m11, -, -, -, -, -, -, -, -, m12, -, m13⟩ | ⟨-, hm, rfl⟩
    · have hr' : s.rd.pos + 2 ≤ s.rd.len := hr
      refine .inl ⟨m1.trans hp, ?_, m12, m5, m3, .inr ⟨by simp, m6, ?_⟩⟩
      · exact ⟨⟨by rw [m2]; exact hv.buf, by rw [m2]; exact hv.endian,
          by rw [m2, m11]; exact hv.len, by rw [m2]; exact hr', by rw [m10, m11]; exact hv.whole⟩,
          by rw [m4, m5]; exact m7, m9 hv.written, m8.trans hv.fresh,
          by rw [m2, m13]; exact Nat.le_add_right_of_le hv.body, m3.trans hv.mode⟩
      · rw [m4, State.loadShort_len]; simp only [State.loadShort_dec_wp]; omega
    · exact .inr ⟨rfl, hm, rfl⟩
  · rcases match_next h4 with ⟨-, m1, m2, m3, m4, m5, m6, -, m7, m8, -, m9, m10, m11, -, -, -, -, -, -, -, -, m12, -, m13⟩ | ⟨-, hm, rfl⟩
    · have hr' : s.rd.pos + 2 + 1 ≤ s.rd.len := hr
      refine .inl ⟨m1.trans hp, ?_, m12, m5, m3, .inr ⟨by simp, m6, ?_⟩⟩
      · exact ⟨⟨by rw [m2]; exact hv.buf, by rw [m2]; exact hv.endian,
          by rw [m2, m11]; exact hv.len, by rw [m2]; exact hr', by rw [m10, m11]; exact hv.whole⟩,
          by rw [m4, m5]; exact m7, m9 hv.written, m8.trans hv.fresh,
          by rw [m2, m13]; exact Nat.le_add_right_of_le (Nat.le_add_right_of_le hv.body), m3.trans hv.mode⟩
      · rw [m4, State.loadLong_len]; simp only [State.loadLong_dec_wp]; omega
    · exact .inr ⟨rfl, hm, rfl⟩

/-- A match inside the invariant of the replay never stops with a fault of the model. -/
theorem validateAndCopy_no_fault {u : State} {r : Fault} (h1 : 1 ≤ u.dec.dist.toNat)
    (hw : u.dst.holds u.dec.wp) : validateAndCopy u ≠ .fault r := by
  by_cases hb : u.dec.dist.toNat ≤ u.dec.wp ∧ u.dec.wp + u.dec.len.toNat ≤ u.dec.dlen.toNat
  · obtain ⟨t, ht, -⟩ := validateAndCopy_inside h1 hb.1 hb.2
      (fun a _ ha => (Memory.holds_isSome_iff hw a).2 ha)
    rw [ht]
    simp
  · rw [validateAndCopy_outside (by omega)]
    cases u.mode <;> simp

/-- An item never stops with a fault of the model where exactly `DST[0..WP)` is written. -/
theorem item_no_fault {i : Instr} {c : Ctx} {s : State} {r : Fault} (hi : i.ctx = some c)
    (hc : c ≠ .header) (hw : s.dst.holds s.dec.wp) : exec i s ≠ .fault r := by
  cases i <;> simp only [Instr.ctx, reduceCtorEq, Option.some.injEq] at hi <;> subst hi
  · simp only [exec, execGrp, selected]
    split
    · split <;> simp
    · simp
  · simp only [exec, execLit, selected]
    split
    · split <;> simp
    · simp
  · rename_i n d
    simp only [exec, execRef2, selected]
    split
    · simp
    · split
      · split
        · exact validateAndCopy_no_fault (by rw [State.loadShort_dist]; omega) hw
        · simp
      · simp
  · rename_i d e
    simp only [exec, execRef3, selected]
    split
    · split
      · exact validateAndCopy_no_fault (by rw [State.loadLong_dist]; omega) hw
      · simp
    · simp
  · exact absurd rfl hc

/-- The item the decoder selects lies within the reader. -/
theorem itemWindow_item {s : State} {i : Instr} {rest : List Byte} (hp : s.rd.pos ≤ s.rd.len)
    (h : decode s.params s.itemCtx s.itemWindow = .ok i rest) :
    i.ctx = some s.itemCtx ∧ s.rd.pos + (encode i).length ≤ s.rd.len := by
  obtain ⟨h1, h2⟩ := decode_item_ctx s.itemCtx_ne_header h
  have hl : s.itemWindow.length ≤ s.itemAvail := Memory.readUpTo_length_le _ _ _
  exact ⟨h1, by simp only [State.itemAvail] at hl; omega⟩

/-- The replay loop, one item unrolled. -/
theorem replayLoop_succ (n : Nat) (s : State) :
    replayLoop (n + 1) s =
      if s.replaying = true ∧ s.dec.wp < s.dec.dlen.toNat then andThen (itemStep s) (replayLoop n)
      else .next s := rfl

/-- A replay that is over, or has filled its destination, is left alone. -/
theorem replayLoop_done {n : Nat} {s : State}
    (h : ¬(s.replaying = true ∧ s.dec.wp < s.dec.dlen.toNat)) : replayLoop n s = .next s := by
  cases n <;> simp only [replayLoop, if_neg h]

end Sys2Proof.Machine
end

