-- ==== Sys2Proof/Laws/Chunks.lean ====
section
/-! SUPPORT. The replay over a stream that is a chunk list (30_encoding.md R90, R92): one chunk, one flag byte,
and the loop. -/

namespace Sys2Proof.Machine

/-- A replay that has written `out` and has `rest` left of its stream. -/
structure Standing (s : State) (out rest : List Byte) : Prop where
  on : s.replaying = true
  buf : s.rd.buf = .stream
  stream : ∃ pre, s.stream = Memory.ofBytes (pre ++ rest) ∧ s.rd.pos = pre.length ∧
    s.rd.len = (pre ++ rest).length
  dst : s.dst = Memory.ofBytes out
  wp : s.dec.wp = out.length

/-- Nothing but the destination, the cursor and the decoder's registers has changed, `DLEN` not. -/
def Progress (s t : State) : Prop :=
  t = { s with dst := t.dst, rd.pos := t.rd.pos, dec := t.dec } ∧ t.dec.dlen = s.dec.dlen

theorem Progress.refl (s : State) : Progress s s := ⟨rfl, rfl⟩

theorem Progress.trans {s t u : State} (h : Progress s t) (h' : Progress t u) : Progress s u := by
  refine ⟨?_, h'.2.trans h.2⟩
  rw [h'.1, h.1]

theorem Standing.window {s : State} {out rest : List Byte} (h : Standing s out rest) :
    s.itemWindow = rest.take 3 := by
  obtain ⟨pre, h1, h2, h3⟩ := h.stream
  simp [State.itemWindow, State.itemAvail, h.buf, h1, h2, h3, Memory.readUpTo_ofBytes]

/-- What an item's bytes at the cursor decode to. -/
theorem decode_take_encode {p : Config.Params} {i : Instr} {c : Ctx} (hi : i.ctx = some c)
    (hc : c ≠ .header) (hw : i.wellFormed p = true) (rest : List Byte) :
    ∃ r, decode p c ((encode i ++ rest).take 3) = .ok i r := by
  cases i <;> simp only [Instr.ctx, reduceCtorEq, Option.some.injEq] at hi <;> subst hi
  · exact ⟨_, rfl⟩
  · exact ⟨_, rfl⟩
  · rename_i n d
    have hn : n ≠ 0#4 := by simpa [Instr.wellFormed] using hw
    refine ⟨rest.take 1, ?_⟩
    simp [encode, bytes16, decode, decodeReference, pairNibble_append, pairDistance_append, hn]
  · rename_i d e
    refine ⟨[], ?_⟩
    simp [encode, bytes16, decode, decodeReference, pairNibble_append, pairDistance_append]
  · exact absurd rfl hc

/-- The step of an item whose bytes are next is its execution. -/
theorem Standing.itemStep {s : State} {out rest : List Byte} {i : Instr}
    (h : Standing s out (encode i ++ rest)) (hi : i.ctx = some s.itemCtx)
    (hw : i.wellFormed s.params = true) : itemStep s = exec i s := by
  obtain ⟨r, hr⟩ := decode_take_encode hi s.itemCtx_ne_header hw rest
  rw [← h.window] at hr
  rcases itemStep_cases s with ⟨j, r', h1, h2⟩ | ⟨⟨w, h1⟩, -⟩ | ⟨h1, -⟩
  · rw [hr] at h1
    cases h1
    exact h2
  · rw [hr] at h1
    cases h1
  · simp only [Machine.itemStep, hr]
    exact runItem_eq_exec hi s.itemCtx_ne_header s

/-- The rest of the stream after an item. -/
theorem Standing.advance {s t : State} {out out' bs rest : List Byte} (h : Standing s out (bs ++ rest))
    (ht : t.replaying = true) (hs : t.stream = s.stream)
    (hr : t.rd = { s.rd with pos := s.rd.pos + bs.length }) (hd : t.dst = Memory.ofBytes out')
    (hw : t.dec.wp = out'.length) : Standing t out' rest := by
  obtain ⟨pre, h1, h2, h3⟩ := h.stream
  refine ⟨ht, by rw [hr]; exact h.buf, ⟨pre ++ bs, ?_, ?_, ?_⟩, hd, hw⟩
  · rw [hs, h1, List.append_assoc]
  · rw [hr]; simp [h2]
  · rw [hr, List.append_assoc]; exact h3

/-- One flag byte (R205). -/
theorem Standing.flag {s : State} {out rest : List Byte} {f : Byte} (h : Standing s out (f :: rest))
    (hc : s.dec.cnt = 0) (hw : s.dec.wp < s.dec.dlen.toNat) :
    Machine.itemStep s = .next (s.loadFlag f) ∧ Standing (s.loadFlag f) out rest ∧
      Progress s (s.loadFlag f) := by
  have hx : s.itemCtx = .flag := (State.itemCtx_flag_iff s).2 hc
  have h' : Standing s out (encode (.grp f) ++ rest) := h
  refine ⟨?_, ?_, rfl, rfl⟩
  · rw [h'.itemStep (by rw [hx]; rfl) rfl, exec, execGrp, selected_eq _ h.on hw hx]
  · exact h'.advance h.on rfl rfl h.dst h.wp

/-- One chunk (R207 to R213). -/
theorem Standing.chunk {s : State} {out rest : List Byte} {c : Chunk}
    (h : Standing s out (encode c.instr ++ rest)) (hc : s.dec.cnt ≠ 0)
    (hf : s.dec.flag.getLsbD 7 = (match c with | .lit _ => true | .ref _ _ => false))
    (hl : c.legal out.length s.dec.dlen.toNat = true) :
    ∃ t, Machine.itemStep s = .next t ∧ Standing t (c.apply out) rest ∧ Progress s t ∧
      t.dec.cnt = s.dec.cnt - 1 ∧ t.dec.flag = s.dec.flag <<< 1 ∧
      (c.apply out).length = out.length + c.size := by
  cases c with
  | lit b =>
    have hx : s.itemCtx = .literal := (State.itemCtx_literal_iff s).2 ⟨hc, hf⟩
    have hw : s.dec.wp < s.dec.dlen.toNat := by
      rw [h.wp]; simpa [Chunk.legal] using hl
    refine ⟨((s.advance 1).putDst b).chunkDone, ?_, ?_, ⟨rfl, rfl⟩, rfl, rfl, by simp [Chunk.apply, Chunk.size]⟩
    · rw [h.itemStep (by rw [hx]; rfl) rfl, Chunk.instr, exec, execLit, selected_eq _ h.on hw hx]
    · refine h.advance h.on rfl rfl ?_ ?_
      · simp only [State.chunkDone_dst, State.putDst_dst, State.advance_dst, State.advance_dec]
        rw [h.dst, h.wp, Memory.write_ofBytes_end]
        rfl
      · simp [h.wp, Chunk.apply]
  | ref dist len =>
    have hx : s.itemCtx = .reference := (State.itemCtx_reference_iff s).2 ⟨hc, hf⟩
    obtain ⟨l1, l2, l3, l4, l5, l6⟩ : 1 ≤ dist ∧ dist ≤ 4096 ∧ 3 ≤ len ∧ len ≤ 273 ∧
        dist ≤ out.length ∧ out.length + len ≤ s.dec.dlen.toNat := by
      simpa [Chunk.legal] using hl
    have hw : s.dec.wp < s.dec.dlen.toNat := by rw [h.wp]; omega
    -- what both forms do once their operands are loaded
    have run : ∀ u : State, u.dec.dist.toNat = dist → u.dec.len.toNat = len →
        u = { s with rd.pos := u.rd.pos, dec := u.dec } →
        u.rd.pos = s.rd.pos + (encode (Chunk.ref dist len).instr).length →
        u.dec.wp = s.dec.wp → u.dec.dlen = s.dec.dlen → u.dec.cnt = s.dec.cnt →
        u.dec.flag = s.dec.flag →
        ∃ t, validateAndCopy u = .next t ∧ Standing t (appendCopy dist len out) rest ∧ Progress s t ∧
          t.dec.cnt = s.dec.cnt - 1 ∧ t.dec.flag = s.dec.flag <<< 1 := by
      intro u hd hn hu hp hwp hdl hcnt hflag
      have hdst : u.dst = Memory.ofBytes out := by rw [hu]; exact h.dst
      obtain ⟨v, hv, hvd⟩ := copyLoop_appendCopy (n := len)
        (s := { u with dec.csrc := u.dec.wp - u.dec.dist.toNat }) l1 l5 hdst
        (by simp only; rw [hwp, h.wp]) (by simp only; rw [hwp, h.wp, hd]) (by simp only; rw [hdl]; exact l6)
      have hve := (copyLoop_next hv).1
      have hin : u.copyInBounds = true := by
        rw [State.copyInBounds_iff, hd, hn, hwp, hdl, h.wp]
        exact ⟨l5, l6⟩
      refine ⟨v.chunkDone, ?_, ?_, ⟨?_, ?_⟩, ?_, ?_⟩
      · rw [validateAndCopy, if_pos hin, copyMatch, if_pos (by rw [hd, hwp, h.wp]; exact l5), hn, hv]
        rfl
      · refine h.advance (bs := encode (Chunk.ref dist len).instr) ?_ ?_ ?_ hvd ?_
        · rw [hve, hu]; exact h.on
        · rw [hve, hu]; rfl
        · rw [hve, hu, ← hp]; rfl
        · simp only [State.chunkDone_dec_wp]
          rw [hve, appendCopy_length _ _ l1 l5]
          simp only
          rw [hwp, h.wp]
      · rw [hve, hu]; rfl
      · rw [hve]; exact hdl
      · simp only [State.chunkDone_dec_cnt]; rw [hve]; simp only; rw [hcnt]
      · simp only [State.chunkDone_dec_flag]; rw [hve]; simp only; rw [hflag]; rfl
    have hsize : (Chunk.apply out (.ref dist len)).length = out.length + Chunk.size (.ref dist len) := by
      simp only [Chunk.apply, Chunk.size]
      exact appendCopy_length _ _ l1 l5
    by_cases hs : len < 18
    · have hi : (Chunk.ref dist len).instr =
          .ref2 (BitVec.ofNat 4 (len - 2)) (BitVec.ofNat 12 (dist - 1)) := by
        simp only [Chunk.instr]
        exact if_pos hs
      have hn : BitVec.ofNat 4 (len - 2) ≠ 0#4 := by
        intro he
        have := congrArg BitVec.toNat he
        simp only [BitVec.toNat_ofNat] at this
        omega
      obtain ⟨t, h1, h2, h3, h4, h5⟩ := run (s.loadShort (BitVec.ofNat 4 (len - 2)) (BitVec.ofNat 12 (dist - 1)))
        (by rw [State.loadShort_dist, BitVec.toNat_ofNat]; omega)
        (by rw [State.loadShort_len, BitVec.toNat_ofNat]; omega) rfl (by rw [hi]; rfl) rfl rfl rfl rfl
      refine ⟨t, ?_, h2, h3, h4, h5, hsize⟩
      rw [h.itemStep (by rw [hi, hx]; rfl) (by rw [hi]; simpa [Instr.wellFormed] using hn), hi, exec,
        execRef2, if_neg hn, selected_eq _ h.on hw hx, h1]
    · have hi : (Chunk.ref dist len).instr =
          .ref3 (BitVec.ofNat 12 (dist - 1)) (BitVec.ofNat 8 (len - 18)) := by
        simp only [Chunk.instr]
        exact if_neg hs
      obtain ⟨t, h1, h2, h3, h4, h5⟩ := run (s.loadLong (BitVec.ofNat 12 (dist - 1)) (BitVec.ofNat 8 (len - 18)))
        (by rw [State.loadLong_dist, BitVec.toNat_ofNat]; omega)
        (by rw [State.loadLong_len, BitVec.toNat_ofNat]; omega) rfl (by rw [hi]; rfl) rfl rfl rfl rfl
      refine ⟨t, ?_, h2, h3, h4, h5, hsize⟩
      rw [h.itemStep (by rw [hi, hx]; rfl) (by rw [hi]; rfl), hi, exec, execRef3,
        selected_eq _ h.on hw hx, h1]

/-! ### The loop -/

/-- The flag bit of a chunk: 1 for a literal (R93). -/
def Chunk.isLit : Chunk → Bool
  | .lit _ => true
  | .ref _ _ => false

/-- The flag byte from chunk `i` on says nothing about the chunks before. -/
theorem groupFlag_high (spare : Byte) (cs : List Chunk) (i j : Nat) (hj : 8 ≤ i + j) :
    (groupFlag spare i cs).getLsbD j = false := by
  induction cs generalizing i with
  | nil => simp [groupFlag, BitVec.getLsbD_of_ge 255#8 (i + j) hj]
  | cons c cs ih =>
    cases c with
    | lit b => simp [groupFlag, ih (i + 1) (by omega), BitVec.getLsbD_of_ge 128#8 (i + j) hj]
    | ref d l => simpa [groupFlag] using ih (i + 1) (by omega)

/-- After `k` shifts bit 7 is the flag bit of chunk `k` (R206, R213). -/
theorem groupFlag_test (spare : Byte) {k : Nat} (hk : k < 8) (c : Chunk) (cs : List Chunk) :
    (groupFlag spare k (c :: cs) <<< k).getLsbD 7 = c.isLit := by
  have hh := groupFlag_high spare cs (k + 1) (7 - k) (by omega)
  have hs : ∀ x : Byte, (x <<< k).getLsbD 7 = x.getLsbD (7 - k) := by
    intro x
    have h7 : 7 - k < 8 := by omega
    simp [show ¬7 < k by omega, BitVec.getLsbD_eq_getElem h7]
  rw [hs]
  cases c with
  | lit b => simp [groupFlag, Chunk.isLit, hh, show k + (7 - k) = 7 by omega]
  | ref d l => simpa [groupFlag, Chunk.isLit] using hh

/-- One shift more drops the flag bit of chunk `k` (R213). -/
theorem groupFlag_shift (spare : Byte) {k : Nat} (hk : k < 8) (c : Chunk) (cs : List Chunk) :
    (groupFlag spare k (c :: cs) <<< k) <<< 1 = groupFlag spare (k + 1) cs <<< (k + 1) := by
  rw [← BitVec.shiftLeft_add]
  cases c with
  | lit b =>
    have : (0x80#8 >>> k) <<< (k + 1) = 0#8 := by
      have : k = 0 ∨ k = 1 ∨ k = 2 ∨ k = 3 ∨ k = 4 ∨ k = 5 ∨ k = 6 ∨ k = 7 := by omega
      rcases this with rfl | rfl | rfl | rfl | rfl | rfl | rfl | rfl <;> rfl
    rw [groupFlag, BitVec.shiftLeft_or_distrib, this, BitVec.zero_or]
  | ref d l => rfl

theorem legalChunks_cons {dlen wp : Nat} {c : Chunk} {cs : List Chunk} :
    legalChunks dlen wp (c :: cs) = true ↔
      c.legal wp dlen = true ∧ legalChunks dlen (wp + c.size) cs = true := by
  simp [legalChunks]

theorem Chunk.legal_lt {c : Chunk} {wp dlen : Nat} (h : c.legal wp dlen = true) :
    wp < dlen ∧ 1 ≤ c.size := by
  cases c with
  | lit b => simpa [Chunk.legal, Chunk.size] using h
  | ref d l =>
    simp only [Chunk.legal, decide_eq_true_eq] at h
    simp only [Chunk.size]
    simp at h
    omega

theorem assembleGroups_nil (spare : Byte) (n : Nat) : assembleGroups spare n [] = [] := by
  cases n <;> rfl

/-- The loop over the rest of a group (`g`, of which chunk `k` is next) and the groups after it: it ends with
the destination full of what the chunks stand for, at the end of the body. -/
theorem replayLoop_chunks {spare : Byte} (n : Nat) : ∀ {s : State} {out : List Byte} {k m : Nat}
    {g cs : List Chunk} {trailing : List Byte},
    Standing s out (g.flatMap (fun x => encode x.instr) ++ assembleGroups spare m cs ++ trailing) →
    cs.length ≤ m → s.dec.cnt = 8 - k → k + g.length ≤ 8 → (g.length + k = 8 ∨ cs = []) →
    s.dec.flag = groupFlag spare k g <<< k →
    legalChunks s.dec.dlen.toNat out.length (g ++ cs) = true →
    2 * (s.dec.dlen.toNat - out.length) ≤ n + (if g = [] then 0 else 1) →
    ∃ t, replayLoop n s = .next t ∧ Standing t ((g ++ cs).foldl Chunk.apply out) trailing ∧
      Progress s t ∧ t.dec.wp = t.dec.dlen.toNat := by
  induction n with
  | zero =>
    intro s out k m g cs trailing h hm hcnt hk hg hf hl hn
    cases g with
    | nil =>
      cases cs with
      | nil =>
        have hl' : out.length = s.dec.dlen.toNat := by simpa [legalChunks] using hl
        refine ⟨s, replayLoop_done (by rw [h.wp]; omega), ?_, Progress.refl s, by rw [h.wp, hl']⟩
        simpa [assembleGroups_nil] using h
      | cons c cs =>
        have := Chunk.legal_lt (legalChunks_cons.1 hl).1
        simp at hn
        omega
    | cons c g =>
      have := Chunk.legal_lt (legalChunks_cons.1 hl).1
      simp at hn
      omega
  | succ n ih =>
    intro s out k m g cs trailing h hm hcnt hk hg hf hl hn
    cases g with
    | nil =>
      cases cs with
      | nil =>
        have hl' : out.length = s.dec.dlen.toNat := by simpa [legalChunks] using hl
        refine ⟨s, replayLoop_done (by rw [h.wp]; omega), ?_, Progress.refl s, by rw [h.wp, hl']⟩
        simpa [assembleGroups_nil] using h
      | cons c cs =>
        obtain rfl : k = 8 := by simpa using hg
        have hlt := Chunk.legal_lt (legalChunks_cons.1 hl).1
        cases m with
        | zero => simp at hm
        | succ m =>
          simp only [assembleGroups, List.flatMap_nil, List.nil_append, List.cons_append,
            List.append_assoc] at h
          have hw : s.dec.wp < s.dec.dlen.toNat := by rw [h.wp]; exact hlt.1
          obtain ⟨h1, h2, h3⟩ := h.flag (by rw [hcnt]) hw
          obtain ⟨t, t1, t2, t3, t4⟩ := ih (k := 0) (m := m) (g := (c :: cs).take 8)
            (cs := (c :: cs).drop 8) (trailing := trailing) (by rw [List.append_assoc]; exact h2)
            (by simp at hm ⊢; omega) rfl (by simp) (by simp; omega) (by simp)
            (by rw [List.take_append_drop]; exact hl) (by simp at hn ⊢; omega)
          rw [List.take_append_drop] at t2
          refine ⟨t, ?_, t2, h3.trans t3, t4⟩
          rw [replayLoop_succ, if_pos ⟨h.on, hw⟩, h1, andThen_next, t1]
    | cons c g =>
      obtain ⟨hl1, hl2⟩ := legalChunks_cons.1 (by simpa using hl)
      have hlt := Chunk.legal_lt hl1
      simp only [List.flatMap_cons, List.append_assoc] at h
      have hk' : k < 8 := by simp at hk; omega
      obtain ⟨u, u1, u2, u3, u4, u5, u6⟩ := h.chunk (by rw [hcnt]; omega)
        (by rw [hf]; cases c <;> exact groupFlag_test spare hk' _ g) hl1
      have hdl : u.dec.dlen = s.dec.dlen := u3.2
      obtain ⟨t, t1, t2, t3, t4⟩ := ih (k := k + 1) (m := m) (g := g) (cs := cs) (trailing := trailing)
        (by rw [List.append_assoc]; exact u2) hm (by rw [u4, hcnt]; omega) (by simp at hk; omega)
        (by rcases hg with hg | hg; exacts [.inl (by simp at hg; omega), .inr hg]) (by rw [u5, hf, groupFlag_shift spare hk'])
        (by rw [u6, hdl]; exact hl2) (by rw [u6, hdl]; simp at hn; split <;> omega)
      refine ⟨t, ?_, t2, u3.trans t3, t4⟩
      rw [replayLoop_succ, if_pos ⟨h.on, by rw [h.wp]; exact hlt.1⟩, u1, andThen_next, t1]

end Sys2Proof.Machine
end

