-- ==== Sys2Proof/Laws/Table.lean ====
section
/-! SUPPORT. The laws of the hash table (10_state.md R42): a bucket after an update, the canonical form
kept, equal buckets mean equal tables. -/

namespace Sys2Proof.Machine

@[simp] theorem HashTable.bucket_nil (k : BitVec 24) : HashTable.bucket [] k = [] := rfl

theorem HashTable.bucket_cons (k' k : BitVec 24) (b : List Nat) (t : HashTable) :
    HashTable.bucket ((k', b) :: t) k = if k = k' then b else t.bucket k := rfl

/-- A key below every key of a table has no bucket. -/
theorem HashTable.bucket_eq_nil_of_lt {t : HashTable} {k : BitVec 24} (h : ∀ x ∈ t, k < x.1) :
    t.bucket k = [] := by
  induction t with
  | nil => rfl
  | cons x t ih =>
    obtain ⟨k', b⟩ := x
    have hk : k < k' := h _ List.mem_cons_self
    rw [HashTable.bucket_cons, if_neg (by rintro rfl; exact absurd hk (BitVec.lt_irrefl _))]
    exact ih fun y hy => h y (List.mem_cons_of_mem _ hy)

theorem HashTable.wf_cons {k : BitVec 24} {b : List Nat} {t : HashTable} :
    HashTable.wf ((k, b) :: t) ↔ (∀ x ∈ t, k < x.1) ∧ b ≠ [] ∧ t.wf := by
  simp only [HashTable.wf, List.pairwise_cons, List.mem_cons, forall_eq_or_imp]
  tauto

/-- Putting a bucket in front of a table of larger keys. -/
theorem HashTable.bucket_consBucket {k : BitVec 24} {b : List Nat} {t : HashTable}
    (h : ∀ x ∈ t, k < x.1) (k' : BitVec 24) :
    (HashTable.consBucket k b t).bucket k' = if k' = k then b else t.bucket k' := by
  cases b with
  | nil =>
    simp only [HashTable.consBucket]
    split
    · subst_vars; exact HashTable.bucket_eq_nil_of_lt h
    · rfl
  | cons p ps => rfl

theorem HashTable.consBucket_wf {k : BitVec 24} {b : List Nat} {t : HashTable}
    (h : ∀ x ∈ t, k < x.1) (ht : t.wf) : (HashTable.consBucket k b t).wf := by
  cases b with
  | nil => exact ht
  | cons p ps => exact HashTable.wf_cons.2 ⟨h, by simp, ht⟩

theorem HashTable.mem_consBucket {k : BitVec 24} {b : List Nat} {t : HashTable}
    {x : BitVec 24 × List Nat} (h : x ∈ HashTable.consBucket k b t) : x = (k, b) ∨ x ∈ t := by
  cases b with
  | nil => exact .inr h
  | cons p ps => exact List.mem_cons.1 h

theorem HashTable.mem_setBucket {t : HashTable} {k : BitVec 24} {b : List Nat}
    {x : BitVec 24 × List Nat} (h : x ∈ t.setBucket k b) : x = (k, b) ∨ x ∈ t := by
  induction t with
  | nil => exact HashTable.mem_consBucket h
  | cons y t ih =>
    obtain ⟨k', b'⟩ := y
    simp only [HashTable.setBucket] at h
    split at h
    · exact HashTable.mem_consBucket h
    · split at h
      · exact (HashTable.mem_consBucket h).imp_right (List.mem_cons_of_mem _)
      · rcases List.mem_cons.1 h with rfl | h
        · exact .inr List.mem_cons_self
        · exact (ih h).imp_right (List.mem_cons_of_mem _)

/-- Setting a bucket keeps the canonical form. -/
theorem HashTable.setBucket_wf {t : HashTable} (h : t.wf) (k : BitVec 24) (b : List Nat) :
    (t.setBucket k b).wf := by
  induction t with
  | nil => exact HashTable.consBucket_wf (by simp) h
  | cons y t ih =>
    obtain ⟨k', b'⟩ := y
    obtain ⟨hlt, hne, ht⟩ := HashTable.wf_cons.1 h
    simp only [HashTable.setBucket]
    split
    · rename_i hk
      refine HashTable.consBucket_wf (fun x hx => ?_) h
      rcases List.mem_cons.1 hx with rfl | hx
      · exact hk
      · exact BitVec.lt_trans hk (hlt x hx)
    · split
      · subst_vars; exact HashTable.consBucket_wf hlt ht
      · rename_i hnk hne'
        refine HashTable.wf_cons.2 ⟨fun x hx => ?_, hne, ih ht⟩
        rcases HashTable.mem_setBucket hx with rfl | hx
        · simp only [BitVec.lt_def, not_lt] at hnk ⊢
          have : k'.toNat ≠ k.toNat := fun he => hne' (BitVec.eq_of_toNat_eq he.symm)
          omega
        · exact hlt x hx

/-- A bucket after a bucket was set. -/
theorem HashTable.bucket_setBucket {t : HashTable} (h : t.wf) (k : BitVec 24) (b : List Nat)
    (k' : BitVec 24) : (t.setBucket k b).bucket k' = if k' = k then b else t.bucket k' := by
  induction t with
  | nil => simpa [HashTable.setBucket] using HashTable.bucket_consBucket (t := []) (by simp) k'
  | cons y t ih =>
    obtain ⟨kh, bh⟩ := y
    obtain ⟨hlt, hne, ht⟩ := HashTable.wf_cons.1 h
    simp only [HashTable.setBucket]
    split
    · rename_i hk
      refine HashTable.bucket_consBucket (fun x hx => ?_) k'
      rcases List.mem_cons.1 hx with rfl | hx
      · exact hk
      · exact BitVec.lt_trans hk (hlt x hx)
    · split
      · subst_vars
        rw [HashTable.bucket_consBucket hlt, HashTable.bucket_cons]
        split <;> simp_all
      · rename_i hnk hne'
        simp only [HashTable.bucket_cons, ih ht]
        by_cases h1 : k' = kh <;> by_cases h2 : k' = k <;> simp_all

theorem HashTable.mem_evict {new : Nat} {t : HashTable} {x : BitVec 24 × List Nat}
    (h : x ∈ t.evict new) : ∃ b, (x.1, b) ∈ t ∧ x.2 = b.filter (inWindow new) := by
  induction t with
  | nil => simp [HashTable.evict] at h
  | cons y t ih =>
    obtain ⟨k, b⟩ := y
    rcases HashTable.mem_consBucket h with rfl | h
    · exact ⟨b, List.mem_cons_self, rfl⟩
    · obtain ⟨b', hb', he⟩ := ih h
      exact ⟨b', List.mem_cons_of_mem _ hb', he⟩

/-- Eviction keeps the canonical form. -/
theorem HashTable.evict_wf {t : HashTable} (h : t.wf) (new : Nat) : (t.evict new).wf := by
  induction t with
  | nil => exact h
  | cons y t ih =>
    obtain ⟨k, b⟩ := y
    obtain ⟨hlt, _, ht⟩ := HashTable.wf_cons.1 h
    refine HashTable.consBucket_wf (fun x hx => ?_) (ih ht)
    obtain ⟨b', hb', _⟩ := HashTable.mem_evict hx
    exact hlt (x.1, b') hb'

/-- A bucket after eviction (42_match_finder.md R159). -/
theorem HashTable.bucket_evict {t : HashTable} (h : t.wf) (new : Nat) (k : BitVec 24) :
    (t.evict new).bucket k = (t.bucket k).filter (inWindow new) := by
  induction t with
  | nil => rfl
  | cons y t ih =>
    obtain ⟨kh, bh⟩ := y
    obtain ⟨hlt, _, ht⟩ := HashTable.wf_cons.1 h
    have hlt' : ∀ x ∈ HashTable.evict new t, kh < x.1 := fun x hx => by
      obtain ⟨b', hb', _⟩ := HashTable.mem_evict hx
      exact hlt (x.1, b') hb'
    rw [HashTable.evict, HashTable.bucket_consBucket hlt', ih ht, HashTable.bucket_cons]
    split <;> rfl

/-- In a canonical table a stored bucket is the bucket of its key. -/
theorem HashTable.bucket_of_mem {t : HashTable} (h : t.wf) {x : BitVec 24 × List Nat} (hx : x ∈ t) :
    t.bucket x.1 = x.2 := by
  induction t with
  | nil => simp at hx
  | cons y t ih =>
    obtain ⟨k, b⟩ := y
    obtain ⟨hlt, _, ht⟩ := HashTable.wf_cons.1 h
    rw [HashTable.bucket_cons]
    rcases List.mem_cons.1 hx with rfl | hx
    · simp
    · have := hlt x hx
      rw [if_neg (by intro he; rw [he] at this; exact absurd this (BitVec.lt_irrefl _)), ih ht hx]

/-- A bucket that is not empty is stored. -/
theorem HashTable.mem_of_bucket {t : HashTable} {k : BitVec 24} (h : t.bucket k ≠ []) :
    (k, t.bucket k) ∈ t := by
  induction t with
  | nil => simp at h
  | cons y t ih =>
    obtain ⟨kh, bh⟩ := y
    rw [HashTable.bucket_cons] at h ⊢
    split
    · subst_vars; exact List.mem_cons_self
    · rename_i hne
      rw [if_neg hne] at h
      exact List.mem_cons_of_mem _ (ih h)

/-- Two canonical tables with the same buckets are the same data. -/
theorem HashTable.ext_of_wf {t t' : HashTable} (h : t.wf) (h' : t'.wf)
    (hb : ∀ k, t.bucket k = t'.bucket k) : t = t' := by
  have key : ∀ {u v : HashTable}, u.wf → v.wf → (∀ k, u.bucket k = v.bucket k) → ∀ x ∈ u, x ∈ v := by
    intro u v hu hv hk x hx
    have h1 : v.bucket x.1 = x.2 := by rw [← hk, HashTable.bucket_of_mem hu hx]
    have h2 : v.bucket x.1 ≠ [] := by rw [h1]; exact hu.2 x hx
    have := HashTable.mem_of_bucket h2
    rwa [h1] at this
  have nodup : ∀ {u : HashTable}, u.wf → u.Nodup := fun hu =>
    hu.1.imp fun hlt heq => by rw [heq] at hlt; exact absurd hlt (BitVec.lt_irrefl _)
  have hperm : t.Perm t' := (List.perm_ext_iff_of_nodup (nodup h) (nodup h')).2 fun x =>
    ⟨key h h' hb x, key h' h (fun k => (hb k).symm) x⟩
  refine List.Perm.eq_of_pairwise (le := fun x y => x.1 < y.1) ?_ h.1 h'.1 hperm
  intro a b _ _ hab hba
  exact absurd (BitVec.lt_trans hab hba) (BitVec.lt_irrefl _)

end Sys2Proof.Machine
end

