-- ==== Sys2Proof/Laws/Finder.lean ====
section
/-! SUPPORT. The match finder (42_match_finder.md): the common prefix, the candidate loop, insertion and
eviction as operations on the positions of a bucket. -/

namespace Sys2Proof.Machine

/-! ### The key (R151) and the common prefix (R154) -/

theorem keyAt_eq_some_iff (src : Memory) (p : Nat) (k : BitVec 24) :
    keyAt src p = some k ↔ ∃ b0 b1 b2, src.read p = some b0 ∧ src.read (p + 1) = some b1 ∧
      src.read (p + 2) = some b2 ∧ k = packKey b0 b1 b2 := by
  unfold keyAt
  split
  · rename_i b0 b1 b2 h0 h1 h2
    simp [h0, h1, h2, eq_comm]
  · rename_i hn
    constructor
    · intro h; cases h
    · rintro ⟨b0, b1, b2, h0, h1, h2, -⟩
      exact absurd h2 (hn b0 b1 b2 h0 h1)

theorem keyAt_whole {src : Memory} {n p : Nat} (h : src.holds n) (hp : p + 2 < n) :
    ∃ k, keyAt src p = some k := by
  obtain ⟨b0, h0⟩ := Memory.holds_read h (a := p) (by omega)
  obtain ⟨b1, h1⟩ := Memory.holds_read h (a := p + 1) (by omega)
  obtain ⟨b2, h2⟩ := Memory.holds_read h (a := p + 2) (by omega)
  exact ⟨_, (keyAt_eq_some_iff _ _ _).2 ⟨b0, b1, b2, h0, h1, h2, rfl⟩⟩

/-- The key is the three bytes themselves: equal keys, equal bytes (00_scope.md R13). -/
theorem keyAt_inj {src : Memory} {p q : Nat} {k : BitVec 24} (hp : keyAt src p = some k)
    (hq : keyAt src q = some k) {i : Nat} (hi : i < 3) : src.read (p + i) = src.read (q + i) := by
  obtain ⟨b0, b1, b2, h0, h1, h2, hk⟩ := (keyAt_eq_some_iff _ _ _).1 hp
  obtain ⟨c0, c1, c2, g0, g1, g2, hk'⟩ := (keyAt_eq_some_iff _ _ _).1 hq
  have he : packKey b0 b1 b2 = packKey c0 c1 c2 := hk.symm.trans hk'
  have hv : ∀ x y z : Byte,
      (packKey x y z).toNat = x.toNat * 65536 + y.toNat * 256 + z.toNat := by
    intro x y z
    have hy := y.isLt
    have hz := z.isLt
    simp only [packKey, BitVec.toNat_append]
    rw [← Nat.shiftLeft_add_eq_or_of_lt (by omega), ← Nat.shiftLeft_add_eq_or_of_lt (by omega)]
    simp only [Nat.shiftLeft_eq]
    omega
  have hn := congrArg BitVec.toNat he
  rw [hv, hv] at hn
  have := b0.isLt; have := b1.isLt; have := b2.isLt
  have := c0.isLt; have := c1.isLt; have := c2.isLt
  have e0 : b0 = c0 := BitVec.eq_of_toNat_eq (by omega)
  have e1 : b1 = c1 := BitVec.eq_of_toNat_eq (by omega)
  have e2 : b2 = c2 := BitVec.eq_of_toNat_eq (by omega)
  subst e0 e1 e2
  match i, hi with
  | 0, _ => simp [h0, g0]
  | 1, _ => rw [h1, g1]
  | 2, _ => rw [h2, g2]

/-- What a common prefix is: the bytes agree up to it, and it stops at `lim` or at a difference. -/
theorem commonPrefix_spec {src : Memory} {lim a b l : Nat} (h : commonPrefix src lim a b = some l) :
    l ≤ lim ∧ (∀ i, i < l → src.read (a + i) = src.read (b + i)) ∧
      (l = lim ∨ src.read (a + l) ≠ src.read (b + l)) := by
  induction lim generalizing a b l with
  | zero =>
    obtain rfl : 0 = l := by simpa [commonPrefix] using h
    exact ⟨Nat.le_refl _, fun i hi => absurd hi (by omega), .inl rfl⟩
  | succ lim ih =>
    unfold commonPrefix at h
    split at h
    · rename_i x y hx hy
      split at h
      · rename_i he
        obtain ⟨m, hm, rfl⟩ := Option.map_eq_some_iff.1 h
        obtain ⟨h1, h2, h3⟩ := ih hm
        refine ⟨by omega, ?_, ?_⟩
        · intro i hi
          cases i with
          | zero => rw [Nat.add_zero, Nat.add_zero, hx, hy, he]
          | succ j =>
            have := h2 j (by omega)
            rwa [Nat.add_assoc, Nat.add_comm 1, Nat.add_assoc, Nat.add_comm 1] at this
        · rcases h3 with rfl | h3
          · exact .inl rfl
          · rw [Nat.add_assoc, Nat.add_comm 1, Nat.add_assoc, Nat.add_comm 1] at h3
            exact .inr h3
      · rename_i hne
        obtain rfl := Option.some.inj h
        refine ⟨by omega, fun i hi => absurd hi (by omega), .inr ?_⟩
        rw [Nat.add_zero, Nat.add_zero, hx, hy]
        exact fun hc => hne (Option.some.inj hc)
    · cases h

/-- Over whole bytes there is a common prefix. -/
theorem commonPrefix_whole {src : Memory} {n lim a b : Nat} (h : src.holds n) (ha : a + lim ≤ n)
    (hb : b + lim ≤ n) : ∃ l, commonPrefix src lim a b = some l := by
  induction lim generalizing a b with
  | zero => exact ⟨0, rfl⟩
  | succ lim ih =>
    obtain ⟨x, hx⟩ := Memory.holds_read h (a := a) (by omega)
    obtain ⟨y, hy⟩ := Memory.holds_read h (a := b) (by omega)
    obtain ⟨l, hl⟩ := ih (a := a + 1) (b := b + 1) (by omega) (by omega)
    by_cases he : x = y
    · exact ⟨l + 1, by simp [commonPrefix, hx, hy, he, hl]⟩
    · exact ⟨0, by simp [commonPrefix, hx, hy, he]⟩

/-- The common prefix is the longest agreement within `lim`. -/
theorem commonPrefix_max {src : Memory} {lim a b l m : Nat}
    (h : commonPrefix src lim a b = some l) (hm : m ≤ lim)
    (hr : ∀ i, i < m → src.read (a + i) = src.read (b + i)) : m ≤ l := by
  obtain ⟨-, -, h3⟩ := commonPrefix_spec h
  rcases h3 with rfl | h3
  · exact hm
  · by_contra hlt
    exact h3 (hr l (by omega))

/-! ### The candidate loop (R155, R157) -/

/-- Everything the candidate loop can do: the registers of the search change, the best length does not
fall, no candidate is longer, and a new best is the first of its length. -/
theorem scanBucket_spec {src : Memory} {cs : List Nat} {e e' : Encoder}
    (h : scanBucket src cs e = some e') :
    e' = { e with bestOff := e'.bestOff, bestLen := e'.bestLen, cand := e'.cand, clen := e'.clen } ∧
      e.bestLen ≤ e'.bestLen ∧
      (∀ c ∈ cs, ∃ l, commonPrefix src e.lim c e.off = some l ∧ l ≤ e'.bestLen) ∧
      ((e'.bestLen = e.bestLen ∧ e'.bestOff = e.bestOff) ∨
        (e.bestLen < e'.bestLen ∧
          commonPrefix src e.lim e'.bestOff e.off = some e'.bestLen ∧
          ∃ before after, cs = before ++ e'.bestOff :: after ∧
            ∀ c ∈ before, ∃ l, commonPrefix src e.lim c e.off = some l ∧ l < e'.bestLen)) := by
  induction cs generalizing e with
  | nil =>
    obtain rfl : e = e' := by simpa [scanBucket] using h
    exact ⟨rfl, Nat.le_refl _, by simp, .inl ⟨rfl, rfl⟩⟩
  | cons c cs ih =>
    unfold scanBucket at h
    split at h
    · rename_i l hl
      obtain ⟨h1, h2, h3, h4⟩ := ih h
      simp only [Encoder.consider] at h1 h2 h3 h4
      refine ⟨by rw [h1], ?_, ?_, ?_⟩
      · split at h2 <;> omega
      · intro x hx
        rcases List.mem_cons.1 hx with rfl | hx
        · exact ⟨l, hl, by split at h2 <;> omega⟩
        · exact h3 x hx
      · rcases h4 with ⟨ha, hb⟩ | ⟨ha, hb, before, after, hc, hd⟩
        · by_cases hlt : e.bestLen < l
          · rw [if_pos hlt] at ha hb
            refine .inr ⟨by omega, by rw [hb, ha]; exact hl, [], cs, by rw [hb]; rfl, by simp⟩
          · rw [if_neg hlt] at ha hb
            exact .inl ⟨ha, hb⟩
        · refine .inr ⟨by split at ha <;> omega, hb, c :: before, after, by rw [hc]; rfl, ?_⟩
          intro x hx
          rcases List.mem_cons.1 hx with rfl | hx
          · exact ⟨l, hl, by split at ha <;> omega⟩
          · exact hd x hx
    · cases h

/-- Over whole bytes the candidate loop finishes. -/
theorem scanBucket_whole {src : Memory} {n : Nat} {cs : List Nat} {e : Encoder} (h : src.holds n)
    (hc : ∀ c ∈ cs, c + e.lim ≤ n) (ho : e.off + e.lim ≤ n) : ∃ e', scanBucket src cs e = some e' := by
  induction cs generalizing e with
  | nil => exact ⟨e, rfl⟩
  | cons c cs ih =>
    obtain ⟨l, hl⟩ := commonPrefix_whole h (hc c (by simp)) ho
    obtain ⟨e', he⟩ := ih (e := e.consider c l)
      (fun x hx => hc x (List.mem_cons_of_mem _ hx)) ho
    exact ⟨e', by simp [scanBucket, hl, he]⟩

/-! ### Buckets as lists of positions (R159, R160) -/

/-- A push keeps the nearest 128. -/
theorem pushPosition_eq {p : Nat} {b : List Nat} (h : b.length ≤ 128) :
    pushPosition p b = (p :: b).take 128 := by
  unfold pushPosition
  split
  · rename_i hl
    have hl' : b.length = 128 := hl
    simp [List.dropLast_eq_take, hl']
  · rename_i hl
    have hl' : b.length ≠ 128 := hl
    rw [List.take_of_length_le (by simp; omega)]

/-- In a bucket that is nearest first, eviction keeps a prefix. -/
theorem filter_inWindow_take {b : List Nat} (h : b.Pairwise (· > ·)) (w n : Nat) :
    (b.take n).filter (inWindow w) = (b.filter (inWindow w)).take n := by
  induction b generalizing n with
  | nil => simp
  | cons p b ih =>
    obtain ⟨hp, hb⟩ := List.pairwise_cons.1 h
    cases n with
    | zero => simp
    | succ n =>
      by_cases hw : inWindow w p = true
      · simp [hw, ih hb]
      · have hall : ∀ q ∈ b, ¬inWindow w q = true := fun q hq => by
          have := hp q hq
          simp only [inWindow, decide_eq_true_eq] at hw ⊢
          omega
        rw [List.take_succ_cons, List.filter_cons_of_neg hw, List.filter_cons_of_neg hw,
          List.filter_eq_nil_iff.2 (fun q hq => hall q (List.mem_of_mem_take hq)),
          List.filter_eq_nil_iff.2 hall]
        rfl

/-- Eviction cannot lengthen a bucket. -/
theorem HashTable.evict_short {t : HashTable} (n w : Nat) (h : ∀ x ∈ t, x.2.length ≤ n) :
    ∀ x ∈ t.evict w, x.2.length ≤ n := by
  intro x hx
  obtain ⟨b, hb, he⟩ := HashTable.mem_evict hx
  rw [he]
  exact Nat.le_trans (List.length_filter_le _ _) (h _ hb)

/-- A table of short buckets has short buckets at every key. -/
theorem HashTable.bucket_short {t : HashTable} {n : Nat} (h : ∀ x ∈ t, x.2.length ≤ n)
    (k : BitVec 24) : (t.bucket k).length ≤ n := by
  by_cases hb : t.bucket k = []
  · simp [hb]
  · exact h _ (HashTable.mem_of_bucket hb)

/-! ### Insertion of a range (R161) -/

/-- The positions `p` to `p + n - 1` with the key `k`, nearest first (R161; the skipped ones: D7). -/
def coveredPositions (src : Memory) (slen p n : Nat) (k : BitVec 24) : List Nat :=
  (List.range' p n).reverse.filter fun q => decide (q + 2 < slen) && decide (keyAt src q = some k)

theorem coveredPositions_succ (src : Memory) (slen p n : Nat) (k : BitVec 24) :
    coveredPositions src slen p (n + 1) k =
      coveredPositions src slen (p + 1) n k ++ coveredPositions src slen p 1 k := by
  simp [coveredPositions, List.range'_succ]

/-- Capping what is kept first changes nothing. -/
theorem take_append_take {α : Type} (l r : List α) (n : Nat) :
    (l ++ r.take n).take n = (l ++ r).take n := by
  rw [List.take_append, List.take_append, List.take_take]
  congr 2
  omega

/-- One insertion over whole bytes. -/
theorem insertPosition_whole {src : Memory} {slen : Nat} (hs : src.holds slen) (p : Nat)
    {t : HashTable} (hw : t.wf) (hl : ∀ x ∈ t, x.2.length ≤ 128) :
    ∃ t', insertPosition src slen p t = some t' ∧ t'.wf ∧ (∀ x ∈ t', x.2.length ≤ 128) ∧
      ∀ k, t'.bucket k = (coveredPositions src slen p 1 k ++ t.bucket k).take 128 := by
  have hb := fun k => HashTable.bucket_short hl k
  by_cases hp : slen ≤ p + 2
  · refine ⟨t, by simp [insertPosition, hp], hw, hl, fun k => ?_⟩
    rw [List.take_of_length_le]
    · simp [coveredPositions, Nat.not_lt.2 hp]
    · simpa [coveredPositions, Nat.not_lt.2 hp] using hb k
  · obtain ⟨k0, hk⟩ := keyAt_whole hs (p := p) (by omega)
    have hlt : p + 2 < slen := by omega
    refine ⟨t.setBucket k0 (pushPosition p (t.bucket k0)), by simp [insertPosition, hp, hk],
      HashTable.setBucket_wf hw _ _, ?_, fun k => ?_⟩
    · intro x hx
      rcases HashTable.mem_setBucket hx with rfl | hx
      · rw [pushPosition_eq (hb k0)]; simp
      · exact hl x hx
    · rw [HashTable.bucket_setBucket hw]
      split
      · rename_i h
        subst h
        simp [pushPosition_eq (hb k), coveredPositions, hlt, hk]
      · rename_i h
        have hne : k0 ≠ k := fun hc => h hc.symm
        rw [List.take_of_length_le]
        · simp [coveredPositions, hk, hne]
        · simpa [coveredPositions, hk, hne] using hb k

/-- Insertion of a range over whole bytes: every bucket is the nearest 128 of the covered positions with
its key and the old bucket. -/
theorem insertRange_whole {src : Memory} {slen : Nat} (hs : src.holds slen) {n p : Nat}
    {t : HashTable} (hw : t.wf) (hl : ∀ x ∈ t, x.2.length ≤ 128) :
    ∃ t', insertRange src slen n p t = some t' ∧ t'.wf ∧ (∀ x ∈ t', x.2.length ≤ 128) ∧
      ∀ k, t'.bucket k = (coveredPositions src slen p n k ++ t.bucket k).take 128 := by
  induction n generalizing p t with
  | zero =>
    refine ⟨t, rfl, hw, hl, fun k => ?_⟩
    have := HashTable.bucket_short hl k
    simp [coveredPositions, List.take_of_length_le this]
  | succ n ih =>
    obtain ⟨t1, h1, hw1, hl1, hb1⟩ := insertPosition_whole hs p hw hl
    obtain ⟨t2, h2, hw2, hl2, hb2⟩ := ih (p := p + 1) hw1 hl1
    refine ⟨t2, by simp [insertRange, h1, h2], hw2, hl2, fun k => ?_⟩
    rw [hb2, hb1, coveredPositions_succ src slen p n k, List.append_assoc, take_append_take]

end Sys2Proof.Machine
end

