-- ==== Sys2Proof/Laws/Encode.lean ====
section
/-! SUPPORT. The encoder (43_compressor.md): appending to `OUT`, the settled table over one update, FIND over
a settled table, and what each part of an encoder step can do. -/

namespace Sys2Proof.Machine

/-! ### Appending (20_memory.md R83, R84) -/

/-- Bytes written in a row are stored there and nowhere else. -/
theorem storedAt_writeAll (m : Memory) (a : Nat) (bs : List Byte) :
    storedAt m (m.writeAll a bs) a bs := by
  constructor
  · intro i hi
    rw [Memory.read_writeAll, if_pos (by omega)]
    congr 1
    omega
  · intro b hb
    exact Memory.read_writeAll_other m bs hb

/-- One byte written is stored there and nowhere else. -/
theorem storedAt_write (m : Memory) (a : Nat) (b : Byte) : storedAt m (m.write a b) a [b] :=
  storedAt_writeAll m a [b]

/-- An output as long as `OP` stays so. -/
theorem appendOut_holds {s : State} (h : s.out.holds s.enc.op) (bs : List Byte) :
    (s.appendOut bs).out.holds (s.appendOut bs).enc.op := Memory.holds_writeAll_end h bs

/-! ### The match code bytes (R181, R182) -/

/-- The bytes EMIT_REF2 appends are those of the REF2 that stands for the match. -/
theorem ref2Bytes_eq_encode {off bestOff len : Nat} (h1 : bestOff < off) (h2 : off ≤ bestOff + 4096)
    (h3 : 3 ≤ len) (h4 : len ≤ 17) :
    ref2Bytes len (dfieldOf off bestOff) = encode (Chunk.ref (off - bestOff) len).instr := by
  have hd : dfieldOf off bestOff = off - bestOff - 1 := rfl
  generalize hx : off - bestOff - 1 = x at *
  have hx' : x < 4096 := by omega
  have hor : ((len - 2) <<< 4) ||| (x >>> 8) = (len - 2) * 16 + x / 256 := by
    rw [Nat.shiftLeft_eq, Nat.shiftRight_eq_div_pow, Nat.mul_comm (len - 2),
      ← Nat.two_pow_add_eq_or_of_lt (i := 4) (by omega)]
  have hand : x &&& 0xFF = x % 256 := Nat.and_two_pow_sub_one_eq_mod x 8
  have hi : (Chunk.ref (off - bestOff) len).instr =
      .ref2 (BitVec.ofNat 4 (len - 2)) (BitVec.ofNat 12 (off - bestOff - 1)) := by
    simp only [Chunk.instr]
    rw [if_pos (by simp; omega)]
  rw [hi, hd, hx, ref2Bytes, hor, hand]
  have hp : (BitVec.ofNat 4 (len - 2) ++ BitVec.ofNat 12 x : BitVec 16).toNat
      = (len - 2) * 4096 + x := by
    rw [BitVec.toNat_append, ← Nat.shiftLeft_add_eq_or_of_lt (BitVec.isLt _), Nat.shiftLeft_eq]
    simp only [BitVec.toNat_ofNat]
    omega
  simp only [encode, bytes16, List.cons.injEq, and_true]
  constructor
  · apply BitVec.eq_of_toNat_eq
    simp only [BitVec.toNat_ofNat, BitVec.extractLsb'_toNat, hp, Nat.shiftRight_eq_div_pow]
    omega
  · apply BitVec.eq_of_toNat_eq
    simp only [BitVec.toNat_ofNat, BitVec.extractLsb'_toNat, hp, Nat.shiftRight_eq_div_pow]
    omega

/-- The bytes EMIT_REF3 appends are those of the REF3 that stands for the match. -/
theorem ref3Bytes_eq_encode {off bestOff len : Nat} (h1 : bestOff < off) (h2 : off ≤ bestOff + 4096)
    (h3 : 18 ≤ len) (_h4 : len ≤ 273) :
    ref3Bytes len (dfieldOf off bestOff) = encode (Chunk.ref (off - bestOff) len).instr := by
  have hd : dfieldOf off bestOff = off - bestOff - 1 := rfl
  generalize hx : off - bestOff - 1 = x at *
  have hx' : x < 4096 := by omega
  have hand : x &&& 0xFF = x % 256 := Nat.and_two_pow_sub_one_eq_mod x 8
  have hi : (Chunk.ref (off - bestOff) len).instr =
      .ref3 (BitVec.ofNat 12 (off - bestOff - 1)) (BitVec.ofNat 8 (len - 18)) := by
    simp only [Chunk.instr]
    rw [if_neg (by simp; omega)]
  rw [hi, hd, hx, ref3Bytes, hand]
  have hp : (0#4 ++ BitVec.ofNat 12 x : BitVec 16).toNat = x := by
    rw [BitVec.toNat_append, ← Nat.shiftLeft_add_eq_or_of_lt (BitVec.isLt _), Nat.shiftLeft_eq]
    simp only [BitVec.toNat_ofNat]
    omega
  simp only [encode, bytes16, List.cons_append, List.nil_append, List.cons.injEq, and_true]
  constructor
  · apply BitVec.eq_of_toNat_eq
    simp only [BitVec.toNat_ofNat, BitVec.extractLsb'_toNat, hp, Nat.shiftRight_eq_div_pow]
  · apply BitVec.eq_of_toNat_eq
    simp only [BitVec.toNat_ofNat, BitVec.extractLsb'_toNat, hp, Nat.shiftRight_eq_div_pow]
    omega

/-! ### The settled table (42_match_finder.md R164) -/

/-- The window positions are nearest first. -/
theorem windowPositions_sorted (src : Memory) (slen o : Nat) (k : BitVec 24) :
    (windowPositions src slen o k).Pairwise (· > ·) := by
  apply List.Pairwise.filter
  rw [List.pairwise_reverse]
  exact List.pairwise_lt_range

theorem mem_windowPositions {src : Memory} {slen o p : Nat} {k : BitVec 24} :
    p ∈ windowPositions src slen o k ↔
      p < o ∧ o ≤ p + 4096 ∧ p + 2 < slen ∧ keyAt src p = some k := by
  simp [windowPositions, inWindow]
  tauto

/-- Moving the window forward: the covered positions, then what is still in the window. -/
theorem windowPositions_update (src : Memory) (slen : Nat) {o o' : Nat} (k : BitVec 24) (h : o ≤ o')
    (h' : o' ≤ o + 4096) : windowPositions src slen o' k =
      coveredPositions src slen o (o' - o) k ++
        (windowPositions src slen o k).filter (inWindow o') := by
  have hr : List.range o' = List.range o ++ List.range' o (o' - o) := by
    rw [List.range_eq_range', List.range_eq_range']
    have := List.range'_append_1 (s := 0) (m := o) (n := o' - o)
    rw [Nat.zero_add, Nat.add_sub_cancel' h] at this
    exact this.symm
  rw [windowPositions, hr, List.reverse_append, List.filter_append, coveredPositions, windowPositions,
    List.filter_filter]
  congr 1
  · apply List.filter_congr
    intro p hp
    have hp' := List.mem_range'_1.1 (List.mem_reverse.1 hp)
    have hw : inWindow o' p = true := by simp [inWindow]; omega
    simp [hw]
  · apply List.filter_congr
    intro p hp
    by_cases hw : inWindow o' p = true
    · have hw' : inWindow o p = true := by simp [inWindow] at hw ⊢; omega
      simp [hw, hw']
    · simp [hw]

/-- One HT_UPDATE of at most a window keeps the table settled (R162, R164). -/
theorem settledAt_update {src : Memory} {slen o o' : Nat} {t : HashTable} (hs : src.holds slen)
    (hw : t.wf) (ht : settledAt src slen o t) (h : o ≤ o') (h' : o' ≤ o + 4096) :
    ∃ t', insertRange src slen (o' - o) o (t.evict o') = some t' ∧ t'.wf ∧
      settledAt src slen o' t' := by
  have hl : ∀ x ∈ t, x.2.length ≤ 128 := by
    intro x hx
    rw [← HashTable.bucket_of_mem hw hx, ht]
    exact List.length_take_le _ _
  obtain ⟨t', h1, h2, -, h4⟩ :=
    insertRange_whole hs (n := o' - o) (p := o) (HashTable.evict_wf hw o') (HashTable.evict_short 128 o' hl)
  refine ⟨t', h1, h2, fun k => ?_⟩
  rw [h4, HashTable.bucket_evict hw, ht, filter_inWindow_take (windowPositions_sorted _ _ _ _),
    take_append_take, ← windowPositions_update src slen k h h']

/-- A settled bucket holds positions of the window with its key (10_state.md R43). -/
theorem settledAt_mem {src : Memory} {slen o p : Nat} {t : HashTable} {k : BitVec 24}
    (ht : settledAt src slen o t) (hp : p ∈ t.bucket k) :
    p < o ∧ o ≤ p + 4096 ∧ p + 2 < slen ∧ keyAt src p = some k := by
  rw [ht] at hp
  exact mem_windowPositions.1 (List.mem_of_mem_take hp)

/-- A settled table's buckets are nearest first and at most 128 long (10_state.md R43). -/
theorem settledAt_buckets {src : Memory} {slen o : Nat} {t : HashTable} (hw : t.wf)
    (ht : settledAt src slen o t) : ∀ x ∈ t, x.2.Pairwise (· > ·) ∧ x.2.length ≤ 128 := by
  intro x hx
  rw [← HashTable.bucket_of_mem hw hx, ht]
  exact ⟨(windowPositions_sorted _ _ _ _).take, List.length_take_le _ _⟩

/-! ### FIND over a settled table (R157, R158) -/

/-- FIND answers: no match, or a match in the window whose bytes are there; only the registers of the
search change. -/
theorem find_settled {s : State} (hs : s.src.holds s.enc.slen)
    (ht : settledAt s.src s.enc.slen s.enc.off s.ht) :
    ∃ e, execFind s = .next { s with enc := e } ∧
      e = { s.enc with
        bestOff := e.bestOff, bestLen := e.bestLen, key := e.key, cand := e.cand, clen := e.clen,
        lim := e.lim } ∧
      (e.bestLen = 0 ∨ (3 ≤ e.bestLen ∧ e.bestLen ≤ 273 ∧ s.enc.off + e.bestLen ≤ s.enc.slen ∧
        e.bestOff < s.enc.off ∧ s.enc.off ≤ e.bestOff + 4096 ∧
        ∀ i, i < e.bestLen → s.src.read (e.bestOff + i) = s.src.read (s.enc.off + i))) := by
  by_cases h3 : s.enc.slen < s.enc.off + 3
  · exact ⟨s.enc.noMatch, by simp [execFind, h3], rfl, .inl rfl⟩
  · obtain ⟨k, hk⟩ := keyAt_whole hs (p := s.enc.off) (by omega)
    cases hb : s.ht.bucket k with
    | nil => exact ⟨{ s.enc.noMatch with key := k }, by simp [execFind, h3, hk, hb], rfl, .inl rfl⟩
    | cons c cs =>
      have hm : ∀ x ∈ c :: cs, x < s.enc.off ∧ s.enc.off ≤ x + 4096 ∧ keyAt s.src x = some k := by
        intro x hx
        rw [← hb] at hx
        have := settledAt_mem ht hx
        exact ⟨this.1, this.2.1, this.2.2.2⟩
      have hlim : (s.enc.startScan k).lim = min 273 (s.enc.slen - s.enc.off) := rfl
      obtain ⟨e, he⟩ := scanBucket_whole (cs := c :: cs) (e := s.enc.startScan k) hs
        (fun x hx => by have := (hm x hx).1; rw [hlim]; omega)
        (by rw [hlim]; simp only [Encoder.startScan, Encoder.noMatch]; omega)
      obtain ⟨g1, -, g3, g4⟩ := scanBucket_spec he
      refine ⟨e, by simp [execFind, h3, hk, hb, he], by rw [g1]; rfl, ?_⟩
      rcases g4 with ⟨ha, -⟩ | ⟨-, hcp, before, after, hc, -⟩
      · exact .inl ha
      · have hbest := hm e.bestOff (by rw [hc]; simp)
        obtain ⟨q1, q2, -⟩ := commonPrefix_spec hcp
        rw [hlim] at q1
        refine .inr ⟨?_, by omega, by omega, hbest.1, hbest.2.1, q2⟩
        exact commonPrefix_max hcp (by rw [hlim]; omega) fun i hi => keyAt_inj hbest.2.2 hk hi

/-! ### The parts of an encoder step (R177) -/

/-- The step's group: open afterwards with a free place and its slot inside `OUT` (R178). -/
theorem openIfClosed_next {s : State} (hg : s.enc.gopen = true → s.enc.gidx < 8 ∧ s.enc.gslot < s.enc.op)
    (ho : s.out.holds s.enc.op) :
    ∃ t, openIfClosed s = .next t ∧ t.out.holds t.enc.op ∧ t.enc.gidx < 8 ∧ t.enc.gslot < t.enc.op ∧
      t = { s with
        out := t.out, enc.op := t.enc.op, enc.gslot := t.enc.gslot, enc.gflag := t.enc.gflag,
        enc.gidx := t.enc.gidx, enc.gopen := true } := by
  by_cases h : s.enc.gopen = true
  · refine ⟨s, by simp [openIfClosed, h], ho, (hg h).1, (hg h).2, ?_⟩
    rw [← h]
  · refine ⟨s.openGroup, by simp only [openIfClosed, if_neg h, execGroupOpen], appendOut_holds ho _,
      by simp [State.openGroup], ?_, rfl⟩
    exact Nat.lt_succ_self _

/-- The emit that follows a FIND (R179 to R182): 1 to 3 bytes appended, 1 to 273 source bytes covered. -/
theorem emitBest_next {s : State} (hs : s.src.holds s.enc.slen) (ho : s.out.holds s.enc.op)
    (hoff : s.enc.off < s.enc.slen)
    (hb : s.enc.bestLen = 0 ∨ (3 ≤ s.enc.bestLen ∧ s.enc.bestLen ≤ 273 ∧
      s.enc.off + s.enc.bestLen ≤ s.enc.slen ∧ s.enc.bestOff < s.enc.off ∧
      s.enc.off ≤ s.enc.bestOff + 4096)) :
    ∃ t bs, emitBest s = .next t ∧ t.out = s.out.writeAll s.enc.op bs ∧ t.out.holds t.enc.op ∧
      1 ≤ t.enc.processed ∧ t.enc.processed ≤ 273 ∧ s.enc.off + t.enc.processed ≤ s.enc.slen ∧
      ((∃ b, s.enc.bestLen = 0 ∧ s.src.read s.enc.off = some b ∧ bs = [b] ∧ t.enc.processed = 1 ∧
          t.enc.gflag = setLiteral s.enc.gflag s.enc.gidx) ∨
        (3 ≤ s.enc.bestLen ∧ t.enc.processed = s.enc.bestLen ∧ t.enc.gflag = s.enc.gflag ∧
          bs = encode (Chunk.ref (s.enc.off - s.enc.bestOff) s.enc.bestLen).instr)) ∧
      t = { s with
        out := t.out, enc.op := s.enc.op + bs.length, enc.gflag := t.enc.gflag,
        enc.processed := t.enc.processed } := by
  rcases hb with h0 | ⟨h1, h2, h3, h4, h5⟩
  · obtain ⟨b, hr⟩ := Memory.holds_read hs hoff
    exact ⟨s.emitByte b, [b], by simp [emitBest, h0, execEmitLit, Nat.not_le.2 hoff, hr], rfl,
      appendOut_holds ho [b], Nat.le_refl 1, by simp [State.emitByte], hoff,
      .inl ⟨b, h0, hr, rfl, rfl, rfl⟩, rfl⟩
  · have hd : distanceFits s.enc.off s.enc.bestOff = true := by
      simp [distanceFits, h4, h5]
    by_cases hl : s.enc.bestLen < 18
    · refine ⟨s.emitCode s.enc.bestLen (ref2Bytes s.enc.bestLen (dfieldOf s.enc.off s.enc.bestOff)), _,
        ?_, rfl, appendOut_holds ho _, Nat.le_trans (by omega) h1, h2, h3,
        .inr ⟨h1, rfl, rfl, ref2Bytes_eq_encode h4 h5 h1 (by omega)⟩, rfl⟩
      simp [emitBest, Nat.not_lt.2 h1, hl, execEmitRef2, hd, h1]
    · refine ⟨s.emitCode s.enc.bestLen (ref3Bytes s.enc.bestLen (dfieldOf s.enc.off s.enc.bestOff)), _,
        ?_, rfl, appendOut_holds ho _, Nat.le_trans (by omega) h1, h2, h3,
        .inr ⟨h1, rfl, rfl, ref3Bytes_eq_encode h4 h5 (Nat.not_lt.1 hl) h2⟩, rfl⟩
      simp [emitBest, Nat.not_lt.2 h1, hl, execEmitRef3, hd, Nat.not_lt.1 hl, Nat.min_eq_right h2]

/-- The advance (R183): the table is settled at the new offset, the group has one chunk more. -/
theorem advanceEncoder_next {s : State} (hs : s.src.holds s.enc.slen) (hw : s.ht.wf)
    (ht : settledAt s.src s.enc.slen s.enc.off s.ht) (hp : s.enc.processed ≤ 273) :
    ∃ t, advanceEncoder s = .next t ∧ t.ht.wf ∧
      settledAt s.src s.enc.slen (s.enc.off + s.enc.processed) t.ht ∧
      t = { s with
        ht := t.ht, enc.off := s.enc.off + s.enc.processed, enc.gidx := s.enc.gidx + 1 } := by
  obtain ⟨t', h1, h2, h3⟩ := settledAt_update (o' := s.enc.off + s.enc.processed) hs hw ht
    (by omega) (by omega)
  refine ⟨{ s with
    ht := t', enc.off := s.enc.off + s.enc.processed, enc.gidx := s.enc.gidx + 1 }, ?_, h2, h3, rfl⟩
  simp only [advanceEncoder, execHtUpdate, h1, State.withTable, andThen_next]

/-- The close (R184), where the slot is inside `OUT`. -/
theorem closeIfComplete_next {s : State} (ho : s.out.holds s.enc.op) (hg : s.enc.gslot < s.enc.op) :
    ∃ t, closeIfComplete s = .next t ∧ t.out.holds s.enc.op ∧
      t = { s with out := t.out, enc.gopen := t.enc.gopen } ∧
      ((s.enc.gidx = 8 ∨ s.enc.off = s.enc.slen) → t.enc.gopen = false ∧
        t.out = s.out.write s.enc.gslot s.enc.gflag) ∧
      (¬(s.enc.gidx = 8 ∨ s.enc.off = s.enc.slen) → t = s) := by
  by_cases h : s.enc.gidx = 8 ∨ s.enc.off = s.enc.slen
  · exact ⟨s.closeGroup, by simp only [closeIfComplete, if_pos h, execGroupClose, if_pos hg],
      Memory.holds_write_inside ho hg _, rfl, fun _ => ⟨rfl, rfl⟩, fun hn => absurd h hn⟩
  · exact ⟨s, by simp only [closeIfComplete, if_neg h], ho, rfl, fun hc => absurd hc h, fun _ => rfl⟩

/-! ### What an encoder step leaves, in any state -/

/-- An operation on the table that answers a next state changes the table only. -/
theorem State.withTable_next {s t : State} {o : Option HashTable} (h : s.withTable o = .next t) :
    t = { s with ht := t.ht } := by
  cases o <;> simp only [State.withTable, reduceCtorEq] at h
  cases h; rfl

/-- FIND changes the encoder's registers only (R157). -/
theorem execFind_frame {s t : State} (h : execFind s = .next t) : t = { s with enc := t.enc } := by
  unfold execFind at h
  (repeat' split at h) <;> cases h <;> rfl

/-- An emit changes the encoder's registers and `OUT` only (R180 to R182). -/
theorem emitBest_frame {s t : State} (h : emitBest s = .next t) :
    t = { s with enc := t.enc, out := t.out } := by
  unfold emitBest execEmitLit execEmitRef2 execEmitRef3 at h
  (repeat' split at h) <;> cases h <;> rfl

/-- An encoder step changes the encoder's registers, the table and `OUT` only (R177). -/
theorem encoderStep_frame {s t : State} (h : encoderStep s = .next t) :
    t = { s with enc := t.enc, ht := t.ht, out := t.out } := by
  simp only [encoderStep, andThen_eq_next_iff, advanceEncoder] at h
  obtain ⟨s1, h1, s2, h2, s3, h3, s5, ⟨s4, h4, h5⟩, h6⟩ := h
  have e1 : s1 = { s with enc := s1.enc, out := s1.out } := by
    unfold openIfClosed execGroupOpen at h1
    split at h1 <;> cases h1 <;> rfl
  have e5 : s5 = { s4 with enc.gidx := s4.enc.gidx + 1 } := (Host.Outcome.next.inj h5).symm
  have e6 : t = { s5 with enc := t.enc, out := t.out } := by
    unfold closeIfComplete execGroupClose at h6
    (repeat' split at h6) <;> cases h6 <;> rfl
  rw [e6, e5, State.withTable_next h4, emitBest_frame h3, execFind_frame h2, e1]

end Sys2Proof.Machine
end

