-- ==== Sys2Proof/Laws/Engine.lean ====
section
/-! SUPPORT. The commands and the engine's step: the bytes a header read sees, the header step of a decompress
command, its replay over a chunk list, and the phases of a step. -/

namespace Sys2Proof.Machine

/-- The spaces of the state after power-on are in canonical form (10_state.md R49). -/
theorem reset_memory_wf : State.reset.src.wf ∧ State.reset.out.wf ∧ State.reset.stream.wf ∧
    State.reset.dst.wf ∧ State.reset.ht.wf := by decide

/-! ### One lemma per phase of the step (log 1) -/

theorem step_idle {s : State} (h : s.phase = .idle) : step s = idleStep s := by
  simp only [step, engineStep, h]

theorem step_probe {s : State} (h : s.phase = .probe) : step s = probeStep s := by
  simp only [step, engineStep, h]

theorem step_header {s : State} {form : DecForm} (h : s.phase = .header form) :
    step s = headerStep form s := by
  simp only [step, engineStep, h]

theorem step_replay {s : State} {form : DecForm} (h : s.phase = .replay form) :
    step s = if s.dec.wp < s.dec.dlen.toNat then itemStep s else finishReplay form s := by
  simp only [step, engineStep, h]

theorem step_encode {s : State} (h : s.phase = .encode) :
    step s = if s.enc.off < s.enc.slen then encoderStep s else finishCompress s := by
  simp only [step, engineStep, h]

theorem step_issued {s : State} {op : CmdOp} (h : issued op s) : step s = acceptCommand op s := by
  simp only [step_idle h.1, idleStep, h.2.1, h.2.2, if_true]

/-! ### The header step -/

/-- A reader opened on a byte list sees its first `HEADER_SIZE` bytes as the header window. -/
theorem headerWindow_ofBytes {s : State} {bs : List Byte} (h1 : s.rd.buf = .stream)
    (h2 : s.stream = Memory.ofBytes bs) (h3 : s.rd.len = bs.length) (h4 : s.rd.pos = 0) :
    s.headerWindow = bs.take s.params.headerSize := by
  simp [State.headerWindow, State.bufMem, h1, h2, h3, h4, Memory.readUpTo_ofBytes]

/-- The header step of a decompress command on a buffer that begins with a header record (R203). -/
theorem headerStep_found (form : DecForm) {s : State} {size align : BitVec 32} {r body : List Byte}
    (hr : r.length = s.params.reservedLen)
    (hin : s.cmd.input = encode (.hdr size align r) ++ body) :
    headerStep form (startDecompress form s) =
      headerFound form ((startDecompress form s).loadHeader size align r) := by
  have hl : (encode (.hdr size align r)).length = s.params.headerSize := by
    rw [encode_hdr_length, hr]
  have hw : (startDecompress form s).headerWindow = encode (.hdr size align r) := by
    rw [headerWindow_ofBytes (bs := s.cmd.input) rfl rfl rfl rfl, hin, startDecompress_params, ← hl,
      List.take_left]
  have hd := decodeHeader_encode (p := s.params) size align [] hr
  rw [List.append_nil] at hd
  simp [headerStep, readHeader, hw, decode, hd, execHdr]

/-- The header step of a checked decompress command on a buffer that is too short or without the magic
(R231). -/
theorem headerStep_absent (form : DecForm) {s : State} (hf : modeOf form = .checked)
    (hb : s.cmd.input.length < s.params.headerSize ∨ s.cmd.input.take 4 ≠ [0x59#8, 0x61#8, 0x7A#8, 0x30#8]) :
    ∃ k, headerStep form (startDecompress form s) =
      .next (((startDecompress form s).advance k).takeFault .malformedHeader) := by
  have hw : (startDecompress form s).headerWindow = s.cmd.input.take s.params.headerSize :=
    headerWindow_ofBytes rfl rfl rfl rfl
  have hb' : (s.cmd.input.take s.params.headerSize).length < s.params.headerSize ∨
      (s.cmd.input.take s.params.headerSize).take 4 ≠ [0x59#8, 0x61#8, 0x7A#8, 0x30#8] := by
    rw [List.take_take, Nat.min_eq_left (by simp only [Config.Params.headerSize]; omega)]
    simpa using hb
  obtain ⟨why, hd⟩ := (decodeHeader_rejected_iff s.params _).2 hb'
  rcases readHeader_cases (s := startDecompress form s) (Memory.ofBytes_holds _) (headerFound form)
    headerAbsent with ⟨a, b, r, rest, h1, -⟩ | ⟨-, k, -, h⟩
  · rw [hw, startDecompress_params, decode, hd] at h1
    cases h1
  · refine ⟨k, h.trans ?_⟩
    rw [headerAbsent, State.advance_mode, startDecompress_mode, hf]

/-! ### The replay of a whole command over a chunk list -/

/-- A decompress command whose header is accepted, on the stream of a legal chunk list: the replay reaches
the end with the destination full and the cursor at the end of the body. -/
theorem replayAndFinish_chunks (form : DecForm) {s : State} {size align : BitVec 32}
    {r trailing : List Byte} {spare : Byte} {cs : List Chunk} (hr : r.length = s.params.reservedLen)
    (hl : legalChunks size.toNat 0 cs = true)
    (hin : s.cmd.input = streamBytes size align r spare cs trailing) :
    ∃ t, replayAndFinish (setUpReplay form ((startDecompress form s).loadHeader size align r)) =
        finishReplay form t ∧
      t.dst = Memory.ofBytes (expandChunks cs) ∧ (expandChunks cs).length = size.toNat ∧
      t.dec.dlen = size ∧ t.rd.pos + trailing.length = s.cmd.input.length ∧ t.mode = modeOf form := by
  have hle : (encode (.hdr size align r)).length = s.params.headerSize := by
    rw [encode_hdr_length, hr]
  have hst : Standing (setUpReplay form ((startDecompress form s).loadHeader size align r)) []
      (([] : List Chunk).flatMap (fun x => encode x.instr) ++ assembleGroups spare cs.length cs ++
        trailing) := by
    refine ⟨rfl, rfl, ⟨encode (.hdr size align r), ?_, ?_, ?_⟩, rfl, rfl⟩
    · simp [hin, streamBytes, assembleBody]
    · simp [hle]
    · simp [hin, streamBytes, assembleBody]
  obtain ⟨t, h1, h2, h3, h4⟩ := replayLoop_chunks
    (State.replayBound (setUpReplay form ((startDecompress form s).loadHeader size align r)))
    (k := 8) hst (Nat.le_refl _) rfl (by simp) (by simp) (by simp [groupFlag]) hl
    (by simp [State.replayBound])
  have hd : t.dec.dlen = size := h3.2
  refine ⟨t, ?_, h2.dst, ?_, hd, ?_, by rw [h3.1]; rfl⟩
  · simp only [replayAndFinish, setUpReplay_phase, h1, andThen_next, h2.on, if_true]
  · rw [← hd, ← h4]
    exact h2.wp.symm
  · obtain ⟨pre, -, q2, q3⟩ := h2.stream
    have hlen : t.rd.len = s.cmd.input.length := by rw [h3.1]; rfl
    rw [← hlen, q3, q2]
    simp

end Sys2Proof.Machine
end

