-- ==== Sys2Proof/Laws/Stream.lean ====
section
/-! SUPPORT. What COMPRESS writes, as a chunk list (43_compressor.md R177 to R187): the bytes of groups, the
flag byte under construction, and the encoder step by chunks. -/

namespace Sys2Proof.Machine

/-! ### Bytes of groups -/

/-- The code bytes of chunks without their flag bytes. -/
def codeBytes (g : List Chunk) : List Byte := g.flatMap fun x => encode x.instr

/-- Groups after whole groups (30_encoding.md R90, R92). -/
theorem assembleGroups_append (spare : Byte) {n m k : Nat} {done g : List Chunk}
    (hd : done.length = 8 * k) (hg : g ≠ []) (hg' : g.length ≤ 8) (hn : done.length ≤ n)
    (hm : (done ++ g).length ≤ m) :
    assembleGroups spare m (done ++ g) =
      assembleGroups spare n done ++ groupFlag spare 0 g :: codeBytes g := by
  induction k generalizing done n m with
  | zero =>
    obtain rfl : done = [] := List.eq_nil_of_length_eq_zero (by omega)
    cases g with
    | nil => exact absurd rfl hg
    | cons c g =>
      cases m with
      | zero => simp at hm
      | succ m =>
        rw [assembleGroups_nil, List.nil_append, assembleGroups]
        simp only [List.take_of_length_le hg', List.drop_eq_nil_of_le hg', assembleGroups_nil,
          codeBytes, List.append_nil, List.nil_append]
  | succ k ih =>
    cases done with
    | nil => simp at hd
    | cons c done =>
      have hlen : 8 ≤ (c :: done).length := by omega
      cases m with
      | zero => simp at hm
      | succ m =>
        cases n with
        | zero => simp at hn
        | succ n =>
          have e1 : ((c :: done) ++ g).take 8 = (c :: done).take 8 := List.take_append_of_le_length hlen
          have e2 : ((c :: done) ++ g).drop 8 = (c :: done).drop 8 ++ g := List.drop_append_of_le_length hlen
          have hi := ih (n := n) (m := m) (done := (c :: done).drop 8) (by simp at hd ⊢; omega)
            (by simp at hn ⊢; omega) (by simp at hm ⊢; omega)
          rw [List.cons_append] at e1 e2 ⊢
          simp only [assembleGroups]
          rw [e1, e2, hi]
          simp

/-- The flag byte of a group with one chunk more (R180). -/
theorem groupFlag_snoc (i : Nat) (g : List Chunk) (c : Chunk) :
    groupFlag 0#8 i (g ++ [c]) =
      groupFlag 0#8 i g ||| (if c.isLit then 0x80#8 >>> (i + g.length) else 0#8) := by
  induction g generalizing i with
  | nil => cases c <;> simp [groupFlag, Chunk.isLit]
  | cons x g ih =>
    cases x with
    | lit b => simp [groupFlag, ih, Nat.add_assoc, Nat.add_comm 1, BitVec.or_assoc]
    | ref d l => simp [groupFlag, ih, Nat.add_assoc, Nat.add_comm 1]

/-- A byte overwritten inside a byte list. -/
theorem Memory.write_ofBytes_inside (xs ys : List Byte) (b b' : Byte) :
    (Memory.ofBytes (xs ++ b :: ys)).write xs.length b' = Memory.ofBytes (xs ++ b' :: ys) := by
  apply Memory.ext_of_wf (Memory.write_wf (Memory.ofBytes_wf _) _ _) (Memory.ofBytes_wf _)
  intro a
  rw [Memory.read_write, Memory.read_ofBytes, Memory.read_ofBytes, List.getElem?_append,
    List.getElem?_append]
  split
  · rename_i h; simp [h]
  · split
    · rfl
    · obtain ⟨j, hj⟩ : ∃ j, a - xs.length = j + 1 := ⟨a - xs.length - 1, by omega⟩
      simp [hj]

/-- Bytes appended to a byte list. -/
theorem Memory.writeAll_ofBytes_end (xs ys : List Byte) :
    (Memory.ofBytes xs).writeAll xs.length ys = Memory.ofBytes (xs ++ ys) := by
  induction ys generalizing xs with
  | nil => simp [Memory.writeAll]
  | cons y ys ih =>
    rw [Memory.writeAll, Memory.write_ofBytes_end]
    have := ih (xs ++ [y])
    simpa using this

/-! ### A copy inside the source (20_memory.md R75) -/

/-- A match in the source copies the source's own bytes. -/
theorem appendCopy_take {l : List Byte} {b off len : Nat} (hb : b < off)
    (hn : off + len ≤ l.length) (hm : ∀ i, i < len → l[b + i]? = l[off + i]?) :
    appendCopy (off - b) len (l.take off) = l.take (off + len) := by
  induction len generalizing b off with
  | zero => rfl
  | succ len ih =>
    have hlen : (l.take off).length = off := by simp; omega
    have hone : ((l.take off).drop ((l.take off).length - (off - b))).take 1 = [l[off]] := by
      rw [hlen, show off - (off - b) = b by omega, List.drop_eq_getElem_cons (by omega)]
      have := hm 0 (by omega)
      rw [Nat.add_zero, Nat.add_zero, List.getElem?_eq_getElem (by omega),
        List.getElem?_eq_getElem (by omega)] at this
      simpa using this
    have hnext : l.take off ++ [l[off]] = l.take (off + 1) := by
      rw [List.take_add_one, List.getElem?_eq_getElem (by omega)]
      rfl
    have := ih (b := b + 1) (off := off + 1) (by omega) (by omega) (fun i hi => by
      have := hm (i + 1) (by omega)
      rwa [Nat.add_assoc, Nat.add_comm 1 i, Nat.add_assoc, Nat.add_comm 1 i])
    rw [appendCopy, hone, hnext, show off - b = off + 1 - (b + 1) by omega, this]
    congr 1
    omega

/-! ### The encoder step by chunks -/

/-- COMPRESS of `l` has emitted the chunks of the closed groups `done` and of the open group `g`. -/
structure Emitted (s : State) (l head : List Byte) (done g : List Chunk) : Prop where
  inv : EncodeInv s
  table : s.ht.wf
  src : s.src = Memory.ofBytes l
  slen : s.enc.slen = l.length
  whole : s.enc.off < s.enc.slen → ∃ k, done.length = 8 * k
  expands : expandChunks (done ++ g) = l.take s.enc.off
  legal : ∀ rest, legalChunks l.length 0 (done ++ g ++ rest) = legalChunks l.length s.enc.off rest
  closed : s.enc.gopen = false → g = [] ∧
    s.out = Memory.ofBytes (head ++ assembleGroups 0#8 done.length done)
  opened : s.enc.gopen = true → s.enc.gidx = g.length ∧ g ≠ [] ∧ s.enc.gflag = groupFlag 0#8 0 g ∧
    s.enc.gslot = (head ++ assembleGroups 0#8 done.length done).length ∧
    s.out = Memory.ofBytes (head ++ assembleGroups 0#8 done.length done ++ 0#8 :: codeBytes g)

/-- An output that holds a byte list is as long as it. -/
theorem holds_ofBytes_length {bs : List Byte} {n : Nat} (h : (Memory.ofBytes bs).holds n) :
    n = bs.length := by
  have h1 : (Memory.ofBytes bs).map Prod.fst = List.range n := h
  have h2 : (Memory.ofBytes bs).map Prod.fst = List.range bs.length := Memory.ofBytes_holds bs
  have := congrArg List.length (h1.symm.trans h2)
  simpa using this

/-- One encoder step emits one chunk more (R177), and keeps the invariant of the encoder. -/
theorem encoderStep_emits {s : State} {l head : List Byte} {done g : List Chunk}
    (h : Emitted s l head done g) (ho : s.enc.off < s.enc.slen) :
    ∃ t done' g', encoderStep s = .next t ∧ Emitted t l head done' g' ∧
      s.enc.off < t.enc.off ∧ t.enc.off ≤ s.enc.off + 273 ∧ t.enc.gidx ≤ 8 ∧
      t = { s with enc := t.enc, ht := t.ht, out := t.out } := by
  have hi := h.inv
  -- the group
  obtain ⟨s1, h1, o1, g1, l1, e1⟩ :=
    openIfClosed_next (fun hg => ⟨(hi.group hg).1, (hi.group hg).2.1⟩) hi.out
  have hs1 : s1.enc.gidx = g.length ∧ s1.enc.gflag = groupFlag 0#8 0 g ∧
      s1.enc.gslot = (head ++ assembleGroups 0#8 done.length done).length ∧
      s1.out = Memory.ofBytes (head ++ assembleGroups 0#8 done.length done ++ 0#8 :: codeBytes g) := by
    by_cases hg : s.enc.gopen = true
    · simp only [openIfClosed, if_pos hg, Host.Outcome.next.injEq] at h1
      subst h1
      obtain ⟨a, -, b, c, d⟩ := h.opened hg
      exact ⟨a, b, c, d⟩
    · simp only [openIfClosed, if_neg hg, execGroupOpen, Host.Outcome.next.injEq] at h1
      subst h1
      obtain ⟨rfl, hout⟩ := h.closed (by simpa using hg)
      have hop := hi.out
      rw [hout] at hop
      have hlen := holds_ofBytes_length hop
      refine ⟨rfl, by simp [groupFlag], hlen, ?_⟩
      rw [State.openGroup_out, hout, hlen, Memory.writeAll_ofBytes_end]
      rfl
  obtain ⟨f1, f2, f3, f4⟩ := hs1
  obtain ⟨y1, y2, y3, y4, y5⟩ : s1.src = s.src ∧ s1.ht = s.ht ∧ s1.enc.off = s.enc.off ∧
      s1.enc.slen = s.enc.slen ∧ s1.enc.gopen = true := by rw [e1]; simp
  -- the search
  obtain ⟨e, h2, e2, b2⟩ := find_settled (s := s1) (by rw [y1, y4]; exact hi.src)
    (by rw [y1, y2, y3, y4]; exact hi.settled)
  obtain ⟨x1, x2, x3, x4, x5, x6, x7⟩ : e.off = s1.enc.off ∧ e.slen = s1.enc.slen ∧
      e.op = s1.enc.op ∧ e.gidx = s1.enc.gidx ∧ e.gslot = s1.enc.gslot ∧ e.gopen = s1.enc.gopen ∧
      e.gflag = s1.enc.gflag := by rw [e2]; simp
  rw [y1, y3, y4] at b2
  -- the emit
  obtain ⟨s3, bs, h3, o3, hh3, p1, p2, p3, p4, e3⟩ := emitBest_next (s := { s1 with enc := e })
    (by simp only; rw [x2, y1, y4]; exact hi.src) (by simp only; rw [x3]; exact o1)
    (by simp only; rw [x1, x2, y3, y4]; exact ho) (by
      simp only
      rw [x1, x2, y3, y4]
      rcases b2 with b2 | ⟨b1, b2, b3, b4, b5, -⟩
      · exact .inl b2
      · exact .inr ⟨b1, b2, b3, b4, b5⟩)
  simp only at o3 p3 p4
  rw [x1, x2, y3, y4] at p3
  rw [x1, x4, x7, y1, y3] at p4
  obtain ⟨z1, z2, z3, z4, z5, z6, z7, z8⟩ : s3.src = s1.src ∧ s3.ht = s1.ht ∧ s3.enc.off = e.off ∧
      s3.enc.slen = e.slen ∧ s3.enc.gidx = e.gidx ∧ s3.enc.gslot = e.gslot ∧
      s3.enc.op = e.op + bs.length ∧ s3.enc.gopen = e.gopen := by rw [e3]; simp
  -- the chunk
  obtain ⟨c, hc1, hc2, hc3, hc4, hc5⟩ : ∃ c : Chunk, bs = encode c.instr ∧
      s3.enc.gflag = groupFlag 0#8 0 (g ++ [c]) ∧ c.size = s3.enc.processed ∧
      c.legal s.enc.off l.length = true ∧
      c.apply (l.take s.enc.off) = l.take (s.enc.off + s3.enc.processed) := by
    have hol : s.enc.off < l.length := by rw [← h.slen]; exact ho
    rcases p4 with ⟨b, q0, q1, q2, q3, q4⟩ | ⟨q1, q2, q3, q4⟩
    · refine ⟨.lit b, q2, ?_, q3.symm, by simpa [Chunk.legal] using hol, ?_⟩
      · rw [q4, groupFlag_snoc, ← f2, Nat.zero_add, ← f1]
        simp [Chunk.isLit, setLiteral, literalMask]
      · rw [h.src, Memory.read_ofBytes] at q1
        rw [q3, List.take_add_one, q1]
        rfl
    · rcases b2 with b2 | ⟨b1, b2, b3, b4, b5, b6⟩
      · omega
      · rw [h.slen] at b3
        refine ⟨.ref (s.enc.off - e.bestOff) e.bestLen, q4, ?_, q2.symm, ?_, ?_⟩
        · rw [q3, groupFlag_snoc, ← f2]
          simp [Chunk.isLit]
        · simp only [Chunk.legal, decide_eq_true_eq]
          simp only [Config.windowSize, Config.minMatchLen, Config.maxMatchLen]
          omega
        · rw [q2]
          refine appendCopy_take b4 b3 fun i hi' => ?_
          have := b6 i hi'
          rw [h.src, Memory.read_ofBytes, Memory.read_ofBytes] at this
          exact this
  -- the advance
  obtain ⟨s4, h4, w4, st4, e4⟩ := advanceEncoder_next (s := s3)
    (by rw [z1, z4, x2, y1, y4]; exact hi.src) (by rw [z2, y2]; exact h.table)
    (by rw [z1, z2, z3, z4, x1, x2, y1, y2, y3, y4]; exact hi.settled) p2
  obtain ⟨u1, u2, u3, u4, u5, u6, u7, u8, u9⟩ : s4.src = s3.src ∧ s4.out = s3.out ∧
      s4.enc.op = s3.enc.op ∧ s4.enc.gslot = s3.enc.gslot ∧
      s4.enc.off = s3.enc.off + s3.enc.processed ∧ s4.enc.gidx = s3.enc.gidx + 1 ∧
      s4.enc.slen = s3.enc.slen ∧ s4.enc.gopen = s3.enc.gopen ∧ s4.enc.gflag = s3.enc.gflag := by
    rw [e4]; simp
  -- the close
  obtain ⟨s5, h5, o5, e5, c5, d5⟩ := closeIfComplete_next (s := s4) (by rw [u2, u3]; exact hh3)
    (by rw [u3, u4, z6, z7, x5, x3]; omega)
  obtain ⟨v1, v2, v3, v4, v5, v6, v7, v8⟩ : s5.src = s4.src ∧ s5.ht = s4.ht ∧
      s5.enc.op = s4.enc.op ∧ s5.enc.gslot = s4.enc.gslot ∧ s5.enc.off = s4.enc.off ∧
      s5.enc.gidx = s4.enc.gidx ∧ s5.enc.slen = s4.enc.slen ∧ s5.enc.gflag = s4.enc.gflag := by
    rw [e5]; simp
  have k1 : s4.enc.slen = s.enc.slen := by rw [u7, z4, x2, y4]
  have k2 : s4.enc.off = s.enc.off + s3.enc.processed := by rw [u5, z3, x1, y3]
  have k3 : s4.src = s.src := by rw [u1, z1, y1]
  have k4 : s4.enc.gidx = g.length + 1 := by rw [u6, z5, x4, f1]
  have k5 : s4.enc.gslot = (head ++ assembleGroups 0#8 done.length done).length := by
    rw [u4, z6, x5, f3]
  have k6 : s4.enc.gflag = groupFlag 0#8 0 (g ++ [c]) := by rw [u9, hc2]
  have k7 : s4.out = Memory.ofBytes
      (head ++ assembleGroups 0#8 done.length done ++ 0#8 :: codeBytes (g ++ [c])) := by
    have hlen := o1
    rw [f4] at hlen
    rw [u2, o3, x3, holds_ofBytes_length hlen, f4, Memory.writeAll_ofBytes_end, hc1]
    simp [codeBytes]
  have hg8 : g.length < 8 := by rw [← f1]; exact g1
  have hinv : EncodeInv s5 := by
    refine ⟨?_, ?_, ?_, ?_, ?_, ?_⟩
    · rw [v7, v5, k1, k2]; exact p3
    · rw [v7, k1]; exact hi.slen
    · rw [v1, v7, k3, k1]; exact hi.src
    · rw [v3]; exact o5
    · intro hg
      have hn : ¬(s4.enc.gidx = 8 ∨ s4.enc.off = s4.enc.slen) := fun hc => by
        rw [(c5 hc).1] at hg; cases hg
      rw [v6, v5, v4, v3, v7]
      rw [k1, k2] at hn
      refine ⟨by rw [k4]; simp only [Config.groupChunks]; omega, ?_, by rw [k1, k2]; omega⟩
      rw [u3, u4, z6, z7, x5, x3]; omega
    · rw [v1, v7, v5, v2, k3, k1, k2]
      rw [z1, z4, z3, x2, x1, y1, y4, y3] at st4
      exact st4
  have hexp : expandChunks (done ++ (g ++ [c])) = l.take s5.enc.off := by
    rw [v5, k2, ← hc5, ← h.expands, ← List.append_assoc]
    simp [expandChunks]
  have hleg : ∀ rest, legalChunks l.length 0 (done ++ (g ++ [c]) ++ rest) =
      legalChunks l.length s5.enc.off rest := by
    intro rest
    have := h.legal (c :: rest)
    rw [show done ++ (g ++ [c]) ++ rest = done ++ g ++ c :: rest by simp, this, legalChunks, hc4,
      v5, k2, hc3]
    rfl
  have hstep : encoderStep s = .next s5 := by
    simp only [encoderStep, h1, h2, h3, h4, h5, andThen_next]
  have hw5 : s5.ht.wf := by rw [v2]; exact w4
  have hs5 : s5.src = Memory.ofBytes l := by rw [v1, k3]; exact h.src
  have hl5 : s5.enc.slen = l.length := by rw [v7, k1]; exact h.slen
  have hoff : s5.enc.off = s.enc.off + s3.enc.processed := by rw [v5, k2]
  have hframe : s5 = { s with enc := s5.enc, ht := s5.ht, out := s5.out } := by
    rw [e5, e4, e3, e1]
  by_cases hcl : s4.enc.gidx = 8 ∨ s4.enc.off = s4.enc.slen
  · obtain ⟨m1, m2⟩ := c5 hcl
    have hout : s5.out = Memory.ofBytes (head ++
        assembleGroups 0#8 (done ++ (g ++ [c])).length (done ++ (g ++ [c]))) := by
      obtain ⟨k, hk⟩ := h.whole ho
      rw [m2, k7, k5, Memory.write_ofBytes_inside, k6,
        assembleGroups_append 0#8 (n := done.length) hk (by simp) (by simp; omega) (Nat.le_refl _)
          (Nat.le_refl _), List.append_assoc]
    obtain ⟨k, hk⟩ := h.whole ho
    refine ⟨s5, done ++ (g ++ [c]), [], hstep, ⟨hinv, hw5, hs5, hl5, ?_, ?_, ?_, ?_, ?_⟩,
      by omega, by omega, by rw [v6, k4]; omega, hframe⟩
    · intro hlt
      rw [v5, v7] at hlt
      refine ⟨k + 1, ?_⟩
      simp
      omega
    · rw [List.append_nil]; exact hexp
    · intro rest; rw [List.append_nil]; exact hleg rest
    · exact fun _ => ⟨rfl, hout⟩
    · intro hg; rw [m1] at hg; cases hg
  · have hs : s5 = s4 := d5 hcl
    have hgo : s5.enc.gopen = true := by rw [hs, u8, z8, x6, y5]
    refine ⟨s5, done, g ++ [c], hstep, ⟨hinv, hw5, hs5, hl5, fun _ => h.whole ho, hexp, hleg, ?_, ?_⟩,
      by omega, by omega, by rw [v6, k4]; omega, hframe⟩
    · intro hg; rw [hgo] at hg; cases hg
    · intro _
      refine ⟨by rw [hs, k4]; simp, by simp, by rw [hs, k6], by rw [hs, k5], by rw [hs, k7]⟩

/-! ### The end and the loop (R185, R186) -/

/-- At the end of the source COMPRESS ends DONE with the head and the body of what it has emitted. -/
theorem finishCompress_emits {s : State} {l head : List Byte} {done g : List Chunk}
    (h : Emitted s l head done g) (ho : s.enc.off = s.enc.slen) :
    ∃ cs, finishCompress s = .next (s.finish (.bytes (head ++ assembleBody 0#8 cs))) ∧
      legalChunks l.length 0 cs = true ∧ expandChunks cs = l := by
  have hg : s.enc.gopen = false := by
    cases hg : s.enc.gopen
    · rfl
    · have := (h.inv.group hg).2.2
      omega
  obtain ⟨rfl, hout⟩ := h.closed hg
  have hlen := h.inv.out
  rw [hout] at hlen
  have hop := holds_ofBytes_length hlen
  refine ⟨done, ?_, ?_, ?_⟩
  · rw [finishCompress, hout, hop, Memory.readSpan_ofBytes _ _ _ (by omega), List.drop_zero,
      List.take_length]
    rfl
  · have := h.legal []
    rw [List.append_nil, List.append_nil, ho, h.slen] at this
    rw [this]
    simp [legalChunks]
  · have := h.expands
    rwa [List.append_nil, ho, h.slen, List.take_length] at this

/-- The main loop to its end, whatever bound covers the bytes that are left. -/
theorem compressLoop_emits {l head : List Byte} (n : Nat) : ∀ {s : State} {done g : List Chunk},
    Emitted s l head done g → s.enc.slen - s.enc.off ≤ n →
    ∃ t cs, compressLoop n s = .next t ∧ t.status = ⟨.done, none⟩ ∧ t.phase = .idle ∧
      t.res = .bytes (head ++ assembleBody 0#8 cs) ∧ legalChunks l.length 0 cs = true ∧
      expandChunks cs = l := by
  have fin : ∀ {s : State} {done g : List Chunk}, Emitted s l head done g →
      s.enc.off = s.enc.slen → ∃ t cs, finishCompress s = .next t ∧ t.status = ⟨.done, none⟩ ∧
        t.phase = .idle ∧ t.res = .bytes (head ++ assembleBody 0#8 cs) ∧
        legalChunks l.length 0 cs = true ∧ expandChunks cs = l := by
    intro s done g h ho
    obtain ⟨cs, h1, h2, h3⟩ := finishCompress_emits h ho
    exact ⟨_, cs, h1, rfl, rfl, rfl, h2, h3⟩
  induction n with
  | zero =>
    intro s done g h hn
    have ho : s.enc.off = s.enc.slen := by have := h.inv.off; omega
    rw [compressLoop, if_neg (by omega)]
    exact fin h ho
  | succ n ih =>
    intro s done g h hn
    by_cases ho : s.enc.off < s.enc.slen
    · obtain ⟨t, d, g', h1, h2, h3, -⟩ := encoderStep_emits h ho
      have hlen : t.enc.slen = s.enc.slen := by rw [h2.slen, h.slen]
      rw [compressLoop, if_pos ho, h1, andThen_next]
      exact ih h2 (by omega)
    · rw [compressLoop, if_neg ho]
      exact fin h (by have := h.inv.off; omega)

/-- COMPRESS starts with the header emitted and no chunk (R176; 10_state.md R48). -/
theorem startCompress_emits {s : State} (hl : s.cmd.input.length < Config.sourceLimit) :
    ∃ t, startCompress s = .next t ∧ t.enc.off = 0 ∧ t.enc.slen = s.cmd.input.length ∧
      Emitted t s.cmd.input (headerBytes s.params (BitVec.ofNat 32 s.cmd.input.length) s.cmd.align) [] [] := by
  refine ⟨(s.loadSource.begin .encode).appendOut
    (headerBytes s.params (BitVec.ofNat 32 s.cmd.input.length) s.cmd.align), ?_, rfl, rfl, ?_⟩
  · rw [startCompress, if_pos hl]
    rfl
  · refine ⟨⟨Nat.zero_le _, hl, Memory.ofBytes_holds _, appendOut_holds rfl _, ?_, ?_⟩,
      ⟨List.Pairwise.nil, by simp⟩, rfl, rfl, fun _ => ⟨0, rfl⟩, rfl, fun _ => rfl, fun _ => ⟨rfl, ?_⟩, ?_⟩
    · simp
    · intro k; simp [windowPositions]
    · have := Memory.writeAll_ofBytes_end []
        (headerBytes s.params (BitVec.ofNat 32 s.cmd.input.length) s.cmd.align)
      rw [List.nil_append] at this
      rw [assembleGroups_nil, List.append_nil, ← this]
      simp only [State.appendOut_out, State.begin_out, State.begin_enc, State.loadSource_out,
        State.loadSource_enc_op, List.length_nil]
      rfl
    · simp

end Sys2Proof.Machine
end

