-- ==== Sys2Proof/Tests/Slice0.lean ====
section
/-! SUPPORT. Tests: the smoke test of well-formedness, decoding of words written out from the spec's layouts,
one step on a small state for every instruction (expected values from 95_test_vectors.md, whose numbers
stand in the names), and a witness for the hypotheses of every statement. -/

namespace Sys2Proof.Tests

open Sys2Proof Sys2Proof.Machine

/-! ### Small states -/

/-- The header record at the default size of 16 (00_scope.md R14), zero reserved bytes. -/
abbrev header16 (size align : BitVec 32) : List Byte := headerBytes Config.defaultParams size align

/-- A state with other parameters: `HEADER_SIZE = 12 + reserved`, `DST_CAPACITY = capacity` (R14, D23). -/
def withParams (reserved capacity : Nat) (s : State) : State := { s with params := ⟨reserved, capacity⟩ }

/-- `s` with a command written. -/
def withInput (op : CmdOp) (input : List Byte) (dest : Option DestRef := none) : State :=
  { State.reset with cmd := ⟨some op, 0#32, 7, input, dest⟩, cmdPending := true }

/-- A reader over `12 34 56 78 9A` (95_test_vectors.md section 3). -/
def reading (pos : Nat) (e : Endian) : State :=
  { State.reset with
    stream := Memory.ofBytes [0x12#8, 0x34#8, 0x56#8, 0x78#8, 0x9A#8]
    streamLen := 5
    rd := ⟨.stream, 5, pos, e⟩ }

/-- A replay that has written `out` of `dlen` bytes, with `items` left of its stream. -/
def replayingAt (out items : List Byte) (dlen : BitVec 32) (cnt : Nat) (flag : BitVec 8)
    (mode : Mode := .checked) : State :=
  { State.reset with
    status := ⟨.running, none⟩
    phase := .replay (match mode with | .checked => .alloc | .trusted => .unsafeAlloc)
    mode := mode
    stream := Memory.ofBytes (header16 dlen 0#32 ++ items)
    streamLen := 16 + items.length
    rd := ⟨.stream, 16 + items.length, 16, .big⟩
    dst := Memory.ofBytes out
    dec := { State.reset.dec with wp := out.length, dlen := dlen, cnt := cnt, flag := flag } }

/-- The encoder over a source at an offset with a table. -/
def encoding (src : List Byte) (off : Nat) (ht : HashTable) : State :=
  { State.reset with
    src := Memory.ofBytes src
    ht := ht
    enc := { State.reset.enc with slen := src.length, off := off } }

/-- The encoder with a match found (95_test_vectors.md: vectors E30 to E33). -/
def matched (off bestOff bestLen : Nat) : State :=
  { State.reset with
    enc := { State.reset.enc with off := off, bestOff := bestOff, bestLen := bestLen } }

/-- COMPRESS at its first encoder step. -/
def compressing (input : List Byte) : State :=
  (({ State.reset with cmd.input := input } : State).loadSource.begin .encode).appendOut
    (header16 (BitVec.ofNat 32 input.length) 0#32)

/-- `H(5)` and the body of vector DV1. -/
def streamDV1 : List Byte := header16 5#32 0#32 ++ [0x80#8, 0x41#8, 0x20#8, 0x00#8]

/-- The chunks of vector DV1: LIT, REF d=1 l=4. -/
def chunksDV1 : List Chunk := [.lit 0x41#8, .ref 1 4]

/-- The registers FIND and the emits are tested by. -/
def found (o : Result) : Option (Nat × Nat) :=
  (nextState? o).map fun t => (t.enc.bestOff, t.enc.bestLen)

/-- What an emit appended to an empty `OUT`, with `PROCESSED`. -/
def emitted (o : Result) : Option (Memory × Nat) :=
  (nextState? o).map fun t => (t.out, t.enc.processed)

/-- What a read returned, and the cursor. -/
def readOf (o : Result) : Option (Ret × Nat) :=
  (nextState? o).map fun t => (t.ret, t.rd.pos)

/-- `STATUS` and `RES`. -/
def ending (o : Result) : Option (Status × Res) :=
  (nextState? o).map fun t => (t.status, t.res)

/-! ### Well-formedness: one ill-formed term for each check -/

theorem test_wf_ref2_nibble_zero : (Instr.ref2 0#4 5#12).wellFormed Config.defaultParams = false := by decide
theorem test_wf_ref2 : (Instr.ref2 1#4 5#12).wellFormed Config.defaultParams = true := by decide
theorem test_wf_hdr_short : (Instr.hdr 5#32 0#32 [0#8, 0#8, 0#8]).wellFormed Config.defaultParams = false := by decide
theorem test_wf_hdr : (Instr.hdr 5#32 0#32 [0#8, 0#8, 0#8, 0#8]).wellFormed Config.defaultParams = true := by decide
theorem test_wf_update_empty : (Instr.htUpdate 4 4).wellFormed Config.defaultParams = false := by decide
theorem test_wf_update_long : (Instr.htUpdate 4 278).wellFormed Config.defaultParams = false := by decide
theorem test_wf_update : (Instr.htUpdate 4 277).wellFormed Config.defaultParams = true := by decide

/-! ### Decoding: words from the layouts of 30_encoding.md R91 to R97, bit by bit -/

/-- R93: `abcdefgh`, `a` is bit 7. -/
theorem test_decode_grp : decodeTableWord 8 0b10110101 = some (.grp 0xB5#8) := by decide
/-- R95: `bbbbbbbb`, when the decoder state selects a literal. -/
theorem test_decode_lit : decode Config.defaultParams .literal [0b01000001#8, 0xFF#8] = .ok (.lit 0x41#8) [0xFF#8] := by decide
/-- R96: `nnnndddd dddddddd`; `n = 2`, `dfield = 0x123`. -/
theorem test_decode_ref2 : decodeTableWord 16 0b0010000100100011 = some (.ref2 2#4 0x123#12) := by decide
/-- R97: `0000dddd dddddddd eeeeeeee`; `dfield = 0x801`, `e = 0x14`. -/
theorem test_decode_ref3 :
    decodeTableWord 24 0b000010000000000100010100 = some (.ref3 0x801#12 0x14#8) := by decide
/-- R91: the magic, two big-endian fields, the reserved bytes (vector H2's fields, H5's reserved bytes). -/
theorem test_decode_hdr : decodeTableWord 128 0x59617A30000003E800002000DEADBEEF
    = some (.hdr 1000#32 0x2000#32 [0xDE#8, 0xAD#8, 0xBE#8, 0xEF#8]) := by decide
/-- Vectors H7 and H6. -/
theorem test_decode_hdr_magic : decodeTableWord 128 0x59617A31000003E80000200000000000 = none := by decide
theorem test_decode_truncated :
    decode Config.defaultParams .reference [0x00#8, 0x01#8] = .rejected .truncated ∧
      decode Config.defaultParams .reference [0x20#8] = .rejected .truncated ∧ decode Config.defaultParams .flag [] = .rejected .truncated := by
  decide
/-- 30_encoding.md R100's codes: 95_test_vectors.md E30 and E33. -/
theorem test_encode_match : encode (Chunk.ref 4096 3).instr = [0x1F#8, 0xFF#8] ∧
    encode (Chunk.ref 4096 273).instr = [0x0F#8, 0xFF#8, 0xFF#8] := by decide

/-- The word of a row runs as the first instruction after reset. -/
theorem test_fetch_grp : (nextState? (step (State.reset.withFetchWord 8 0x80))).map
    (fun t => (t.dec.flag, t.dec.cnt, t.rd.pos)) = some (0x80#8, 8, 17) := by decide
theorem test_fetch_hdr :
    (nextState? (step (State.reset.withFetchWord 128 0x59617A300000000500000000DEADBEEF))).map
      (fun t => (t.hdr.size, t.rd.pos, t.phase)) = some (5#32, 16, .replay .alloc) := by decide

/-! ### Stream items -/

theorem test_grp : (nextState? (exec (.grp 0xC0#8) (replayingAt [] [0xC0#8] 3#32 0 0#8))).map
    (fun t => (t.dec.flag, t.dec.cnt, t.rd.pos, t.dec.wp)) = some (0xC0#8, 8, 17, 0) := by decide
/-- Vector DV2's second literal. -/
theorem test_lit : (nextState? (exec (.lit 0x42#8) (replayingAt [0x41#8] [0x42#8] 10#32 7 0x80#8))).map
    (fun t => (t.dst, t.dec.wp, t.rd.pos, t.dec.flag, t.dec.cnt))
      = some (Memory.ofBytes [0x41#8, 0x42#8], 2, 17, 0x00#8, 6) := by decide
/-- Vector DV2's match, `60 01`: `DIST = 2`, `LEN = 8`. -/
theorem test_ref2 : (nextState? (exec (.ref2 6#4 1#12)
    (replayingAt [0x41#8, 0x42#8] [0x60#8, 0x01#8] 10#32 6 0x00#8))).map (fun t => (t.dst, t.dec.wp))
      = some (Memory.ofBytes [0x41#8, 0x42#8, 0x41#8, 0x42#8, 0x41#8, 0x42#8, 0x41#8, 0x42#8,
        0x41#8, 0x42#8], 10) := by decide
/-- Vector X10's match: `DIST = 2 > WP = 1`. -/
theorem test_ref2_corrupt : (nextState? (exec (.ref2 1#4 1#12)
    (replayingAt [0x41#8] [0x10#8, 0x01#8] 4#32 7 0x00#8))).map (fun t => (t.status, t.dec.wp))
      = some (⟨.faulted, some .corruptCopy⟩, 1) := by decide
/-- Vector DV4's match, `00 00 00`: `LEN = 18`. -/
theorem test_ref3 : (nextState? (exec (.ref3 0#12 0#8)
    (replayingAt [0x78#8] [0x00#8, 0x00#8, 0x00#8] 19#32 7 0x00#8))).map (fun t => (t.dst, t.dec.len))
      = some (Memory.ofBytes (List.replicate 19 0x78#8), 18#9) := by decide
/-- Vector X13's match: `DIST = 4096`, `LEN = 18`. -/
theorem test_ref3_corrupt : (nextState? (exec (.ref3 0xFFF#12 0#8)
    (replayingAt [0x41#8] [0x0F#8, 0xFF#8, 0x00#8] 30#32 7 0x00#8))).map
      (fun t => (t.status, t.dec.dist, t.dec.len))
      = some (⟨.faulted, some .corruptCopy⟩, 4096#13, 18#9) := by decide
/-- Vector X12: the read of the missing third byte comes before the check. -/
theorem test_truncated_ref3 :
    (nextState? (step (replayingAt [0x41#8] [0x0F#8, 0xFF#8] 30#32 7 0x00#8))).map
      (fun t => (t.status, t.phase, t.rd.pos))
      = some (⟨.faulted, some .truncatedStream⟩, .idle, 18) := by decide
/-- R212 with `DIST = 1`, `LEN = 3` in their registers. -/
theorem test_copy : (nextState? (exec .copy
    { replayingAt [0x41#8] [] 4#32 0 0#8 with dec.dist := 1#13, dec.len := 3#9 })).map
      (fun t => (t.dst, t.dec.wp, t.dec.csrc))
      = some (Memory.ofBytes [0x41#8, 0x41#8, 0x41#8, 0x41#8], 4, 3) := by decide
/-- Vector DV1 from REPLAY on. -/
theorem test_replay : (nextState? (exec .replay
    (replayingAt [] [0x80#8, 0x41#8, 0x20#8, 0x00#8] 5#32 3 0x11#8))).map (fun t => (t.dst, t.rd.pos))
      = some (Memory.ofBytes (List.replicate 5 0x41#8), 20) := by decide

/-! ### Header unit and commands -/

/-- Vector H3. -/
theorem test_write_header : (nextState? (exec (.writeHeader 0xFFFFFFFF#32 0x80000001#32) State.reset)).map
    (fun t => (t.out, t.enc.op)) = some (Memory.ofBytes [0x59#8, 0x61#8, 0x7A#8, 0x30#8, 0xFF#8, 0xFF#8,
      0xFF#8, 0xFF#8, 0x80#8, 0x00#8, 0x00#8, 0x01#8, 0x00#8, 0x00#8, 0x00#8, 0x00#8], 16) := by decide
theorem test_hdr : (nextState? (exec (.hdr 5#32 1#32 [2#8, 3#8, 4#8, 5#8]) State.reset)).map
    (fun t => (t.hdr, t.rd.pos)) = some (⟨0x59617A30#32, 5#32, 1#32, [2#8, 3#8, 4#8, 5#8]⟩, 16) := by decide
/-- Vectors H4 and H6. -/
theorem test_parse_header : ending (exec .parseHeader (withInput .parseHeader (header16 1000#32 0x2000#32)))
    = some (⟨.done, none⟩, .header 1000#32 0x2000#32) := by decide
theorem test_parse_header_none :
    ending (exec .parseHeader (withInput .parseHeader ((header16 5#32 0#32).take 15)))
      = some (⟨.done, none⟩, .noHeader) := by decide
/-- Vectors E6 and E8. -/
theorem test_compress : ending (exec .compress (withInput .compress (List.replicate 5 0x41#8)))
    = some (⟨.done, none⟩, .bytes streamDV1) := by decide
theorem test_compress_long : ending (exec .compress (withInput .compress (List.replicate 19 0x78#8)))
    = some (⟨.done, none⟩, .bytes (header16 19#32 0#32 ++ [0x80#8, 0x78#8, 0#8, 0#8, 0#8])) := by decide
/-- Vectors DV1 and X6. -/
theorem test_decompress : ending (exec .decompress (withInput .decompress streamDV1))
    = some (⟨.done, none⟩, .bytes (List.replicate 5 0x41#8)) := by decide
/-- The same body behind a header of 12 bytes, on a machine whose `HEADER_SIZE` is 12 (R14, D3). -/
theorem test_decompress_header_size :
    ending (exec .decompress (withParams 0 5 (withInput .decompress
      (encode (.hdr 5#32 0#32 []) ++ [0x80#8, 0x41#8, 0x20#8, 0x00#8]))))
      = some (⟨.done, none⟩, .bytes (List.replicate 5 0x41#8)) := by decide
theorem test_decompress_truncated :
    ending (exec .decompress (withInput .decompress (header16 4#32 0#32 ++ [0x00#8, 0x10#8])))
      = some (⟨.faulted, some .truncatedStream⟩, .nothing) := by decide
/-- Vectors X16 and X14. -/
theorem test_decompress_into :
    (nextState? (exec .decompressInto (withInput .decompressInto streamDV1 (some ⟨5, false⟩)))).map
      (fun t => (t.status, t.res, t.dst))
      = some (⟨.done, none⟩, .destFilled, Memory.ofBytes (List.replicate 5 0x41#8)) := by decide
theorem test_decompress_into_small :
    ending (exec .decompressInto (withInput .decompressInto streamDV1 (some ⟨4, false⟩)))
      = some (⟨.faulted, some .insufficientDestination⟩, .nothing) := by decide
/-- Vectors X18 and X19 (on X4's stream). -/
theorem test_decompress_unsafe : ending (exec .decompressUnsafe (withInput .decompressUnsafe streamDV1))
    = some (⟨.done, none⟩, .bytes (List.replicate 5 0x41#8)) := by decide
theorem test_decompress_unsafe_refused :
    exec .decompressUnsafe (withInput .decompressUnsafe (header16 1#32 0#32))
      = .refused .trustedMalformed := by rfl

/-! ### Fetch unit: vectors F1 to F16 -/

theorem test_rd_open : (nextState? (exec (.rdOpen .stream .little) (reading 4 .big))).map (fun t => t.rd)
    = some ⟨.stream, 5, 0, .little⟩ := by decide
theorem test_F1 : readOf (exec .readU8 (reading 0 .big)) = some (.u8 0x12#8, 1) := by decide
theorem test_F10 : readOf (exec .readU8 (reading 5 .big)) = some (.insufficientData, 5) := by decide
theorem test_F3 : readOf (exec .readU16 (reading 0 .little)) = some (.u16 0x3412#16, 2) := by decide
theorem test_F9 : readOf (exec .readU16 (reading 4 .big)) = some (.insufficientData, 4) := by decide
theorem test_F4 : readOf (exec .readU24 (reading 1 .big)) = some (.u24 0x345678#32, 4) := by decide
theorem test_F5 : readOf (exec .readU24 (reading 1 .little)) = some (.u24 0x785634#32, 4) := by decide
theorem test_F6 : readOf (exec .readU32 (reading 0 .big)) = some (.u32 0x12345678#32, 4) := by decide
theorem test_F7 : readOf (exec .readU32 (reading 1 .little)) = some (.u32 0x9A785634#32, 5) := by decide
theorem test_F13 : readOf (exec (.readBytes 4) (reading 0 .little))
    = some (.bytes [0x12#8, 0x34#8, 0x56#8, 0x78#8], 4) := by decide
theorem test_F14 : readOf (exec (.readBytes 0) (reading 5 .big)) = some (.bytes [], 5) := by decide
theorem test_tell : readOf (exec .tell (reading 100 .big)) = some (.pos 100, 100) := by decide
theorem test_F11 : readOf (exec (.seek 100) (reading 0 .big)) = some (.nothing, 100) := by decide
theorem test_u8_unchecked : readOf (exec .readU8Unchecked (reading 4 .big)) = some (.u8 0x9A#8, 5) := by decide
theorem test_F16 : readOf (exec .readU16Unchecked (reading 3 .big)) = some (.u16 0x789A#16, 5) := by decide
theorem test_F15 : exec .readU16Unchecked (reading 4 .big) = .refused .uncheckedReadPastEnd := by rfl
theorem test_u24_unchecked : readOf (exec .readU24Unchecked (reading 2 .big)) = some (.u24 0x56789A#32, 5) := by
  decide
theorem test_u32_unchecked : readOf (exec .readU32Unchecked (reading 0 .little))
    = some (.u32 0x78563412#32, 4) := by decide

/-! ### Match finder: vectors M2, M5, T2, T5 -/

theorem test_M2 : found (exec .find (encoding (List.replicate 5 0x41#8) 1 [(0x414141#24, [0])]))
    = some (0, 4) := by decide
theorem test_M5 : found (exec .find (encoding [0x61#8, 0x62#8, 0x63#8, 0x64#8, 0x58#8, 0x61#8, 0x62#8,
    0x63#8, 0x59#8, 0x61#8, 0x62#8, 0x63#8, 0x64#8] 9 [(0x616263#24, [5, 0])])) = some (0, 4) := by decide
theorem test_T5 : (nextState? (exec (.htEvict 5000) (encoding [] 0 [(1#24, [4999, 904, 903]), (2#24, [7])]))).map
    (fun t => t.ht) = some [(1#24, [4999, 904])] := by decide
theorem test_insert : (nextState? (exec (.htInsert 2) (encoding (List.replicate 5 0x41#8) 1
    [(0x414141#24, [1, 0])]))).map (fun t => t.ht) = some [(0x414141#24, [2, 1, 0])] := by decide
theorem test_insert_skipped : (nextState? (exec (.htInsert 3) (encoding (List.replicate 5 0x41#8) 1 []))).map
    (fun t => t.ht) = some [] := by decide
theorem test_T2 : (nextState? (exec (.htUpdate 1 5) (encoding (List.replicate 5 0x41#8) 1
    [(0x414141#24, [0])]))).map (fun t => t.ht) = some [(0x414141#24, [2, 1, 0])] := by decide

/-! ### Encoder: vectors E30 to E34 -/

theorem test_group_open : (nextState? (exec .groupOpen (compressing [0x41#8]))).map
    (fun t => (t.out.read 16, t.enc.op, t.enc.gslot, t.enc.gopen)) = some (some 0#8, 17, 16, true) := by decide
theorem test_group_close : (nextState? (exec .groupClose { State.reset with
    out := Memory.ofBytes [0x00#8, 0x41#8], enc.op := 2, enc.gflag := 0x80#8, enc.gopen := true })).map
      (fun t => (t.out, t.enc.gopen)) = some (Memory.ofBytes [0x80#8, 0x41#8], false) := by decide
theorem test_E34 : (nextState? (exec .emitLit { encoding [0x7E#8] 0 [] with
    enc.slen := 1, enc.gidx := 3, enc.gflag := 0xA0#8 })).map (fun t => (t.out, t.enc.gflag, t.enc.processed))
      = some (Memory.ofBytes [0x7E#8], 0xB0#8, 1) := by decide
theorem test_E30 : emitted (exec .emitRef2 (matched 4096 0 3)) = some (Memory.ofBytes [0x1F#8, 0xFF#8], 3) := by
  decide
theorem test_E31 : emitted (exec .emitRef2 (matched 300 43 17)) = some (Memory.ofBytes [0xF1#8, 0x00#8], 17) := by
  decide
theorem test_E32 : emitted (exec .emitRef3 (matched 300 43 18))
    = some (Memory.ofBytes [0x01#8, 0x00#8, 0x00#8], 18) := by decide
theorem test_E33 : emitted (exec .emitRef3 (matched 5000 904 273))
    = some (Memory.ofBytes [0x0F#8, 0xFF#8, 0xFF#8], 273) := by decide

/-! ### Witnesses: concrete inputs that meet the hypotheses of each statement, at the ends of their ranges -/

theorem witness_DecodeOfEncodeIsTheInstruction :
    (Instr.ref2 15#4 0xFFF#12).wellFormed Config.defaultParams = true ∧ (Instr.ref2 15#4 0xFFF#12).ctx = some .reference ∧
    (Instr.ref3 0xFFF#12 0xFF#8).wellFormed Config.defaultParams = true ∧ (Instr.ref3 0xFFF#12 0xFF#8).ctx = some .reference ∧
    (Instr.grp 0xFF#8).wellFormed Config.defaultParams = true ∧ (Instr.grp 0xFF#8).ctx = some .flag ∧
    (Instr.lit 0xFF#8).wellFormed Config.defaultParams = true ∧ (Instr.lit 0xFF#8).ctx = some .literal ∧
    (Instr.hdr 0xFFFFFFFF#32 0#32 [1#8, 2#8, 3#8, 4#8]).wellFormed Config.defaultParams = true ∧
    (Instr.hdr 0xFFFFFFFF#32 0#32 [1#8, 2#8, 3#8, 4#8]).ctx = some .header := by decide

theorem witness_EncodeOfDecodeIsTheBytes :
    decode Config.defaultParams .reference [0x10#8, 0x00#8, 0xAA#8] = .ok (.ref2 1#4 0#12) [0xAA#8] ∧
    decode Config.defaultParams .reference [0x0F#8, 0xFF#8, 0xAA#8] = .ok (.ref3 0xFFF#12 0xAA#8) [] := by decide

theorem witness_EveryItemContextDecodes :
    Ctx.reference ≠ .header ∧ 3 ≤ [0x00#8, 0x00#8, 0x00#8].length := by decide

theorem witness_EveryMatchHasItsEncoding :
    (1 ≤ 1 ∧ 1 ≤ 4096 ∧ 3 ≤ 17 ∧ 17 ≤ 273) ∧ (1 ≤ 4096 ∧ 4096 ≤ 4096 ∧ 3 ≤ 18 ∧ 18 ≤ 273) ∧
    (3 ≤ 3 ∧ 3 ≤ 17) ∧ (3 ≤ 273 ∧ 273 ≤ 273) := by decide

theorem witness_StepRunsTheDecodedItem :
    let s := replayingAt [0x41#8] [0x20#8, 0x00#8] 5#32 7 0x00#8
    s.phase = .replay .alloc ∧ s.dec.wp < s.dec.dlen.toNat ∧
      decode s.params s.itemCtx s.itemWindow = .ok (.ref2 2#4 0#12) [] := by decide

/-- A state about to read the header of DV1's stream, in a phase. -/
def atHeader (phase : Phase) : State :=
  { State.reset with
    status := ⟨.running, none⟩
    phase := phase
    stream := Memory.ofBytes streamDV1
    streamLen := 20
    rd := ⟨.stream, 20, 0, .big⟩ }

theorem witness_StepRunsTheHeaderRecord :
    decode Config.defaultParams .header (atHeader .probe).headerWindow = .ok (.hdr 5#32 0#32 [0#8, 0#8, 0#8, 0#8]) [] ∧
    (atHeader .probe).phase = .probe ∧ (atHeader (.header .into)).phase = .header .into ∧
    decode Config.defaultParams .header (atHeader (.header .into)).headerWindow
      = .ok (.hdr 5#32 0#32 [0#8, 0#8, 0#8, 0#8]) [] := by decide

theorem replayingAt_inv (out items : List Byte) (dlen : BitVec 32) (cnt : Nat) (flag : BitVec 8)
    (h : out.length ≤ dlen.toNat) : ReplayInv .alloc (replayingAt out items dlen cnt flag) := by
  refine ⟨⟨rfl, rfl, rfl, by simp [replayingAt], ?_⟩, h, Memory.ofBytes_holds out, rfl,
    Nat.le_refl _, rfl⟩
  have := Memory.ofBytes_holds (header16 dlen 0#32 ++ items)
  rwa [List.length_append] at this

theorem witness_StepTakesTruncatedStream :
    let s := replayingAt [0x41#8] [0x0F#8, 0xFF#8] 30#32 7 0x00#8
    s.phase = .replay .alloc ∧ ReplayInv .alloc s ∧ s.mode = .checked ∧
      s.dec.wp < s.dec.dlen.toNat ∧ decode s.params s.itemCtx s.itemWindow = .rejected .truncated :=
  ⟨rfl, replayingAt_inv _ _ _ _ _ (by decide), rfl, by decide, by decide⟩

theorem witness_StepEndsTheFullReplay :
    let s := replayingAt [0x41#8, 0x42#8] [0xDE#8] 2#32 0 0x00#8
    (s.phase = .replay .alloc ∧ ReplayInv .alloc s ∧ s.dec.wp = s.dec.dlen.toNat) ∧
    ReplayInv .into s := by
  have h := replayingAt_inv [0x41#8, 0x42#8] [0xDE#8] 2#32 0 0x00#8 (by decide)
  exact ⟨⟨rfl, h, rfl⟩, ⟨h.toStreamOpen, h.wp, h.written, h.fresh, h.body, rfl⟩⟩

/-- The model's choice (log 28): an engine with no command in progress and none written waits. -/
theorem test_idle_engine_waits : step State.reset = .next State.reset := rfl

/-- The default parameters, and a header of 12 bytes that asks for exactly the capacity. -/
theorem witness_DecompressSetsUpTheReplay :
    (issued .decompress (withInput .decompress streamDV1) ∧
      [0#8, 0#8, 0#8, 0#8].length = State.reset.params.reservedLen ∧
      (5#32).toNat ≤ State.reset.params.dstCapacity ∧
      (withInput .decompress streamDV1).cmd.input
        = encode (.hdr 5#32 0#32 [0#8, 0#8, 0#8, 0#8]) ++ [0x80#8, 0x41#8, 0x20#8, 0x00#8]) ∧
    (let s := withParams 0 5 (withInput .decompress (encode (.hdr 5#32 0#32 []) ++ [0x80#8]))
     issued .decompress s ∧ ([] : List Byte).length = s.params.reservedLen ∧ (5#32).toNat ≤ s.params.dstCapacity) := by
  refine ⟨⟨⟨rfl, rfl, rfl⟩, rfl, by decide, by decide⟩, ⟨rfl, rfl, rfl⟩, rfl, by decide⟩

theorem witness_CompressStartsWithTheHeader :
    issued .compress (withInput .compress [0x41#8]) ∧
    (withInput .compress [0x41#8]).cmd.input.length < 4294967296 :=
  ⟨⟨rfl, rfl, rfl⟩, by decide⟩

theorem witness_GrpLoadsTheFlag :
    let s := replayingAt [] [0x80#8] 1#32 0 0#8
    s.replaying = true ∧ s.dec.wp < s.dec.dlen.toNat ∧ s.dec.cnt = 0 := by decide

theorem witness_LitWritesOneByte :
    let s := replayingAt [] [0x41#8] 1#32 1 0x80#8
    s.replaying = true ∧ s.dec.wp < s.dec.dlen.toNat ∧ 0 < s.dec.cnt ∧
      s.dec.flag.getLsbD 7 = true := by decide

theorem awaits_replayingAt {out items : List Byte} {dlen : BitVec 32} {cnt : Nat} (mode : Mode)
    (h1 : out.length < dlen.toNat) (h2 : 0 < cnt) :
    awaitsReference (replayingAt out items dlen cnt 0x7F#8 mode) :=
  ⟨rfl, h1, h2, show (0x7F#8).getLsbD 7 = false by decide⟩

theorem sourceWritten_replayingAt (out items : List Byte) (dlen : BitVec 32) (cnt : Nat)
    (flag : BitVec 8) (dist : Nat) : sourceWritten (replayingAt out items dlen cnt flag) dist := by
  intro a _ ha
  exact (Memory.holds_isSome_iff (Memory.ofBytes_holds out) a).2 ha

/-- Both ends: the source is `DST[0]` and the copy ends at `DLEN` (vector DV6). -/
theorem witness_Ref2CopiesBehind :
    let s := replayingAt [0x41#8, 0x42#8] [0x10#8, 0x01#8] 5#32 6 0x7F#8
    (1#4 ≠ 0#4) ∧ awaitsReference s ∧ (1#12).toNat + 1 ≤ s.dec.wp ∧
      s.dec.wp + ((1#4).toNat + 2) ≤ s.dec.dlen.toNat ∧ sourceWritten s ((1#12).toNat + 1) :=
  ⟨by decide, awaits_replayingAt .checked (by decide) (by decide), by decide, by decide,
    sourceWritten_replayingAt _ _ _ _ _ _⟩

theorem witness_Ref3CopiesBehind :
    let s := replayingAt [0x78#8] [0x00#8, 0x00#8, 0xFF#8] 274#32 7 0x7F#8
    awaitsReference s ∧ (0#12).toNat + 1 ≤ s.dec.wp ∧
      s.dec.wp + ((0xFF#8).toNat + 18) ≤ s.dec.dlen.toNat ∧ sourceWritten s ((0#12).toNat + 1) :=
  ⟨awaits_replayingAt .checked (by decide) (by decide), by decide, by decide,
    sourceWritten_replayingAt _ _ _ _ _ _⟩

/-- COPY about to run, with one byte of four written. -/
def copying (dist : BitVec 13) (len : BitVec 9) (mode : Mode) : State :=
  { replayingAt [0x41#8] [] 4#32 0 0#8 mode with dec.dist := dist, dec.len := len }

/-- COPY past the end of `DST`: refused in trusted mode, not a fault (20_memory.md R82, U1). -/
theorem test_copy_trusted_outside :
    exec .copy (copying 1#13 4#9 .trusted) = .refused .trustedMalformed := rfl

theorem witness_CopyRepeatsTheBytesBehind :
    let s := copying 1#13 3#9 .checked
    1 ≤ s.dec.dist.toNat ∧ s.dec.dist.toNat ≤ s.dec.wp ∧
      s.dec.wp + s.dec.len.toNat ≤ s.dec.dlen.toNat ∧ sourceWritten s s.dec.dist.toNat :=
  ⟨by decide, by decide, by decide, fun a _ ha =>
    (Memory.holds_isSome_iff (Memory.ofBytes_holds [0x41#8]) a).2 ha⟩

/-- One byte too far behind, and one byte too long, in either mode (vectors X10, X11, X13); COPY likewise. -/
theorem witness_MatchOutOfBoundsFaultsOrIsRefused :
    (let s := replayingAt [0x41#8] [0x10#8, 0x01#8] 4#32 7 0x7F#8 .checked
     awaitsReference s ∧ s.mode = .checked ∧ (1#4 ≠ 0#4) ∧ s.dec.wp < (1#12).toNat + 1) ∧
    (let s := replayingAt [0x41#8] [0x20#8, 0x00#8] 4#32 7 0x7F#8 .trusted
     awaitsReference s ∧ s.mode = .trusted ∧ s.dec.dlen.toNat < s.dec.wp + ((2#4).toNat + 2)) ∧
    (let s := replayingAt [0x41#8] [0x0F#8, 0xFF#8, 0x00#8] 30#32 7 0x7F#8 .checked
     awaitsReference s ∧ s.mode = .checked ∧ s.dec.wp < (0xFFF#12).toNat + 1) ∧
    (let s := copying 2#13 3#9 .trusted
     s.mode = .trusted ∧ s.dec.wp < s.dec.dist.toNat) ∧
    (let s := copying 1#13 4#9 .checked
     s.mode = .checked ∧ 0 < s.dec.len.toNat ∧ s.dec.dlen.toNat < s.dec.wp + s.dec.len.toNat) :=
  ⟨⟨awaits_replayingAt _ (by decide) (by decide), rfl, by decide, by decide⟩,
    ⟨awaits_replayingAt _ (by decide) (by decide), rfl, by decide⟩,
    ⟨awaits_replayingAt _ (by decide) (by decide), rfl, by decide⟩,
    ⟨rfl, by decide⟩, ⟨rfl, by decide, by decide⟩⟩

theorem witness_ItemsRunWhenSelectedAndLeaveTheRest :
    (Instr.lit 0x41#8).ctx = some .literal ∧ Ctx.literal ≠ .header ∧
    exec (.lit 0x41#8) (replayingAt [] [0x41#8] 1#32 1 0x80#8)
      = .next (((replayingAt [] [0x41#8] 1#32 1 0x80#8).advance 1).putDst 0x41#8).chunkDone :=
  ⟨rfl, by decide, rfl⟩

theorem witness_FlagBitsGoMostSignificantFirst : (0 < 8) ∧ (7 < 8) := by decide

/-- DV1's stream with the flag byte `BF` of DV8 and the trailing bytes of DV7; and the empty one. -/
theorem witness_legal_stream :
    legalChunks (5#32).toNat 0 chunksDV1 = true ∧ expandChunks chunksDV1 = List.replicate 5 0x41#8 ∧
    streamBytes 5#32 0#32 [0#8, 0#8, 0#8, 0#8] 0x3F#8 chunksDV1 [0xDE#8, 0xAD#8]
      = header16 5#32 0#32 ++ [0xBF#8, 0x41#8, 0x20#8, 0x00#8, 0xDE#8, 0xAD#8] ∧
    legalChunks (0#32).toNat 0 [] = true ∧
    streamBytes 0#32 0#32 [0#8, 0#8, 0#8, 0#8] 0#8 [] [] = header16 0#32 0#32 := by decide

theorem witness_DecompressExpandsEveryLegalStream :
    let s := withInput .decompress
      (streamBytes 5#32 0#32 [0#8, 0#8, 0#8, 0#8] 0x3F#8 chunksDV1 [0xDE#8, 0xAD#8])
    s.phase = .idle ∧ [0#8, 0#8, 0#8, 0#8].length = s.params.reservedLen ∧
      (5#32).toNat ≤ s.params.dstCapacity ∧ legalChunks (5#32).toNat 0 chunksDV1 = true := by decide

theorem witness_DecompressIntoFillsTheDestination :
    let s := withInput .decompressInto
      (streamBytes 5#32 0#32 [0#8, 0#8, 0#8, 0#8] 0#8 chunksDV1 []) (some ⟨(5#32).toNat, false⟩)
    s.phase = .idle ∧ legalChunks (5#32).toNat 0 chunksDV1 = true ∧
      s.cmd.dest = some ⟨(5#32).toNat, false⟩ := by decide

theorem witness_UnsafeAgreesWithCheckedOrIsRefused :
    (withInput .decompressUnsafe streamDV1).phase = .idle ∧
    ending (exec .decompress (withInput .decompressUnsafe streamDV1))
      = some (⟨.done, none⟩, .bytes (List.replicate 5 0x41#8)) ∧
    ending (exec .decompress (withInput .decompressUnsafe (header16 1#32 0#32)))
      = some (⟨.faulted, some .truncatedStream⟩, .nothing) := by decide

theorem witness_ReplayExpandsEveryLegalStream :
    let s := replayingAt [] (assembleBody 0#8 chunksDV1) 5#32 3 0x11#8
    s.phase = .replay .alloc ∧ s.rd.buf = .stream ∧ s.rd.len = s.streamLen ∧ s.dst = [] ∧
      s.dstSpoiled = none ∧ s.dec.dlen = 5#32 ∧ legalChunks (5#32).toNat 0 chunksDV1 = true ∧
      s.stream = Memory.ofBytes (streamBytes 5#32 0#32 [0#8, 0#8, 0#8, 0#8] 0#8 chunksDV1 []) ∧
      s.streamLen = (streamBytes 5#32 0#32 [0#8, 0#8, 0#8, 0#8] 0#8 chunksDV1 []).length := by decide

/-- One byte short at either header size, and one bit of the magic off (vectors X1, X2), with a destination. -/
theorem witness_NoHeaderTakesMalformedHeader :
    ((header16 5#32 0#32).take 15).length < State.reset.params.headerSize ∧
    ((header16 5#32 0#32).take 11).length < (withParams 0 5 State.reset).params.headerSize ∧
    ([0x59#8, 0x61#8, 0x7A#8, 0x31#8] ++ List.replicate 12 0#8).take 4
      ≠ [0x59#8, 0x61#8, 0x7A#8, 0x30#8] ∧
    (withInput .decompressInto ((header16 5#32 0#32).take 15) (some ⟨4, false⟩)).cmd.dest
      = some ⟨4, false⟩ := by decide

/-- One byte too few and one too many (vectors X14, X15). -/
theorem witness_WrongDestinationLengthIsInsufficient :
    (withInput .decompressInto streamDV1 (some ⟨4, false⟩)).phase = .idle ∧
    streamDV1 = encode (.hdr 5#32 0#32 [0#8, 0#8, 0#8, 0#8]) ++ [0x80#8, 0x41#8, 0x20#8, 0x00#8] ∧
    4 ≠ (5#32).toNat ∧ 6 ≠ (5#32).toNat := by decide

/-- A command that was issued and not yet taken up: the host cannot issue another (60_exceptions.md R251). -/
theorem test_host_issues_once (cmd : Cmd) :
    (State.reset.hostIssue ⟨some .compress, 0#32, 7, [], none⟩ []).isSome = true ∧
    (withInput .compress [0x41#8]).hostIssue cmd [] = none := ⟨rfl, rfl⟩

theorem witness_CommandsRefusedAtTheStart :
    (withInput .decompressInto streamDV1 (some ⟨5, true⟩)).cmd.dest = some ⟨5, true⟩ ∧
    (atHeader .probe).phase ≠ .idle ∧
    4294967296 ≤ (withInput .compress (List.replicate 4294967296 0#8)).cmd.input.length ∧
    (let s := withParams 4 4 (withInput .decompress streamDV1)
     s.phase = .idle ∧ s.cmd.input
       = encode (.hdr 5#32 0#32 [0#8, 0#8, 0#8, 0#8]) ++ [0x80#8, 0x41#8, 0x20#8, 0x00#8] ∧
     s.params.dstCapacity < (5#32).toNat) ∧
    (withInput .compress [0x41#8]).cmdPending = true := by
  refine ⟨rfl, by decide, ?_, by decide, rfl⟩
  show 4294967296 ≤ (List.replicate 4294967296 0#8).length
  rw [List.length_replicate]

/-- The command that ends and the one whose header asks for too much. -/
theorem witness_DecompressAlwaysEnds : State.reset.phase = .idle ∧
    exec .decompress (withParams 4 4 (withInput .decompress streamDV1))
      = .refused .destinationTooLarge := ⟨rfl, rfl⟩

/-- The four clauses: too short by one byte, no magic, exactly `HEADER_SIZE` bytes, what WRITE_HEADER
writes. -/
theorem witness_ParseHeaderReadsTheRecordOrNone :
    ((header16 5#32 0#32).take 15).length < State.reset.params.headerSize ∧
    ([0x79#8, 0x61#8, 0x7A#8, 0x30#8] ++ List.replicate 12 0#8).take 4
      ≠ [0x59#8, 0x61#8, 0x7A#8, 0x30#8] ∧
    State.reset.params.headerSize ≤ (header16 0xFFFFFFFF#32 0#32).length ∧
    (header16 0xFFFFFFFF#32 0#32).take 4 = [0x59#8, 0x61#8, 0x7A#8, 0x30#8] ∧
    (let s := withParams 0 5 (withInput .parseHeader (encode (.hdr 5#32 1#32 [])))
     s.params.headerSize ≤ s.cmd.input.length) ∧
    (withInput .parseHeader (header16 0xFFFFFFFF#32 0#32)).cmd.input
      = header16 0xFFFFFFFF#32 0#32 ++ [] := by decide

theorem witness_RdOpenOpensAtZero : State.reset.bufLen .stream = 0 ∧ 0 < 3 ∧
    (Instr.readU24 = .readU24 ∧ 3 = 3) := by decide

/-- The first byte, and reads that end exactly at the end. -/
theorem witness_CheckedReadsReturnTheValue :
    (let s := reading 4 .big
     (s.bufMem s.rd.buf).readSpan s.rd.pos 1 = some [0x9A#8] ∧ s.rd.pos + 1 ≤ s.rd.len) ∧
    (let s := reading 3 .little
     (s.bufMem s.rd.buf).readSpan s.rd.pos 2 = some [0x78#8, 0x9A#8] ∧ s.rd.pos + 2 ≤ s.rd.len) ∧
    (let s := reading 2 .big
     (s.bufMem s.rd.buf).readSpan s.rd.pos 3 = some [0x56#8, 0x78#8, 0x9A#8] ∧
       s.rd.pos + 3 ≤ s.rd.len) ∧
    (let s := reading 1 .little
     (s.bufMem s.rd.buf).readSpan s.rd.pos 4 = some [0x34#8, 0x56#8, 0x78#8, 0x9A#8] ∧
       s.rd.pos + 4 ≤ s.rd.len) ∧
    (let s := reading 5 .big
     (s.bufMem s.rd.buf).readSpan s.rd.pos 0 = some [] ∧ s.rd.pos + 0 ≤ s.rd.len) := by decide

/-- One byte too far, READ_BYTES(0) beyond the end (log 33) and at the end, and just in range. -/
theorem witness_CheckedReadsPastTheEndFail :
    (reading 2 .big).rd.len < (reading 2 .big).rd.pos + 4 ∧
    (Instr.readBytes 0 = .readBytes 0 ∧ (reading 6 .big).rd.len < (reading 6 .big).rd.pos + 0 ∧
      exec (.readBytes 0) (reading 6 .big)
        = .next { reading 6 .big with ret := .insufficientData }) ∧
    (reading 5 .big).rd.pos + 0 ≤ (reading 5 .big).rd.len ∧
    ((reading 1 .big).rd.pos + 4 ≤ (reading 1 .big).rd.len ∧
      readOf (exec .readU32 (reading 1 .big)) = some (.u32 0x3456789A#32, 5)) :=
  ⟨by decide, ⟨rfl, by decide, rfl⟩, by decide, by decide, by decide⟩

theorem witness_UncheckedReadsAgreeOrAreRefused :
    (let s := reading 3 .big
     (s.bufMem s.rd.buf).readSpan s.rd.pos 2 = some [0x78#8, 0x9A#8] ∧ s.rd.pos + 2 ≤ s.rd.len) ∧
    (reading 4 .big).rd.len < (reading 4 .big).rd.pos + 2 := by decide

theorem witness_SeekSetsTheCursor : (reading 0 .big).rd.len ≤ (reading 0 .big).rd.len ∧ 0 < 1 := by decide

/-- Two bytes left (vector M3); three left and no bucket (vector M1). -/
theorem witness_FindWithoutCandidatesReportsZero :
    (let s := encoding (List.replicate 3 0x41#8) 1 [(0x414141#24, [0])]
     s.enc.slen < s.enc.off + 3) ∧
    (let s := encoding (List.replicate 3 0x41#8) 0 []
     s.enc.off + 3 ≤ s.enc.slen ∧ keyAt s.src s.enc.off = some 0x414141#24 ∧
       s.ht.bucket 0x414141#24 = []) := by decide

/-- Vector M4's shape: two candidates, the key read at the very end of the source. -/
theorem witness_FindReturnsTheNearestLongestMatch :
    let s := encoding (List.replicate 5 0x41#8) 2 [(0x414141#24, [1, 0])]
    s.src.holds s.enc.slen ∧ s.enc.off + 3 ≤ s.enc.slen ∧
      keyAt s.src s.enc.off = some 0x414141#24 ∧ s.ht.bucket 0x414141#24 ≠ [] ∧
      ∀ c ∈ s.ht.bucket 0x414141#24, c < s.enc.off ∧ keyAt s.src c = some 0x414141#24 := by decide

theorem witness_EvictKeepsTheWindow :
    HashTable.wf [(0x414141#24, [4999, 904, 903]), (0x787878#24, [7])] := by decide

/-- The last position that is inserted and the first that is skipped (vector T2). -/
theorem witness_InsertPutsThePositionInFront :
    let s := encoding (List.replicate 5 0x41#8) 1 [(0x414141#24, [1, 0])]
    s.ht.wf ∧ s.enc.slen ≤ 3 + 2 ∧ 2 + 2 < s.enc.slen ∧ keyAt s.src 2 = some 0x414141#24 := by decide

theorem witness_UpdateInsertsTheCoveredPositions :
    let s := encoding (List.replicate 5 0x41#8) 1 [(0x414141#24, [0])]
    s.ht.wf ∧ s.src.holds s.enc.slen ∧ 1 ≤ 5 ∧ ∀ x ∈ s.ht, x.2.length ≤ 128 := by decide

theorem witness_EvictionMayFollowInsertion :
    let s := encoding (List.replicate 5 0x41#8) 1 [(0x414141#24, [0])]
    s.ht.wf ∧ s.src.holds s.enc.slen ∧ 1 < 5 ∧ 5 ≤ 1 + 273 ∧
      ∀ x ∈ s.ht, x.2.Pairwise (· > ·) ∧ x.2.length ≤ 128 ∧ ∀ p ∈ x.2, p < 1 := by decide

theorem witness_GroupCloseWritesTheFlag :
    let s := { State.reset with out := Memory.ofBytes [0x00#8], enc.op := 1 }
    s.enc.gslot < s.enc.op := by decide

/-- The first and the last place of a group. -/
theorem witness_EmitLitAppendsTheByte :
    let s := encoding [0x7E#8] 0 []
    s.enc.off < s.enc.slen ∧ s.src.read s.enc.off = some 0x7E#8 ∧ s.enc.gidx < 8 ∧ 7 < 8 := by decide

/-- The nearest and the farthest match, the shortest and the longest of each code (vectors E30 to E33). -/
theorem witness_EmitRef2AppendsTheCode :
    ((matched 4096 0 3).enc.bestOff < (matched 4096 0 3).enc.off ∧
      (matched 4096 0 3).enc.off ≤ (matched 4096 0 3).enc.bestOff + 4096 ∧
      3 ≤ (matched 4096 0 3).enc.bestLen ∧ (matched 4096 0 3).enc.bestLen ≤ 17) ∧
    ((matched 1 0 17).enc.bestOff < (matched 1 0 17).enc.off ∧ (matched 1 0 17).enc.bestLen ≤ 17) := by
  decide

theorem witness_EmitRef3AppendsTheCode :
    ((matched 5000 904 273).enc.bestOff < (matched 5000 904 273).enc.off ∧
      (matched 5000 904 273).enc.off ≤ (matched 5000 904 273).enc.bestOff + 4096 ∧
      18 ≤ (matched 5000 904 273).enc.bestLen) ∧
    18 ≤ (matched 300 43 18).enc.bestLen := by decide

theorem compressing_inv (input : List Byte) (h : input.length < 4294967296) :
    EncodeInv (compressing input) ∧ (compressing input).ht.wf := by
  refine ⟨⟨Nat.zero_le _, h, Memory.ofBytes_holds _, appendOut_holds rfl _, ?_, ?_⟩, ?_⟩
  · simp [compressing]
  · intro k; simp [compressing, windowPositions]
  · exact ⟨List.Pairwise.nil, by simp [compressing]⟩

theorem witness_EncoderStepRunsItsOperationsInOrder :
    (compressing [0x41#8]).phase = .encode ∧
    (compressing [0x41#8]).enc.off < (compressing [0x41#8]).enc.slen := by decide

theorem witness_EncoderStepKeepsTheTableSettled :
    let s := compressing [0x41#8]
    s.phase = .encode ∧ EncodeInv s ∧ s.ht.wf ∧ s.enc.off < s.enc.slen :=
  ⟨rfl, (compressing_inv _ (by decide)).1, (compressing_inv _ (by decide)).2, by decide⟩

theorem witness_CompressWritesALegalStreamOfTheSource :
    State.reset.phase = .idle ∧ State.reset.cmd.input.length < 4294967296 := by decide

theorem witness_CompressRoundTrips :
    (withInput .compress (List.replicate 5 0x41#8)).phase = .idle ∧
    ending (exec .compress (withInput .compress (List.replicate 5 0x41#8)))
      = some (⟨.done, none⟩, .bytes streamDV1) ∧
    (withInput .decompress streamDV1).phase = .idle ∧
    (withInput .decompress streamDV1).cmd.input = streamDV1 ∧
    (withInput .decompress streamDV1).params.reservedLen = State.reset.params.reservedLen ∧
    5 ≤ (withInput .decompress streamDV1).params.dstCapacity := by decide

/-- The empty source and a source of one byte (vectors E1, E2). -/
theorem witness_CompressOutputLengthIsBounded :
    ending (exec .compress (withInput .compress [])) = some (⟨.done, none⟩, .bytes (header16 0#32 0#32)) ∧
    ending (exec .compress (withInput .compress [0x41#8]))
      = some (⟨.done, none⟩, .bytes (header16 1#32 0#32 ++ [0x80#8, 0x41#8])) := by decide

/-- The invariant in a replay and in the encoder. -/
theorem inv_replaying : Inv (replayingAt [0x41#8] [0x20#8, 0x00#8] 5#32 7 0x00#8) := by
  refine ⟨by decide, by decide, Memory.ofBytes_wf _, Memory.ofBytes_wf _, by decide, by decide,
    by decide, by decide, by decide, by decide, ?_⟩
  exact replayingAt_inv _ _ _ _ _ (by decide)

theorem inv_compressing : Inv (compressing [0x41#8]) := by
  have h := compressing_inv [0x41#8] (by decide)
  refine ⟨Memory.ofBytes_wf _, Memory.holds_wf h.1.out, by decide, by decide, h.2, by decide, by decide,
    by decide, by decide, by decide, ?_⟩
  exact h.1

/-- An idle engine that a fault has left, with nothing pending. -/
def faulted : State := { State.reset with status := ⟨.faulted, some .corruptCopy⟩, dstSpoiled := some 3 }

theorem inv_faulted : Inv faulted :=
  ⟨by decide, by decide, by decide, by decide, by decide, by decide, by decide, by decide, by decide,
    by decide, trivial⟩

/-- Steps in a replay and in the encoder; the host's move after a fault, without and with a destination. -/
theorem witness_StepKeepsTheInvariant :
    (Inv (replayingAt [0x41#8] [0x20#8, 0x00#8] 5#32 7 0x00#8) ∧
      (nextState? (step (replayingAt [0x41#8] [0x20#8, 0x00#8] 5#32 7 0x00#8))).isSome = true) ∧
    (Inv (compressing [0x41#8]) ∧ (nextState? (step (compressing [0x41#8]))).isSome = true) ∧
    (Inv faulted ∧ faulted.phase = .idle ∧ faulted.cmdPending = false) ∧
    (faulted.hostIssue ⟨some .decompress, 0#32, 7, [0x59#8], none⟩ []).map
      (fun t => (t.cmdPending, t.dstSpoiled)) = some (true, some 3) ∧
    (faulted.hostIssue ⟨some .decompressInto, 0#32, 7, [0x59#8], some ⟨1, false⟩⟩ [0x41#8]).map
      (fun t => (t.dst, t.dstSpoiled)) = some ([(0, 0x41#8)], none) :=
  ⟨⟨inv_replaying, by decide⟩, ⟨inv_compressing, by decide⟩, ⟨inv_faulted, rfl, rfl⟩, by decide, by decide⟩

theorem witness_InvariantStatesNeverFault :
    Inv (replayingAt [0x41#8] [0x20#8, 0x00#8] 5#32 7 0x00#8) ∧ Inv (compressing [0x41#8]) :=
  ⟨inv_replaying, inv_compressing⟩

theorem witness_CheckedReplayEndsInTime :
    let s := replayingAt [0x41#8] [0x20#8, 0x00#8] 5#32 7 0x00#8
    Inv s ∧ s.phase = .replay .alloc ∧ s.mode = .checked := ⟨inv_replaying, rfl, rfl⟩

theorem witness_StepsComeToTheWholeCommand :
    issued .parseHeader (withInput .parseHeader streamDV1) ∧
    issued .compress (withInput .compress [0x41#8]) ∧
    issued .decompress (withInput .decompress streamDV1) ∧
    issued .decompressInto (withInput .decompressInto streamDV1 (some ⟨5, false⟩)) ∧
    issued .decompressUnsafe (withInput .decompressUnsafe streamDV1) :=
  ⟨⟨rfl, rfl, rfl⟩, ⟨rfl, rfl, rfl⟩, ⟨rfl, rfl, rfl⟩, ⟨rfl, rfl, rfl⟩, ⟨rfl, rfl, rfl⟩⟩

/-- Two states that share nothing but the input, the alignment and the destination reference. -/
theorem witness_ResultsDependOnTheInputsOnly :
    let s := withInput .decompressInto streamDV1 (some ⟨5, false⟩)
    let s' : State := { s with
      cmd.level := 9, mode := .trusted, dst := [(3, 1#8)], dec.wp := 9, out := [(0, 2#8)] }
    s.phase = .idle ∧ s'.phase = .idle ∧ s.params = s'.params ∧ s.cmd.input = s'.cmd.input ∧
      s.cmd.align = s'.cmd.align ∧ s.cmd.dest = s'.cmd.dest ∧
      ending (exec .parseHeader s) = some (⟨.done, none⟩, .header 5#32 0#32) ∧
      ending (exec .decompress s) = some (⟨.done, none⟩, .bytes (List.replicate 5 0x41#8)) ∧
      ending (exec .decompressUnsafe s) = some (⟨.done, none⟩, .bytes (List.replicate 5 0x41#8)) ∧
      ending (exec .decompressInto s) = some (⟨.done, none⟩, .destFilled) ∧
      (nextState? (exec .compress s)).isSome = true := by decide

/-- A step that sets the mode and the status, one that changes the status at the end, and an engine that
waits after a fault. -/
theorem witness_ModeAndStatusChangeOnlyWithTheCommand :
    (nextState? (step (withInput .decompressUnsafe streamDV1))).map (fun t => (t.mode, t.status))
      = some (.trusted, ⟨.running, none⟩) ∧
    (nextState? (step (replayingAt [0x41#8] [] 1#32 0 0#8))).map (fun t => (t.status, t.phase))
      = some (⟨.done, none⟩, .idle) ∧
    step faulted = .next faulted := ⟨by decide, by decide, rfl⟩

end Sys2Proof.Tests
end

section
/-! The encoder step keeps the invariant of COMPRESS's main loop (43_compressor.md R164, R177). -/

namespace Sys2Proof.Machine

/-- The invariant inside a step: the source and the table stay, a group with a free place is open. -/
theorem EncodeInv.of_openGroup {s t : State} (h : EncodeInv s) (hsrc : t.src = s.src)
    (hht : t.ht = s.ht) (hoff : t.enc.off = s.enc.off) (hslen : t.enc.slen = s.enc.slen)
    (hlt : s.enc.off < s.enc.slen) (hout : t.out.holds t.enc.op) (hidx : t.enc.gidx < 8)
    (hslot : t.enc.gslot < t.enc.op) : EncodeInv t where
  off := by rw [hoff, hslen]; exact h.off
  slen := by rw [hslen]; exact h.slen
  src := by rw [hsrc, hslen]; exact h.src
  out := hout
  group _ := ⟨hidx, hslot, by rw [hoff, hslen]; exact hlt⟩
  settled := by rw [hsrc, hht, hoff, hslen]; exact h.settled

/-- GROUP_OPEN if no group is open keeps the invariant (R178). -/
theorem openIfClosed_keeps_encodeInv {s : State} (h : EncodeInv s) (hlt : s.enc.off < s.enc.slen) :
    ∃ t, openIfClosed s = .next t ∧ EncodeInv t ∧ t.enc.gopen = true ∧ t.src = s.src ∧ t.ht = s.ht ∧
      t.enc.off = s.enc.off ∧ t.enc.slen = s.enc.slen := by
  obtain ⟨t, ht, hout, hidx, hslot, he⟩ :=
    openIfClosed_next (fun hg => ⟨(h.group hg).1, (h.group hg).2.1⟩) h.out
  obtain ⟨hsrc, hht, hoff, hslen, hopen⟩ : t.src = s.src ∧ t.ht = s.ht ∧ t.enc.off = s.enc.off ∧
      t.enc.slen = s.enc.slen ∧ t.enc.gopen = true := by rw [he]; simp
  exact ⟨t, ht, h.of_openGroup hsrc hht hoff hslen hlt hout hidx hslot, hopen, hsrc, hht, hoff, hslen⟩

/-- FIND and the emit it selects keep the invariant; the chunk covers 1 to 273 of the bytes left (R179). -/
theorem findAndEmit_keeps_encodeInv {s : State} (h : EncodeInv s) (hopen : s.enc.gopen = true) :
    ∃ u t, execFind s = .next u ∧ emitBest u = .next t ∧ EncodeInv t ∧ t.enc.gopen = true ∧
      t.src = s.src ∧ t.ht = s.ht ∧ t.enc.off = s.enc.off ∧ t.enc.slen = s.enc.slen ∧
      1 ≤ t.enc.processed ∧ t.enc.processed ≤ 273 ∧ s.enc.off + t.enc.processed ≤ s.enc.slen := by
  obtain ⟨hidx, hslot, hlt⟩ := h.group hopen
  obtain ⟨e, hfind, he, hbest⟩ := find_settled h.src h.settled
  obtain ⟨eoff, eslen, eop, eidx, eslot, eopen⟩ : e.off = s.enc.off ∧ e.slen = s.enc.slen ∧
      e.op = s.enc.op ∧ e.gidx = s.enc.gidx ∧ e.gslot = s.enc.gslot ∧ e.gopen = s.enc.gopen := by
    rw [he]; simp
  obtain ⟨t, bs, hemit, -, hout, hp1, hp2, hp3, -, ht⟩ := emitBest_next (s := { s with enc := e })
    (by rw [eslen]; exact h.src) (by rw [eop]; exact h.out) (by rw [eoff, eslen]; exact hlt)
    (by rw [eoff, eslen]; exact hbest.imp_right fun ⟨b1, b2, b3, b4, b5, _⟩ => ⟨b1, b2, b3, b4, b5⟩)
  obtain ⟨hsrc, hht, hoff, hslen, hop, tidx, tslot, topen⟩ : t.src = s.src ∧ t.ht = s.ht ∧
      t.enc.off = s.enc.off ∧ t.enc.slen = s.enc.slen ∧ t.enc.op = s.enc.op + bs.length ∧
      t.enc.gidx = s.enc.gidx ∧ t.enc.gslot = s.enc.gslot ∧ t.enc.gopen = s.enc.gopen := by
    rw [ht]; exact ⟨rfl, rfl, eoff, eslen, congrArg (· + bs.length) eop, eidx, eslot, eopen⟩
  refine ⟨_, t, hfind, hemit, ?_, topen.trans hopen, hsrc, hht, hoff, hslen, hp1, hp2, ?_⟩
  · exact h.of_openGroup hsrc hht hoff hslen hlt hout (by rw [tidx]; exact hidx) (by rw [tslot, hop]; omega)
  · simpa only [eoff, eslen] using hp3

/-- The advance and the close end a chunk with the invariant at the new offset (R183, R184). -/
theorem advanceAndClose_keeps_encodeInv {s : State} (h : EncodeInv s) (hw : s.ht.wf)
    (hopen : s.enc.gopen = true) (hp : s.enc.processed ≤ 273)
    (hle : s.enc.off + s.enc.processed ≤ s.enc.slen) :
    ∃ u t, advanceEncoder s = .next u ∧ closeIfComplete u = .next t ∧ EncodeInv t ∧ t.ht.wf ∧
      t.enc.gidx ≤ 8 ∧ t.enc.off = s.enc.off + s.enc.processed ∧ t.enc.slen = s.enc.slen := by
  obtain ⟨hidx, hslot, -⟩ := h.group hopen
  obtain ⟨u, hadv, huw, hset, hu⟩ := advanceEncoder_next h.src hw h.settled hp
  obtain ⟨usrc, uout, uop, uslot, uoff, uidx, uslen⟩ : u.src = s.src ∧ u.out = s.out ∧
      u.enc.op = s.enc.op ∧ u.enc.gslot = s.enc.gslot ∧ u.enc.off = s.enc.off + s.enc.processed ∧
      u.enc.gidx = s.enc.gidx + 1 ∧ u.enc.slen = s.enc.slen := by rw [hu]; simp
  obtain ⟨t, hclose, hout, ht, hfull, -⟩ := closeIfComplete_next (s := u) (by rw [uout, uop]; exact h.out)
    (by rw [uslot, uop]; exact hslot)
  obtain ⟨tsrc, tht, top, tslot, toff, tidx, tslen⟩ : t.src = u.src ∧ t.ht = u.ht ∧
      t.enc.op = u.enc.op ∧ t.enc.gslot = u.enc.gslot ∧ t.enc.off = u.enc.off ∧
      t.enc.gidx = u.enc.gidx ∧ t.enc.slen = u.enc.slen := by rw [ht]; simp
  have hidx8 : t.enc.gidx ≤ 8 := by
    rw [tidx, uidx]
    exact hidx
  refine ⟨u, t, hadv, hclose, ?_, by rw [tht]; exact huw, hidx8, toff.trans uoff, tslen.trans uslen⟩
  exact {
    off := by rw [toff, uoff, tslen, uslen]; exact hle
    slen := by rw [tslen, uslen]; exact h.slen
    src := by rw [tsrc, usrc, tslen, uslen]; exact h.src
    out := by rw [top]; exact hout
    group := fun hg => by
      have hnot : ¬(u.enc.gidx = 8 ∨ u.enc.off = u.enc.slen) := fun hc => by
        rw [(hfull hc).1] at hg
        cases hg
      have hslot' : t.enc.gslot < t.enc.op := by rw [tslot, uslot, top, uop]; exact hslot
      exact ⟨by simp only [Config.groupChunks]; omega, hslot', by omega⟩
    settled := by rw [tsrc, usrc, tslen, uslen, toff, uoff, tht]; exact hset }

/-- One encoder step answers, keeps the invariant and the canonical table, and covers 1 to 273 source bytes
(R177, R272). -/
theorem encoderStep_keeps_encodeInv {s : State} (h : EncodeInv s) (hw : s.ht.wf)
    (hlt : s.enc.off < s.enc.slen) :
    ∃ t, encoderStep s = .next t ∧ EncodeInv t ∧ t.ht.wf ∧ t.enc.gidx ≤ 8 ∧
      s.enc.off < t.enc.off ∧ t.enc.off ≤ s.enc.off + 273 ∧ t.enc.slen = s.enc.slen := by
  obtain ⟨s1, h1, i1, open1, -, ht1, off1, slen1⟩ := openIfClosed_keeps_encodeInv h hlt
  obtain ⟨s2, s3, h2, h3, i3, open3, -, ht3, off3, slen3, hp1, hp2, hp3⟩ :=
    findAndEmit_keeps_encodeInv i1 open1
  obtain ⟨s4, t, h4, h5, i5, w5, idx5, off5, slen5⟩ :=
    advanceAndClose_keeps_encodeInv i3 (by rw [ht3, ht1]; exact hw) open3 hp2 (by rw [off3, slen3]; exact hp3)
  refine ⟨t, ?_, i5, w5, idx5, by omega, by omega, by omega⟩
  simp only [encoderStep, h1, h2, h3, h4, h5, andThen_next]

end Sys2Proof.Machine
end

section
/-! Every step of the engine keeps its invariant and the parameters (10_state.md R22 to R43). -/

namespace Sys2Proof.Machine

/-! ### The part of the invariant that no phase touches -/

/-- The clauses of the invariant on the data: canonical spaces and table, counters in their ranges. -/
structure Canonical (s : State) : Prop where
  src : s.src.wf
  out : s.out.wf
  stream : s.stream.wf
  dst : s.dst.wf
  ht : s.ht.wf
  buckets : ∀ x ∈ s.ht, x.2.Pairwise (· > ·) ∧ x.2.length ≤ Config.bucketCap
  cnt : s.dec.cnt ≤ Config.groupChunks
  gidx : s.enc.gidx ≤ Config.groupChunks

theorem Inv.canonical {s : State} (h : Inv s) : Canonical s := { h with }

/-- A command in progress is RUNNING without an error (R40). -/
theorem Inv.status_running {s : State} (h : Inv s) (hp : s.phase ≠ .idle) :
    s.status = ⟨.running, none⟩ := by
  have hs : s.status.state = .running := h.running.2 hp
  have he : s.status.err = none := by
    by_contra hne
    have := h.err.1 hne
    rw [hs] at this
    cases this
  rw [← hs, ← he]

/-- RUNNING in a phase whose own invariant holds. -/
theorem Canonical.inv_running {s : State} (h : Canonical s) (hs : s.status = ⟨.running, none⟩)
    (hp : s.phase ≠ .idle) (hi : phaseInv s) : Inv s :=
  { h with err := by simp [hs], running := by simp [hs, hp], phase := hi }

/-- A command that ends DONE, whatever its phase's invariant was. -/
theorem Canonical.inv_finish {s : State} (h : Canonical s) (r : Res) : Inv (s.finish r) :=
  { h with err := by simp, running := by simp, phase := trivial }

/-- A command that ends FAULTED, whatever its phase's invariant was (R241, R242). -/
theorem Canonical.inv_takeFault {s : State} (h : Canonical s) (e : FaultKind) : Inv (s.takeFault e) where
  src := by rw [State.takeFault_src]; exact h.src
  out := by rw [State.takeFault_out]; exact h.out
  stream := by rw [State.takeFault_stream]; exact h.stream
  dst := by
    cases e
    case malformedHeader | insufficientDestination => exact h.dst
    case truncatedStream | corruptCopy => exact List.Pairwise.nil
  ht := by rw [State.takeFault_ht]; exact h.ht
  buckets := by rw [State.takeFault_ht]; exact h.buckets
  cnt := by rw [State.takeFault_dec]; exact h.cnt
  gidx := by rw [State.takeFault_enc]; exact h.gidx
  err := by simp
  running := by simp
  phase := by simp [phaseInv]

theorem Canonical.advance {s : State} (h : Canonical s) (k : Nat) : Canonical (s.advance k) := { h with }

theorem Canonical.loadHeader {s : State} (h : Canonical s) (size align : BitVec 32) (r : List Byte) :
    Canonical (s.loadHeader size align r) := { h with }

/-! ### Taking up a command -/

/-- STREAM loaded and a reader opened on it: the cursor at the start of a whole buffer (R120). -/
theorem streamOpen_loaded (s : State) : StreamOpen (s.loadStream.openReader .stream .big) :=
  ⟨rfl, rfl, rfl, Nat.zero_le _, Memory.ofBytes_holds _⟩

theorem startProbe_inv {s : State} (h : Canonical s) : Inv (startProbe s) :=
  Canonical.inv_running { h with stream := Memory.ofBytes_wf _ } rfl (by simp)
    ⟨{ streamOpen_loaded s with }, rfl⟩

theorem startDecompress_inv {s : State} (form : DecForm) (h : Canonical s) :
    Inv (startDecompress form s) :=
  Canonical.inv_running { h with stream := Memory.ofBytes_wf _ } rfl (by simp)
    ⟨{ streamOpen_loaded s with }, rfl, rfl⟩

theorem startCompress_next {s t : State} (h : startCompress s = .next t) :
    s.cmd.input.length < Config.sourceLimit ∧ t = (s.loadSource.begin .encode).appendOut
      (headerBytes s.params (BitVec.ofNat 32 s.cmd.input.length) s.cmd.align) := by
  unfold startCompress at h
  split at h
  · rename_i hl
    cases h
    exact ⟨hl, rfl⟩
  · cases h

theorem startCompress_inv {s t : State} (hc : Canonical s) (h : startCompress s = .next t) :
    Inv t ∧ t.params = s.params := by
  obtain ⟨hl, ht⟩ := startCompress_next h
  obtain ⟨u, hu, -, -, he⟩ := startCompress_emits hl
  obtain rfl : u = t := by rw [hu] at h; cases h; rfl
  have hi := he.inv
  have hw := he.table
  have hb := settledAt_buckets hw hi.settled
  subst ht
  exact ⟨Canonical.inv_running
    { hc with src := Memory.holds_wf hi.src, out := Memory.holds_wf hi.out, ht := hw, buckets := hb,
              gidx := Nat.zero_le _ } rfl (by simp) hi, rfl⟩

/-- Admission answers the state it was asked about (R78, R249). -/
theorem admitDecompress_next {form : DecForm} {s t : State} (h : admitDecompress form s = .next t) :
    t = s := by
  unfold admitDecompress at h
  (repeat' split at h) <;> cases h <;> rfl

theorem admitted_inv {form : DecForm} {s t : State} (hc : Canonical s)
    (h : (andThen (admitDecompress form s) fun u => .next (startDecompress form u)) = .next t) :
    Inv t ∧ t.params = s.params := by
  obtain ⟨u, hu, ht⟩ := (andThen_eq_next_iff _ _ _).1 h
  obtain rfl := admitDecompress_next hu
  cases ht
  exact ⟨startDecompress_inv form hc, rfl⟩

theorem acceptCommand_inv {op : CmdOp} {s t : State} (hc : Canonical s)
    (h : acceptCommand op s = .next t) : Inv t ∧ t.params = s.params := by
  cases op with
  | parseHeader =>
    cases h
    exact ⟨startProbe_inv hc, rfl⟩
  | compress => exact startCompress_inv hc h
  | decompress => exact admitted_inv (form := .alloc) hc h
  | decompressInto => exact admitted_inv (form := .into) hc h
  | decompressUnsafe => exact admitted_inv (form := .unsafeAlloc) hc h

theorem idleStep_inv {s t : State} (hs : Inv s) (hp : s.phase = .idle) (h : idleStep s = .next t) :
    Inv t ∧ t.params = s.params := by
  unfold idleStep at h
  split at h
  · split at h
    · exact acceptCommand_inv hs.canonical h
    · cases h
      exact ⟨{ hs with phase := by simp [phaseInv, hp] }, rfl⟩
  · cases h
    exact ⟨hs, rfl⟩

/-! ### The header read -/

/-- A header read goes on from the record loaded, or from the cursor moved (R140). -/
theorem readHeader_next {found absent : State → Result} {s t : State}
    (h : readHeader found absent s = .next t) :
    (∃ size align r, found (s.loadHeader size align r) = .next t) ∨
      ∃ k, absent (s.advance k) = .next t := by
  unfold readHeader at h
  split at h
  · exact .inl ⟨_, _, _, h⟩
  · split at h
    · cases h
    · exact .inr ⟨_, h⟩

theorem probeStep_inv {s t : State} (hc : Canonical s) (h : probeStep s = .next t) :
    Inv t ∧ t.params = s.params := by
  rcases readHeader_next h with ⟨size, align, r, h⟩ | ⟨k, h⟩
  · cases h
    exact ⟨(hc.loadHeader size align r).inv_finish _, rfl⟩
  · cases h
    exact ⟨(hc.advance k).inv_finish _, rfl⟩

/-- After an accepted header the replay is set up, or the destination does not fit (R200 to R203). -/
theorem headerFound_next {form : DecForm} {s t : State} (h : headerFound form s = .next t) :
    t = setUpReplay form s ∨ t = s.takeFault .insufficientDestination := by
  unfold headerFound at h
  (repeat' split at h) <;> cases h <;> simp

theorem headerAbsent_next {s t : State} (h : headerAbsent s = .next t) :
    t = s.takeFault .malformedHeader := by
  unfold headerAbsent at h
  split at h <;> cases h
  rfl

/-- The replay set up over a whole buffer that begins with a header stands before its first item (R47). -/
theorem setUpReplay_inv {form : DecForm} {s : State} (hc : Canonical s) (ho : StreamOpen s)
    (hs : s.status = ⟨.running, none⟩) (hm : s.mode = modeOf form)
    (hl : s.params.headerSize ≤ s.rd.len) : Inv (setUpReplay form s) :=
  Canonical.inv_running { hc with dst := List.Pairwise.nil, cnt := Nat.zero_le _ } hs (by simp)
    (show ReplayInv form (setUpReplay form s) from
      { ho with pos := hl, wp := Nat.zero_le _, written := rfl, fresh := rfl, body := Nat.le_refl _, mode := hm })

/-- The header step: a header that decodes lies inside the buffer (R145), so the replay can start behind it. -/
theorem headerStep_inv {form : DecForm} {s t : State} (hs : Inv s) (hp : s.phase = .header form)
    (h : headerStep form s = .next t) : Inv t ∧ t.params = s.params := by
  have hc := hs.canonical
  have hphase := hs.phase
  simp only [phaseInv, hp] at hphase
  obtain ⟨ho, hpos, hm⟩ := hphase
  have hrun := hs.status_running (by simp [hp])
  have hwhole : (s.bufMem s.rd.buf).holds s.rd.len := by rw [ho.buf, ho.len]; exact ho.whole
  rcases readHeader_cases hwhole (headerFound form) headerAbsent with
    ⟨size, align, r, rest, -, hr, hw, he⟩ | ⟨-, k, -, he⟩
  · have hlen : s.params.headerSize ≤ s.rd.len := by
      have hle : s.headerWindow.length ≤ s.rd.len :=
        Nat.le_trans (Memory.readUpTo_length_le _ _ _) (by omega)
      rw [hw, List.length_append, encode_hdr_length, hr] at hle
      exact Nat.le_trans (Nat.le_add_right _ _) hle
    have hcl := hc.loadHeader size align r
    rcases headerFound_next (he.symm.trans h) with rfl | rfl
    · refine ⟨setUpReplay_inv hcl { ho with pos := ?_ } hrun hm hlen, rfl⟩
      rw [State.loadHeader_rd_pos, hpos, Nat.zero_add]
      exact hlen
    · exact ⟨hcl.inv_takeFault _, rfl⟩
  · obtain rfl := headerAbsent_next (he.symm.trans h)
    exact ⟨(hc.advance k).inv_takeFault _, rfl⟩

/-! ### The replay -/

/-- Validate-and-copy keeps the data canonical, also when it takes CorruptCopy (R211 to R213). -/
theorem validateAndCopy_canonical {s t : State} (hc : Canonical s) (h : validateAndCopy s = .next t) :
    Canonical t ∧ t.params = s.params := by
  rcases validateAndCopy_next h with ⟨-, he, hw, -⟩ | ⟨-, -, rfl⟩
  · rw [he]
    exact ⟨{ hc with dst := hw hc.dst, cnt := Nat.le_trans (Nat.sub_le _ _) hc.cnt }, rfl⟩
  · exact ⟨(hc.inv_takeFault _).canonical, rfl⟩

/-- A stream item keeps the data canonical. -/
theorem item_canonical {i : Instr} {c : Ctx} {s t : State} (hi : i.ctx = some c) (hn : c ≠ .header)
    (hc : Canonical s) (h : exec i s = .next t) : Canonical t ∧ t.params = s.params := by
  rcases (item_next hi hn h).2 with ⟨f, -, -, rfl⟩ | ⟨b, -, -, rfl⟩ | ⟨n, d, -, -, -, h⟩ | ⟨d, e, -, -, h⟩
  · exact ⟨{ hc with cnt := Nat.le_refl _ }, rfl⟩
  · exact ⟨{ hc with dst := Memory.write_wf hc.dst _ _, cnt := Nat.le_trans (Nat.sub_le _ _) hc.cnt }, rfl⟩
  · exact validateAndCopy_canonical (s := s.loadShort n d) { hc with } h
  · exact validateAndCopy_canonical (s := s.loadLong d e) { hc with } h

/-- Where a truncated item answers, TruncatedStream is taken after the reads that succeeded (R232). -/
theorem truncatedItem_next {s t : State} (h : truncatedItem s = .next t) :
    t = s.partialFetch.takeFault .truncatedStream := by
  unfold truncatedItem at h
  split at h <;> cases h
  rfl

theorem partialFetch_canonical {s : State} (hc : Canonical s) :
    Canonical s.partialFetch ∧ s.partialFetch.params = s.params := by
  rcases s.partialFetch_cases with h | ⟨b0, b1, -, h⟩
  · rw [h]
    exact ⟨hc, rfl⟩
  · rw [h]
    exact ⟨{ hc with }, rfl⟩

/-- One item of a replay: it runs, is truncated, or answers no next state (R216). -/
theorem itemStep_inv {form : DecForm} {s t : State} (hs : Inv s) (hp : s.phase = .replay form)
    (h : itemStep s = .next t) : Inv t ∧ t.params = s.params := by
  have hc := hs.canonical
  have hv : ReplayInv form s := by simpa only [phaseInv, hp] using hs.phase
  have hrun := hs.status_running (by simp [hp])
  rcases itemStep_cases s with ⟨i, rest, hd, he⟩ | ⟨-, he⟩ | ⟨-, he⟩
  · rw [he] at h
    obtain ⟨hi, hin⟩ := itemWindow_item hv.pos hd
    obtain ⟨htc, hparams⟩ := item_canonical hi s.itemCtx_ne_header hc h
    refine ⟨?_, hparams⟩
    rcases item_keeps_replayInv hi s.itemCtx_ne_header hp hv hin h with
      ⟨htp, htv, hst, -⟩ | ⟨htp, -, hst⟩
    · exact htc.inv_running (hst.trans hrun) (by simp [htp]) (by simpa only [phaseInv, htp] using htv)
    · exact { htc with err := by simp [hst], running := by simp [hst, htp], phase := by simp [phaseInv, htp] }
  · rw [he] at h
    obtain rfl := truncatedItem_next h
    obtain ⟨hpc, hparams⟩ := partialFetch_canonical hc
    exact ⟨hpc.inv_takeFault _, hparams⟩
  · rw [he] at h
    cases h

/-- The end of a decompress command only writes `STATUS` and `RES` (R200, R201). -/
theorem finishReplay_next {form : DecForm} {s t : State} (h : finishReplay form s = .next t) :
    ∃ r, t = s.finish r := by
  unfold finishReplay at h
  (repeat' split at h) <;> cases h <;> exact ⟨_, rfl⟩

/-! ### COMPRESS -/

theorem finishCompress_next {s t : State} (h : finishCompress s = .next t) : ∃ r, t = s.finish r := by
  unfold finishCompress at h
  split at h <;> cases h
  exact ⟨_, rfl⟩

theorem encoderStep_inv {s t : State} (hs : Inv s) (hp : s.phase = .encode)
    (hlt : s.enc.off < s.enc.slen) (h : encoderStep s = .next t) : Inv t ∧ t.params = s.params := by
  have hc := hs.canonical
  have hi : EncodeInv s := by simpa only [phaseInv, hp] using hs.phase
  have hrun := hs.status_running (by simp [hp])
  obtain ⟨u, hu, ui, uw, uidx, -⟩ := encoderStep_keeps_encodeInv hi hs.ht hlt
  obtain rfl : u = t := Host.Outcome.next.inj (hu.symm.trans h)
  have hb := settledAt_buckets uw ui.settled
  have hf := encoderStep_frame h
  obtain ⟨fparams, fstatus, fphase, fstream, fdst, fdec⟩ : u.params = s.params ∧
      u.status = s.status ∧ u.phase = s.phase ∧ u.stream = s.stream ∧ u.dst = s.dst ∧ u.dec = s.dec := by
    rw [hf]; simp
  have huc : Canonical u :=
    { src := Memory.holds_wf ui.src, out := Memory.holds_wf ui.out, ht := uw, buckets := hb, gidx := uidx
      stream := by rw [fstream]; exact hc.stream
      dst := by rw [fdst]; exact hc.dst
      cnt := by rw [fdec]; exact hc.cnt }
  have hup : u.phase = .encode := fphase.trans hp
  exact ⟨huc.inv_running (fstatus.trans hrun) (by simp [hup]) (by simpa only [phaseInv, hup] using ui), fparams⟩

/-! ### Every step, and the host's move -/

/-- Every step keeps the invariant and the parameters, phase by phase. -/
theorem step_inv {s t : State} (hs : Inv s) (h : step s = .next t) : Inv t ∧ t.params = s.params := by
  cases hp : s.phase with
  | idle => exact idleStep_inv hs hp (step_idle hp ▸ h)
  | probe => exact probeStep_inv hs.canonical (step_probe hp ▸ h)
  | header form => exact headerStep_inv hs hp (step_header hp ▸ h)
  | replay form =>
    rw [step_replay hp] at h
    split at h
    · exact itemStep_inv hs hp h
    · obtain ⟨r, rfl⟩ := finishReplay_next h
      exact ⟨hs.canonical.inv_finish r, rfl⟩
  | encode =>
    rw [step_encode hp] at h
    split at h
    · exact encoderStep_inv hs hp ‹_› h
    · obtain ⟨r, rfl⟩ := finishCompress_next h
      exact ⟨hs.canonical.inv_finish r, rfl⟩

/-- The host's move keeps the invariant: the phase and `STATUS` stay, and a caller's buffer is canonical. -/
theorem hostIssue_inv {s t : State} {cmd : Cmd} {buffer : List Byte} (hs : Inv s)
    (h : s.hostIssue cmd buffer = some t) : Inv t := by
  obtain ⟨hp, -, rfl⟩ := (State.hostIssue_eq_some_iff _ _ _ _).1 h
  refine { hs with dst := ?_, phase := by simp [phaseInv, hp] }
  simp only
  split
  · exact Memory.ofBytes_wf _
  · exact hs.dst

end Sys2Proof.Machine

open Sys2Proof Sys2Proof.Machine

/-- Settles O55: phase by phase over the step, and by what the host's move can do. -/
theorem stepKeepsTheInvariant : Obligations.StepKeepsTheInvariant := by
  refine ⟨fun _ _ => step_inv, fun s cmd buffer hp hn => ?_⟩
  have hmove := (State.hostIssue_eq_some_iff s _ cmd buffer).2 ⟨hp, hn, rfl⟩
  refine ⟨_, hmove, rfl, fun hd => ?_, fun d hd => ?_, fun op hop => ⟨hp, rfl, hop⟩,
    fun hs => hostIssue_inv hs hmove⟩
  · simp [hd]
  · simp [hd]

end

section
/-! The state after power-on (10_state.md R49) and WRITE_HEADER (41_header_codec.md R141). -/

namespace Sys2Proof.Machine

/-- The magic as the four bytes "Yaz0" (30_encoding.md R91). -/
theorem bytes32_magic : bytes32 Config.magic = [0x59#8, 0x61#8, 0x7A#8, 0x30#8] := by decide

/-- The four bytes of a 32-bit field are its right shifts cut to 8 bits, most significant first (R61). -/
theorem bytes32_eq_shifts (v : BitVec 32) :
    bytes32 v = [24, 16, 8, 0].map (fun k => BitVec.ofNat 8 (v.toNat >>> k)) := rfl

/-- WRITE_HEADER answers with the record appended (R141). -/
theorem exec_writeHeader (size align : BitVec 32) (s : State) :
    exec (.writeHeader size align) s = .next (s.appendOut (headerBytes s.params size align)) := rfl

/-- Appending stores the bytes at `OP` and changes `OUT` and `OP` only (20_memory.md R83, R84). -/
theorem appendOut_storedAt (s : State) (bs : List Byte) :
    storedAt s.out (s.appendOut bs).out s.enc.op bs ∧
      s.appendOut bs = { s with out := (s.appendOut bs).out, enc.op := s.enc.op + bs.length } :=
  ⟨storedAt_writeAll _ _ _, rfl⟩

end Sys2Proof.Machine

open Sys2Proof Sys2Proof.Machine

/-- Settles O1: the fields of the state after power-on. -/
theorem resetIsIdleWithEmptyTable : Obligations.ResetIsIdleWithEmptyTable :=
  ⟨rfl, rfl, rfl, rfl, rfl, rfl, rfl⟩

/-- Settles O30: the record is appended, and its bytes are those of R141. -/
theorem writeHeaderAppendsTheRecord : Obligations.WriteHeaderAppendsTheRecord := by
  intro size align s
  obtain ⟨hstored, hframe⟩ := appendOut_storedAt s (headerBytes s.params size align)
  refine ⟨_, exec_writeHeader size align s, ?_, ?_⟩
  · rw [← bytes32_magic, ← bytes32_eq_shifts, ← bytes32_eq_shifts]
    exact hstored
  · rw [headerBytes_length] at hframe
    exact hframe

end

section
/-! Two runs of one decompress command or of PARSE_HEADER on equal inputs (00_scope.md R3): what the two
engines have in common at every stage, so that `STATUS`, `RES` and a filled destination come out the same. -/

namespace Sys2Proof.Machine

/-! ### What two runs have in common -/

/-- Two replays of the same stream at the same place: all that an item or the end of the command reads is
the same; the operand registers, the encoder and the other spaces need not be. -/
structure SameReplay (s s' : State) : Prop where
  params : s'.params = s.params
  status : s'.status = s.status
  res : s'.res = s.res
  phase : s'.phase = s.phase
  mode : s'.mode = s.mode
  buf : s.rd.buf = .stream
  rd : s'.rd = s.rd
  stream : s'.stream = s.stream
  dst : s'.dst = s.dst
  spoiled : s'.dstSpoiled = s.dstSpoiled
  wp : s'.dec.wp = s.dec.wp
  dlen : s'.dec.dlen = s.dec.dlen
  flag : s'.dec.flag = s.dec.flag
  cnt : s'.dec.cnt = s.dec.cnt

/-- Both runs have just taken the same fault. -/
def SameFault (s s' : State) : Prop := ∃ e u u', s = State.takeFault u e ∧ s' = State.takeFault u' e

/-- Both runs are at the same place: in the replay, or ended by the same fault. -/
def SameStage (s s' : State) : Prop := SameReplay s s' ∨ SameFault s s'

/-- What the host sees of two ended commands is the same: `STATUS`, `RES`, and a filled destination. -/
structure SameResult (s s' : State) : Prop where
  status : s'.status = s.status
  res : s'.res = s.res
  dst : s.status.state = .done → s'.dst = s.dst

/-- The second run answers too, and the answers are related. -/
def Follows (R : State → State → Prop) (o o' : Result) : Prop :=
  ∀ t, o = .next t → ∃ t', o' = .next t' ∧ R t t'

theorem Follows.next {R : State → State → Prop} {t t' : State} (h : R t t') :
    Follows R (.next t) (.next t') := by
  intro u hu
  cases hu
  exact ⟨t', rfl, h⟩

theorem Follows.fault {R : State → State → Prop} (r : Fault) (o' : Result) : Follows R (.fault r) o' := by
  intro t ht
  cases ht

theorem Follows.refused {R : State → State → Prop} (r : Refusal) (o' : Result) :
    Follows R (.refused r) o' := by
  intro t ht
  cases ht

theorem Follows.badCopy {R : State → State → Prop} (r : Fault) (s : State) (o' : Result) :
    Follows R (Machine.badCopy r s) o' :=
  fun t ht => absurd ht (badCopy_ne_next r s t)

/-- Sequences of related operations are related. -/
theorem Follows.andThen {Q R : State → State → Prop} {o o' : Result} {f f' : State → Result}
    (h : Follows Q o o') (hf : ∀ s s', Q s s' → Follows R (f s) (f' s')) :
    Follows R (andThen o f) (Machine.andThen o' f') := by
  intro t ht
  obtain ⟨s, hs, hft⟩ := (andThen_eq_next_iff _ _ _).1 ht
  obtain ⟨s', hs', hq⟩ := h s hs
  obtain ⟨t', ht', hr⟩ := hf s s' hq t hft
  exact ⟨t', by rw [hs', andThen_next, ht'], hr⟩

theorem SameFault.result {s s' : State} (h : SameFault s s') : SameResult s s' := by
  obtain ⟨e, u, u', rfl, rfl⟩ := h
  exact ⟨by simp, by simp, by simp⟩

theorem SameReplay.result {s s' : State} (h : SameReplay s s') : SameResult s s' :=
  ⟨h.status, h.res, fun _ => h.dst⟩

/-! ### The copy (R211, R212) -/

theorem copyLoop_same {n : Nat} {s s' : State} (hdst : s'.dst = s.dst)
    (hspoiled : s'.dstSpoiled = s.dstSpoiled) (hdlen : s'.dec.dlen = s.dec.dlen)
    (hwp : s'.dec.wp = s.dec.wp) (hcsrc : s'.dec.csrc = s.dec.csrc) :
    Follows (fun t t' => t'.dst = t.dst) (copyLoop n s) (copyLoop n s') := by
  induction n generalizing s s' with
  | zero => exact .next hdst
  | succ n ih =>
    have hbyte : s'.dstByte s'.dec.csrc = s.dstByte s.dec.csrc := by
      simp only [State.dstByte, hdst, hspoiled, hdlen, hcsrc]
    unfold copyLoop
    rw [hbyte, hwp, hdlen]
    split
    · exact .badCopy _ _ _
    · split
      · rename_i b _ _
        exact ih (s := { s.putDst b with dec.csrc := s.dec.csrc + 1 })
          (s' := { s'.putDst b with dec.csrc := s'.dec.csrc + 1 })
          (by simp only [State.putDst, hdst, hwp]) hspoiled hdlen (congrArg (· + 1) hwp)
          (congrArg (· + 1) hcsrc)
      · exact .badCopy _ _ _

theorem SameReplay.copyMatch {s s' : State} (h : SameReplay s s') (hdist : s'.dec.dist = s.dec.dist)
    (hlen : s'.dec.len = s.dec.len) : Follows SameReplay (copyMatch s) (copyMatch s') := by
  intro t ht
  have hle := (copyMatch_next ht).1
  have hloop := ht
  rw [Machine.copyMatch, if_pos hle] at hloop
  have hcsrc : s'.dec.wp - s'.dec.dist.toNat = s.dec.wp - s.dec.dist.toNat := by rw [h.wp, hdist]
  obtain ⟨t', ht', hdst⟩ := copyLoop_same (s := { s with dec.csrc := s.dec.wp - s.dec.dist.toNat })
    (s' := { s' with dec.csrc := s'.dec.wp - s'.dec.dist.toNat }) h.dst h.spoiled h.dlen h.wp hcsrc t hloop
  have hmatch : Machine.copyMatch s' = .next t' := by
    rw [Machine.copyMatch, if_pos (by rw [hdist, h.wp]; exact hle), hlen, ht']
  refine ⟨t', hmatch, ?_⟩
  rw [(copyMatch_next ht).2.1, (copyMatch_next hmatch).2.1]
  exact { h with dst := hdst, wp := by simp only [h.wp, hlen] }

theorem SameReplay.chunkDone {s s' : State} (h : SameReplay s s') : SameReplay s.chunkDone s'.chunkDone :=
  { h with flag := congrArg flagShift h.flag, cnt := congrArg (· - 1) h.cnt }

theorem SameReplay.validateAndCopy {s s' : State} (h : SameReplay s s')
    (hdist : s'.dec.dist = s.dec.dist) (hlen : s'.dec.len = s.dec.len) :
    Follows SameStage (validateAndCopy s) (validateAndCopy s') := by
  have hin : s'.copyInBounds = s.copyInBounds := by
    simp only [State.copyInBounds, hdist, hlen, h.wp, h.dlen]
  unfold Machine.validateAndCopy
  rw [hin, h.mode]
  split
  · exact (h.copyMatch hdist hlen).andThen fun _ _ ht => .next (.inl ht.chunkDone)
  · split
    · exact .next (.inr ⟨_, _, _, rfl, rfl⟩)
    · exact .refused _ _

/-! ### One item (R216) -/

theorem SameReplay.replaying {s s' : State} (h : SameReplay s s') : s'.replaying = s.replaying := by
  simp only [State.replaying, h.phase]

theorem SameReplay.itemCtx {s s' : State} (h : SameReplay s s') : s'.itemCtx = s.itemCtx := by
  simp only [State.itemCtx, h.cnt, h.flag]

theorem SameReplay.itemAvail {s s' : State} (h : SameReplay s s') : s'.itemAvail = s.itemAvail := by
  simp only [State.itemAvail, h.rd]

theorem SameReplay.itemWindow {s s' : State} (h : SameReplay s s') : s'.itemWindow = s.itemWindow := by
  simp only [State.itemWindow, h.itemAvail, h.rd, h.buf, State.bufMem, h.stream]

theorem SameReplay.selected {s s' : State} {c : Ctx} {run : State → Result} (h : SameReplay s s')
    (hrun : Follows SameStage (run s) (run s')) :
    Follows SameStage (selected c s run) (selected c s' run) := by
  intro t ht
  obtain ⟨hon, hwp, hctx, hr⟩ := selected_next ht
  rw [selected_eq run (h.replaying.trans hon) (by rw [h.wp, h.dlen]; exact hwp) (h.itemCtx.trans hctx)]
  exact hrun t hr

theorem SameReplay.advance {s s' : State} (h : SameReplay s s') (n : Nat) :
    SameReplay (s.advance n) (s'.advance n) :=
  { h with rd := by simp only [State.advance, h.rd] }

theorem SameReplay.loadPair {s s' : State} (h : SameReplay s s') (pair : BitVec 16) :
    SameReplay (s.loadPair pair) (s'.loadPair pair) := { h.advance 2 with }

theorem SameReplay.loadShort {s s' : State} (h : SameReplay s s') (n : BitVec 4) (d : BitVec 12) :
    SameReplay (s.loadShort n d) (s'.loadShort n d) := { h.loadPair (n ++ d) with }

theorem SameReplay.loadLong {s s' : State} (h : SameReplay s s') (d : BitVec 12) (e : Byte) :
    SameReplay (s.loadLong d e) (s'.loadLong d e) := { (h.loadPair (0#4 ++ d)).advance 1 with }

theorem SameReplay.putDst {s s' : State} (h : SameReplay s s') (b : Byte) :
    SameReplay (s.putDst b) (s'.putDst b) :=
  { h with dst := by simp only [State.putDst, h.dst, h.wp], wp := congrArg (· + 1) h.wp }

theorem SameReplay.runItem {s s' : State} (h : SameReplay s s') (i : Instr) :
    Follows SameStage (runItem i s) (runItem i s') := by
  unfold Machine.runItem
  split
  · exact h.selected (.next (.inl { h.advance 1 with flag := rfl, cnt := rfl }))
  · exact h.selected (.next (.inl ((h.advance 1).putDst _).chunkDone))
  · unfold execRef2
    split
    · exact .refused _ _
    · exact h.selected ((h.loadShort _ _).validateAndCopy rfl rfl)
  · exact h.selected ((h.loadLong _ _).validateAndCopy rfl rfl)
  · exact .refused _ _

theorem SameReplay.truncatedItem {s s' : State} (h : SameReplay s s') :
    Follows SameStage (truncatedItem s) (truncatedItem s') := by
  unfold Machine.truncatedItem
  rw [h.mode]
  split
  · exact .next (.inr ⟨_, _, _, rfl, rfl⟩)
  · exact .refused _ _

theorem SameReplay.itemStep {s s' : State} (h : SameReplay s s') :
    Follows SameStage (itemStep s) (itemStep s') := by
  unfold Machine.itemStep
  rw [h.params, h.itemCtx, h.itemWindow, h.itemAvail]
  split
  · exact h.runItem _
  · split
    · exact .fault _ _
    · exact h.truncatedItem

/-! ### The loop and the end of the command -/

theorem SameFault.idle {s s' : State} (h : SameFault s s') : s.phase = .idle ∧ s'.phase = .idle := by
  obtain ⟨e, u, u', rfl, rfl⟩ := h
  simp

theorem SameFault.not_replaying {s s' : State} (h : SameFault s s') :
    s.replaying = false ∧ s'.replaying = false := by
  simp only [State.replaying, h.idle.1, h.idle.2, and_self]

theorem replayLoop_same (n : Nat) {s s' : State} (h : SameStage s s') :
    Follows SameStage (replayLoop n s) (replayLoop n s') := by
  induction n generalizing s s' with
  | zero =>
    rcases h with h | h
    · unfold replayLoop
      rw [h.replaying, h.wp, h.dlen]
      split
      · exact .fault _ _
      · exact .next (.inl h)
    · rw [replayLoop_done (by simp [h.not_replaying.1]), replayLoop_done (by simp [h.not_replaying.2])]
      exact .next (.inr h)
  | succ n ih =>
    rcases h with h | h
    · rw [replayLoop_succ, replayLoop_succ, h.replaying, h.wp, h.dlen]
      split
      · exact h.itemStep.andThen fun _ _ => ih
      · exact .next (.inl h)
    · rw [replayLoop_done (by simp [h.not_replaying.1]), replayLoop_done (by simp [h.not_replaying.2])]
      exact .next (.inr h)

theorem SameReplay.finishReplay {s s' : State} (form : DecForm) (h : SameReplay s s') :
    Follows SameResult (finishReplay form s) (finishReplay form s') := by
  unfold Machine.finishReplay
  rw [h.dst, h.dlen]
  split
  · split
    · exact .next ⟨rfl, rfl, fun _ => h.dst⟩
    · exact .fault _ _
  · split
    · exact .next ⟨rfl, rfl, fun _ => h.dst⟩
    · exact .fault _ _
  · exact .next ⟨rfl, rfl, fun _ => h.dst⟩

/-- What follows the loop: the end of the command, or nothing if a fault has ended it. -/
theorem SameStage.finishReplay {s s' : State} (form : DecForm) (h : SameStage s s') :
    Follows SameResult (if s.replaying = true then Machine.finishReplay form s else .next s)
      (if s'.replaying = true then Machine.finishReplay form s' else .next s') := by
  rcases h with h | h
  · rw [h.replaying]
    split
    · exact h.finishReplay form
    · exact .next h.result
  · simp only [h.not_replaying.1, h.not_replaying.2, Bool.false_eq_true, if_false]
    exact .next h.result

/-- From the same stage on, the rest of a decompress command ends with the same result. -/
theorem SameStage.replayAndFinish {s s' : State} (h : SameStage s s') :
    Follows SameResult (replayAndFinish s) (replayAndFinish s') := by
  unfold Machine.replayAndFinish
  rcases h with h | h
  · rw [h.phase, State.replayBound, State.replayBound, h.dlen]
    split
    · exact (replayLoop_same _ (.inl h)).andThen fun _ _ ht => ht.finishReplay _
    all_goals exact .next h.result
  · rw [h.idle.1, h.idle.2]
    exact .next h.result

/-! ### The header read and the start (R140, R200 to R203) -/

/-- Two header reads of the same bytes load the same record, or both move the cursor alike. -/
theorem readHeader_same {R : State → State → Prop} {found absent : State → Result} {s s' : State}
    (hparams : s'.params = s.params) (hrd : s'.rd = s.rd) (hwindow : s'.headerWindow = s.headerWindow)
    (hfound : ∀ size align r,
      Follows R (found (s.loadHeader size align r)) (found (s'.loadHeader size align r)))
    (habsent : ∀ k, Follows R (absent (s.advance k)) (absent (s'.advance k))) :
    Follows R (readHeader found absent s) (readHeader found absent s') := by
  unfold readHeader
  rw [hparams, hwindow, hrd]
  split
  · exact hfound _ _ _
  · split
    · exact .fault _ _
    · exact habsent _

theorem startProbe_rd (s : State) : (startProbe s).rd = ⟨.stream, s.cmd.input.length, 0, .big⟩ := rfl

theorem startProbe_headerWindow (s : State) :
    (startProbe s).headerWindow = s.cmd.input.take s.params.headerSize :=
  headerWindow_ofBytes rfl rfl rfl rfl

theorem startDecompress_rd (form : DecForm) (s : State) :
    (startDecompress form s).rd = ⟨.stream, s.cmd.input.length, 0, .big⟩ := rfl

theorem startDecompress_headerWindow (form : DecForm) (s : State) :
    (startDecompress form s).headerWindow = s.cmd.input.take s.params.headerSize :=
  headerWindow_ofBytes rfl rfl rfl rfl

/-- What two engines have in common on which the same command is issued: the parameters and the input. -/
structure SameInput (s s' : State) : Prop where
  params : s'.params = s.params
  input : s'.cmd.input = s.cmd.input

/-- PARSE_HEADER ends DONE with what the bytes of the header say (R140, R231). -/
theorem SameInput.parseHeader {s s' : State} (h : SameInput s s') :
    Follows (fun t t' => t'.status = t.status ∧ t'.res = t.res) (probeStep (startProbe s))
      (probeStep (startProbe s')) := by
  refine readHeader_same h.params ?_ ?_ (fun _ _ _ => .next ⟨rfl, rfl⟩) fun _ => .next ⟨rfl, rfl⟩
  · rw [startProbe_rd, startProbe_rd, h.input]
  · rw [startProbe_headerWindow, startProbe_headerWindow, h.input, h.params]

/-- The replay set up after the same header on the same input. -/
theorem SameInput.setUpReplay {s s' : State} (h : SameInput s s') (form : DecForm)
    (size align : BitVec 32) (r : List Byte) :
    SameReplay (setUpReplay form ((startDecompress form s).loadHeader size align r))
      (setUpReplay form ((startDecompress form s').loadHeader size align r)) where
  params := h.params
  status := rfl
  res := rfl
  phase := rfl
  mode := rfl
  buf := rfl
  rd := by
    show (⟨.stream, s'.cmd.input.length, s'.params.headerSize, .big⟩ : Reader) =
      ⟨.stream, s.cmd.input.length, s.params.headerSize, .big⟩
    rw [h.input, h.params]
  stream := congrArg Memory.ofBytes h.input
  dst := rfl
  spoiled := rfl
  wp := rfl
  dlen := rfl
  flag := rfl
  cnt := rfl

/-- After the same header the replay is set up alike, or the same fault is taken (R200 to R203). -/
theorem headerFound_same {form : DecForm} {s s' : State} (hparams : s'.params = s.params)
    (hhdr : s'.hdr = s.hdr) (hdest : form = .into → s'.cmd.dest = s.cmd.dest)
    (hreplay : SameReplay (setUpReplay form s) (setUpReplay form s')) :
    Follows SameStage (headerFound form s) (headerFound form s') := by
  cases form with
  | alloc | unsafeAlloc =>
    simp only [headerFound]
    rw [hparams, hhdr]
    split
    · exact .next (.inl hreplay)
    · exact .refused _ _
  | into =>
    simp only [headerFound]
    rw [hdest rfl, hhdr]
    split
    · exact .refused _ _
    · split
      · exact .next (.inl hreplay)
      · exact .next (.inr ⟨_, _, _, rfl, rfl⟩)

theorem SameInput.headerStep {s s' : State} (h : SameInput s s') {form : DecForm}
    (hdest : form = .into → s'.cmd.dest = s.cmd.dest) :
    Follows SameStage (headerStep form (startDecompress form s))
      (headerStep form (startDecompress form s')) := by
  refine readHeader_same h.params ?_ ?_
    (fun size align r => headerFound_same h.params rfl hdest (h.setUpReplay form size align r)) fun k => ?_
  · rw [startDecompress_rd, startDecompress_rd, h.input]
  · rw [startDecompress_headerWindow, startDecompress_headerWindow, h.input, h.params]
  · unfold headerAbsent
    rw [State.advance_mode, State.advance_mode, startDecompress_mode, startDecompress_mode]
    split
    · exact .next (.inr ⟨_, _, _, rfl, rfl⟩)
    · exact .refused _ _

/-! ### The commands -/

theorem SameInput.runDecompress {s s' : State} (h : SameInput s s') {form : DecForm}
    (hdest : form = .into → s'.cmd.dest = s.cmd.dest) :
    Follows SameResult (runDecompress form s) (runDecompress form s') :=
  (h.headerStep hdest).andThen fun _ _ => SameStage.replayAndFinish

theorem acceptedStream_iff (s : State) :
    acceptedStream s = true ↔ ∃ t, runDecompress .alloc s = .next t ∧ t.status.state = .done := by
  unfold acceptedStream
  split <;> simp [*]

/-- The set `W` of R249 is a set of inputs. -/
theorem SameInput.acceptedStream {s s' : State} (h : SameInput s s')
    (ha : acceptedStream s = true) : acceptedStream s' = true := by
  obtain ⟨t, ht, hd⟩ := (acceptedStream_iff s).1 ha
  obtain ⟨t', ht', hr⟩ := h.runDecompress (form := .alloc) (by simp) t ht
  exact (acceptedStream_iff s').2 ⟨t', ht', by rw [hr.status]; exact hd⟩

/-- Where one engine admits a decompress command, the other does. -/
theorem SameInput.admitDecompress {s s' : State} (h : SameInput s s') {form : DecForm}
    (hdest : form = .into → s'.cmd.dest = s.cmd.dest) :
    Follows (fun t t' => t = s ∧ t' = s') (admitDecompress form s) (admitDecompress form s') := by
  cases form with
  | alloc => exact .next ⟨rfl, rfl⟩
  | into =>
    simp only [Machine.admitDecompress]
    rw [hdest rfl]
    split
    · exact .refused _ _
    · split
      · exact .refused _ _
      · exact .next ⟨rfl, rfl⟩
  | unsafeAlloc =>
    simp only [Machine.admitDecompress]
    split
    · rename_i ha
      rw [if_pos (h.acceptedStream ha)]
      exact .next ⟨rfl, rfl⟩
    · exact .refused _ _

/-- On an idle engine a decompress command is admitted and runs. -/
theorem decompressCommand_idle {form : DecForm} {s : State} (hp : s.phase = .idle) :
    decompressCommand form s = andThen (admitDecompress form s) (runDecompress form) := by
  simp [decompressCommand, State.busy, hp]

theorem SameInput.decompressCommand {s s' : State} (h : SameInput s s') {form : DecForm}
    (hp : s.phase = .idle) (hp' : s'.phase = .idle) (hdest : form = .into → s'.cmd.dest = s.cmd.dest) :
    Follows SameResult (decompressCommand form s) (decompressCommand form s') := by
  rw [decompressCommand_idle hp, decompressCommand_idle hp']
  refine (h.admitDecompress hdest).andThen fun t t' ht => ?_
  rw [ht.1, ht.2]
  exact h.runDecompress hdest

end Sys2Proof.Machine
end

section
/-! Two runs of COMPRESS on equal sources (43_compressor.md R187 item 7): what the two encoders have in
common at every stage, so that the output comes out the same. -/

namespace Sys2Proof.Machine

/-! ### What two encoders have in common -/

/-- Two encoders between two chunks: the source, the table, the output and the counters are the same. -/
structure SameOutput (s s' : State) : Prop where
  src : s'.src = s.src
  ht : s'.ht = s.ht
  out : s'.out = s.out
  off : s'.enc.off = s.enc.off
  slen : s'.enc.slen = s.enc.slen
  op : s'.enc.op = s.enc.op
  gidx : s'.enc.gidx = s.enc.gidx
  gopen : s'.enc.gopen = s.enc.gopen

/-- The flag byte under construction and its slot are the same too (R178 to R184). -/
structure SameGroup (s s' : State) : Prop extends SameOutput s s' where
  gslot : s'.enc.gslot = s.enc.gslot
  gflag : s'.enc.gflag = s.enc.gflag

/-- Both have found the same match (R157). -/
structure SameMatch (s s' : State) : Prop extends SameGroup s s' where
  bestOff : s'.enc.bestOff = s.enc.bestOff
  bestLen : s'.enc.bestLen = s.enc.bestLen

/-- Both have emitted a chunk that covers the same bytes (R180 to R182). -/
structure SameChunk (s s' : State) : Prop extends SameGroup s s' where
  processed : s'.enc.processed = s.enc.processed

theorem SameOutput.appendOut {s s' : State} (h : SameOutput s s') (bs : List Byte) :
    SameOutput (s.appendOut bs) (s'.appendOut bs) :=
  { h with out := by simp only [State.appendOut, h.out, h.op], op := congrArg (· + bs.length) h.op }

theorem SameGroup.appendOut {s s' : State} (h : SameGroup s s') (bs : List Byte) :
    SameGroup (s.appendOut bs) (s'.appendOut bs) :=
  { h.toSameOutput.appendOut bs with gslot := h.gslot, gflag := h.gflag }

/-! ### The parts of an encoder step (R177) -/

/-- A group opened anew forgets the one before (R178). -/
theorem SameOutput.openIfClosed {s s' : State} (h : SameOutput s s')
    (hg : s.enc.gopen = true → SameGroup s s') :
    Follows SameGroup (openIfClosed s) (openIfClosed s') := by
  unfold Machine.openIfClosed
  rw [h.gopen]
  split
  · exact .next (hg ‹_›)
  · exact .next { h.appendOut [0x00#8] with gidx := rfl, gopen := rfl, gslot := h.op, gflag := rfl }

/-- The candidate loop reads the offset, the limit and the best match only (R157). -/
theorem scanBucket_same (src : Memory) {cs : List Nat} {e e' u : Encoder} (hoff : e'.off = e.off)
    (hlim : e'.lim = e.lim) (hbestOff : e'.bestOff = e.bestOff) (hbestLen : e'.bestLen = e.bestLen)
    (hu : scanBucket src cs e = some u) :
    ∃ u', scanBucket src cs e' = some u' ∧ u'.bestOff = u.bestOff ∧ u'.bestLen = u.bestLen := by
  induction cs generalizing e e' with
  | nil =>
    cases hu
    exact ⟨e', rfl, hbestOff, hbestLen⟩
  | cons c cs ih =>
    unfold scanBucket at hu ⊢
    rw [hlim, hoff]
    split at hu
    · rename_i l hl
      exact ih (e := e.consider c l) hoff hlim (by simp only [Encoder.consider, hbestOff, hbestLen])
        (by simp only [Encoder.consider, hbestLen]) hu
    · cases hu

theorem SameGroup.find {s s' : State} (h : SameGroup s s') :
    Follows SameMatch (execFind s) (execFind s') := by
  unfold execFind
  rw [h.slen, h.off, h.src, h.ht]
  split
  · exact .next { h with src := rfl, ht := rfl, bestOff := rfl, bestLen := rfl }
  · split
    · exact .fault _ _
    · split
      · exact .next { h with src := rfl, ht := rfl, bestOff := rfl, bestLen := rfl }
      · intro t ht
        split at ht
        · rename_i key _ _ c cs _ _ e he
          have hlim : (s'.enc.startScan key).lim = (s.enc.startScan key).lim := by
            simp only [Encoder.startScan, h.slen, h.off]
          obtain ⟨e', he', hbestOff, hbestLen⟩ := scanBucket_same s.src (e := s.enc.startScan key)
            (e' := s'.enc.startScan key) h.off hlim rfl rfl he
          cases ht
          have hframe := (scanBucket_spec he).1
          have hframe' := (scanBucket_spec he').1
          refine ⟨_, by rw [he'], ?_⟩
          rw [hframe, hframe']
          exact { h with src := rfl, ht := rfl, bestOff := hbestOff, bestLen := hbestLen }
        · cases ht

theorem SameGroup.emitCode {s s' : State} (h : SameGroup s s') (n : Nat) (code : List Byte) :
    SameChunk (s.emitCode n code) (s'.emitCode n code) := { h.appendOut code with processed := rfl }

theorem SameGroup.emitByte {s s' : State} (h : SameGroup s s') (b : Byte) :
    SameChunk (s.emitByte b) (s'.emitByte b) :=
  { h.appendOut [b] with
    gflag := by simp only [State.emitByte, State.appendOut, h.gflag, h.gidx], processed := rfl }

theorem SameMatch.emitBest {s s' : State} (h : SameMatch s s') :
    Follows SameChunk (emitBest s) (emitBest s') := by
  have hg := h.toSameGroup
  unfold Machine.emitBest execEmitLit execEmitRef2 execEmitRef3
  rw [h.bestLen, h.bestOff, h.off, h.slen, h.src]
  split
  · split
    · exact .fault _ _
    · split
      · exact .next (hg.emitByte _)
      · exact .fault _ _
  · split
    · split
      · exact .next (hg.emitCode _ _)
      · exact .refused _ _
    · split
      · exact .next (hg.emitCode _ _)
      · exact .refused _ _

/-- The advance and the table update are the same for the same chunk (R183). -/
theorem SameChunk.advance {s s' : State} (h : SameChunk s s') :
    Follows SameGroup (advanceEncoder s) (advanceEncoder s') := by
  unfold advanceEncoder execHtUpdate
  simp only
  rw [h.src, h.slen, h.off, h.processed, h.ht]
  cases insertRange s.src s.enc.slen (s.enc.off + s.enc.processed - s.enc.off) s.enc.off
      (s.ht.evict (s.enc.off + s.enc.processed)) with
  | none => exact .fault _ _
  | some t =>
    exact .next { h with
      src := rfl, ht := rfl, off := rfl, slen := rfl, gidx := congrArg (· + 1) h.gidx }

theorem SameGroup.close {s s' : State} (h : SameGroup s s') :
    Follows SameGroup (closeIfComplete s) (closeIfComplete s') := by
  unfold closeIfComplete execGroupClose
  rw [h.gidx, h.off, h.slen, h.gslot, h.op]
  split
  · split
    · exact .next { h with out := by simp only [State.closeGroup, h.out, h.gslot, h.gflag], gopen := rfl }
    · exact .fault _ _
  · exact .next h

/-- One encoder step writes the same chunk (R177). -/
theorem SameOutput.encoderStep {s s' : State} (h : SameOutput s s')
    (hg : s.enc.gopen = true → SameGroup s s') :
    Follows SameGroup (encoderStep s) (encoderStep s') :=
  (h.openIfClosed hg).andThen fun _ _ h1 => h1.find.andThen fun _ _ h2 => h2.emitBest.andThen
    fun _ _ h3 => h3.advance.andThen fun _ _ h4 => h4.close

/-! ### The whole command (R186) -/

/-- What the host sees of COMPRESS is the same. -/
def SameAnswer (s s' : State) : Prop := s'.status = s.status ∧ s'.res = s.res

theorem SameOutput.finishCompress {s s' : State} (h : SameOutput s s') :
    Follows SameAnswer (finishCompress s) (finishCompress s') := by
  unfold Machine.finishCompress
  rw [h.out, h.op]
  split
  · exact .next ⟨rfl, rfl⟩
  · exact .fault _ _

theorem SameOutput.compressLoop (n : Nat) {s s' : State} (h : SameOutput s s')
    (hg : s.enc.gopen = true → SameGroup s s') :
    Follows SameAnswer (compressLoop n s) (compressLoop n s') := by
  induction n generalizing s s' with
  | zero =>
    unfold Machine.compressLoop
    rw [h.off, h.slen]
    split
    · exact .fault _ _
    · exact h.finishCompress
  | succ n ih =>
    unfold Machine.compressLoop
    rw [h.off, h.slen]
    split
    · exact (h.encoderStep hg).andThen fun _ _ hs => ih hs.toSameOutput fun _ => hs
    · exact h.finishCompress

/-- COMPRESS starts alike on equal sources and alignments (10_state.md R48). -/
theorem SameInput.startCompress {s s' : State} (h : SameInput s s') (halign : s'.cmd.align = s.cmd.align) :
    Follows (fun t t' => SameOutput t t' ∧ t.enc.gopen = false) (startCompress s) (startCompress s') := by
  have hsame : SameOutput (s.loadSource.begin .encode) (s'.loadSource.begin .encode) :=
    ⟨congrArg Memory.ofBytes h.input, rfl, rfl, rfl, congrArg List.length h.input, rfl, rfl, rfl⟩
  unfold Machine.startCompress
  rw [h.input, halign]
  split
  · simp only [execWriteHeader, State.begin_params, State.loadSource_params, h.params]
    exact .next ⟨hsame.appendOut _, rfl⟩
  · exact .refused _ _

theorem execCompress_idle {s : State} (hp : s.phase = .idle) :
    execCompress s = andThen (startCompress s) fun t => compressLoop t.enc.slen t := by
  simp [execCompress, State.busy, hp]

theorem SameInput.compress {s s' : State} (h : SameInput s s') (hp : s.phase = .idle)
    (hp' : s'.phase = .idle) (halign : s'.cmd.align = s.cmd.align) :
    Follows SameAnswer (execCompress s) (execCompress s') := by
  rw [execCompress_idle hp, execCompress_idle hp']
  refine (h.startCompress halign).andThen fun t t' ⟨ht, hclosed⟩ => ?_
  rw [ht.slen]
  exact ht.compressLoop _ fun hopen => absurd hopen (by simp [hclosed])

theorem execParseHeader_idle {s : State} (hp : s.phase = .idle) :
    execParseHeader s = probeStep (startProbe s) := by
  simp [execParseHeader, State.busy, hp]

end Sys2Proof.Machine

open Sys2Proof Sys2Proof.Machine

/-- Settles O59: two runs of each command, stage by stage. -/
theorem resultsDependOnTheInputsOnly : Obligations.ResultsDependOnTheInputsOnly := by
  intro s s' t hp hp' hparams hinput
  have h : SameInput s s' := ⟨hparams.symm, hinput.symm⟩
  refine ⟨fun i hi ht => ?_, fun hdest ht => ?_, fun halign ht => ?_⟩
  · rcases hi with rfl | rfl | rfl
    · rw [exec, execParseHeader_idle hp] at ht
      rw [exec, execParseHeader_idle hp']
      exact h.parseHeader t ht
    · obtain ⟨t', ht', hr⟩ := h.decompressCommand (form := .alloc) hp hp' (by simp) t ht
      exact ⟨t', ht', hr.status, hr.res⟩
    · obtain ⟨t', ht', hr⟩ := h.decompressCommand (form := .unsafeAlloc) hp hp' (by simp) t ht
      exact ⟨t', ht', hr.status, hr.res⟩
  · obtain ⟨t', ht', hr⟩ := h.decompressCommand (form := .into) hp hp' (fun _ => hdest.symm) t ht
    exact ⟨t', ht', hr.status, hr.res, hr.dst⟩
  · exact h.compress hp hp' halign.symm t ht

end

section
/-! How the engine starts: the state after power-on (10_state.md R49), a header record loaded (R38), and the
states that COMPRESS and DECOMPRESS begin their loops in (10_state.md R47, R48). -/

namespace Sys2Proof.Machine

/-- The data after power-on: canonical spaces, the empty table, every counter at zero (R49). -/
theorem reset_canonical : Canonical State.reset := by
  obtain ⟨hsrc, hout, hstream, hdst, hht⟩ := reset_memory_wf
  exact ⟨hsrc, hout, hstream, hdst, hht, by simp [State.reset], Nat.zero_le _, Nat.zero_le _⟩

/-- The header record as an instruction is the load of the header registers (R140, log 24). -/
theorem exec_hdr (size align : BitVec 32) (r : List Byte) (s : State) :
    exec (.hdr size align r) s = .next (s.loadHeader size align r) := rfl

theorem core_run_zero (s : State) : core.run 0 s = .next s := rfl

/-- One step that answers, in front of a run. -/
theorem core_run_succ {s t : State} (h : step s = .next t) (k : Nat) :
    core.run (k + 1) s = core.run k t := by
  simp only [Host.Core.run, show core.step s = .next t from h]

/-- Bytes written from address 0 of an empty space are the space that holds them. -/
theorem Memory.writeAll_nil (bs : List Byte) : Memory.writeAll [] 0 bs = Memory.ofBytes bs :=
  Memory.writeAll_ofBytes_end [] bs

/-- Taking up COMPRESS of a source that fits loads it and appends the header to an empty `OUT` (R48, R176). -/
theorem step_issued_compress {s : State} (h : issued .compress s)
    (hl : s.cmd.input.length < Config.sourceLimit) :
    step s = .next ((s.loadSource.begin .encode).appendOut
      (headerBytes s.params (BitVec.ofNat 32 s.cmd.input.length) s.cmd.align)) := by
  rw [step_issued h, acceptCommand, startCompress, if_pos hl]
  rfl

/-- Taking up DECOMPRESS asks nothing of the command record (R200). -/
theorem step_issued_decompress {s : State} (h : issued .decompress s) :
    step s = .next (startDecompress .alloc s) := step_issued h

/-- The header step of DECOMPRESS on an accepted header within the capacity sets up the replay (R203, D23). -/
theorem step_startDecompress_found {s : State} {size align : BitVec 32} {r body : List Byte}
    (hr : r.length = s.params.reservedLen) (hin : s.cmd.input = encode (.hdr size align r) ++ body)
    (hcap : size.toNat ≤ s.params.dstCapacity) :
    step (startDecompress .alloc s) =
      .next (setUpReplay .alloc ((startDecompress .alloc s).loadHeader size align r)) := by
  rw [step_header rfl, headerStep_found .alloc hr hin]
  exact if_pos hcap

/-- The replay set up over a whole buffer with room for the header stands in its invariant (R47). -/
theorem setUpReplay_replayInv {form : DecForm} {s : State} (ho : StreamOpen s)
    (hm : s.mode = modeOf form) (hl : s.params.headerSize ≤ s.rd.len) :
    ReplayInv form (setUpReplay form s) :=
  { ho with pos := hl, wp := Nat.zero_le _, written := rfl, fresh := rfl, body := Nat.le_refl _, mode := hm }

end Sys2Proof.Machine

open Sys2Proof Sys2Proof.Machine

/-- Settles O2: the data is canonical, `STATUS` is IDLE without an error, no phase is entered. -/
theorem resetMeetsInvariant : Obligations.ResetMeetsInvariant :=
  { reset_canonical with err := by decide, running := by decide, phase := trivial }

/-- Settles O31: the record is loaded, whatever the state. -/
theorem headerRecordLoadsRegisters : Obligations.HeaderRecordLoadsRegisters := exec_hdr

/-- Settles O13: the one step is the start of COMPRESS, which appends the header to an empty `OUT`. -/
theorem compressStartsWithTheHeader : Obligations.CompressStartsWithTheHeader := by
  intro s hs hlen
  refine ⟨_, step_issued_compress hs hlen, ?_⟩
  simp [Memory.writeAll_nil]

/-- Settles O12: the command is taken up, then its header step sets up the replay. -/
theorem decompressSetsUpTheReplay : Obligations.DecompressSetsUpTheReplay := by
  intro s size align r body hs hr hin hcap
  have hrun : core.run 2 s =
      .next (setUpReplay .alloc ((startDecompress .alloc s).loadHeader size align r)) := by
    rw [core_run_succ (step_issued_decompress hs), core_run_succ (step_startDecompress_found hr hin hcap),
      core_run_zero]
  have hlen : s.params.headerSize ≤ s.cmd.input.length := by
    rw [hin, List.length_append, encode_hdr_length, hr]
    exact Nat.le_add_right _ _
  have hpos : 0 + s.params.headerSize ≤ s.cmd.input.length := by omega
  have hopen : StreamOpen ((startDecompress .alloc s).loadHeader size align r) :=
    { streamOpen_loaded s with pos := hpos }
  exact ⟨_, hrun, rfl, rfl, rfl, rfl, rfl, rfl, rfl, rfl, rfl, rfl, rfl, setUpReplay_replayInv hopen rfl hlen⟩

end

section
/-! What a stream item leaves unchanged (10_state.md R44; 44_decompressor.md R205 to R213). -/

namespace Sys2Proof.Machine

/-- Validate-and-copy, completed or faulted, changes the decoder's registers but `DLEN`, `DST` and what a
fault writes; `WP` does not move back (R211 to R213, R241, R242). -/
theorem validateAndCopy_frame {s t : State} (h : validateAndCopy s = .next t) :
    t = { s with
      dec := t.dec, dst := t.dst, dstSpoiled := t.dstSpoiled, freeCount := t.freeCount,
      status := t.status, res := t.res, phase := t.phase } ∧
      t.dec.dlen = s.dec.dlen ∧ s.dec.wp ≤ t.dec.wp := by
  rcases validateAndCopy_next h with ⟨-, he, -⟩ | ⟨-, -, rfl⟩
  · rw [he]
    exact ⟨rfl, rfl, Nat.le_add_right _ _⟩
  · exact ⟨rfl, rfl, Nat.le_refl _⟩

theorem State.loadShort_rd (s : State) (n : BitVec 4) (d : BitVec 12) :
    (s.loadShort n d).rd = { s.rd with pos := s.rd.pos + 2 } := rfl

theorem State.loadLong_rd (s : State) (d : BitVec 12) (e : Byte) :
    (s.loadLong d e).rd = { s.rd with pos := s.rd.pos + 3 } := rfl

/-- A stream item, completed or faulted, also moves the cursor forward, and changes nothing else. -/
theorem item_frame {i : Instr} {c : Ctx} {s t : State} (hi : i.ctx = some c) (hc : c ≠ .header)
    (h : exec i s = .next t) :
    t = { s with
      rd.pos := t.rd.pos, dec := t.dec, dst := t.dst, dstSpoiled := t.dstSpoiled,
      freeCount := t.freeCount, status := t.status, res := t.res, phase := t.phase } ∧
      t.dec.dlen = s.dec.dlen ∧ s.rd.pos < t.rd.pos ∧ s.dec.wp ≤ t.dec.wp := by
  rcases (item_next hi hc h).2 with
    ⟨f, -, -, rfl⟩ | ⟨b, -, -, rfl⟩ | ⟨n, d, -, -, -, hm⟩ | ⟨d, e, -, -, hm⟩
  · exact ⟨rfl, rfl, Nat.lt_succ_self _, Nat.le_refl _⟩
  · exact ⟨rfl, rfl, Nat.lt_succ_self _, Nat.le_succ _⟩
  · obtain ⟨he, hdlen, hwp⟩ := validateAndCopy_frame hm
    have hpos : t.rd.pos = s.rd.pos + 2 := by rw [he, State.loadShort_rd]
    exact ⟨by rw [he]; simp [State.loadShort_rd], hdlen, by omega, hwp⟩
  · obtain ⟨he, hdlen, hwp⟩ := validateAndCopy_frame hm
    have hpos : t.rd.pos = s.rd.pos + 3 := by rw [he, State.loadLong_rd]
    exact ⟨by rw [he]; simp [State.loadLong_rd], hdlen, by omega, hwp⟩

end Sys2Proof.Machine

open Sys2Proof Sys2Proof.Machine

/-- Settles O20: an item runs through its selection, and its frame holds what it leaves. -/
theorem itemsRunWhenSelectedAndLeaveTheRest : Obligations.ItemsRunWhenSelectedAndLeaveTheRest := by
  intro i c s t hi hc h
  obtain ⟨he, hdlen, hpos, hwp⟩ := item_frame hi hc h
  refine ⟨(item_next hi hc h).1, ?_, ?_, ?_, ?_, ?_, ?_, ?_, ?_, ?_, ?_, ?_, ?_, hdlen, ?_, hpos, hwp⟩ <;> rw [he]

end

section
/-! `MODE` and `STATUS` over one step (10_state.md R26, R40; 60_exceptions.md R241, R248). -/

namespace Sys2Proof.Machine

/-! ### A command in progress -/

/-- A command in progress goes on with its mode and its `STATUS`, or has ended in its mode. -/
def GoesOnOrEnds (s t : State) : Prop :=
  t.mode = s.mode ∧ (t.status = s.status ∨ t.phase = .idle ∧ ended t)

theorem GoesOnOrEnds.finish {s u : State} (hmode : u.mode = s.mode) (r : Res) :
    GoesOnOrEnds s (u.finish r) := ⟨hmode, .inr ⟨rfl, .inl rfl⟩⟩

theorem GoesOnOrEnds.takeFault {s u : State} (hmode : u.mode = s.mode) (e : FaultKind) :
    GoesOnOrEnds s (u.takeFault e) :=
  ⟨(u.takeFault_mode e).trans hmode, .inr ⟨u.takeFault_phase e, .inr (by rw [State.takeFault_status])⟩⟩

theorem probeStep_goesOnOrEnds {s t : State} (h : probeStep s = .next t) : GoesOnOrEnds s t := by
  rcases readHeader_next h with ⟨size, align, r, h⟩ | ⟨k, h⟩
  · cases h
    exact .finish (s.loadHeader_mode size align r) _
  · cases h
    exact .finish (s.advance_mode k) _

theorem headerStep_goesOnOrEnds {form : DecForm} {s t : State} (h : headerStep form s = .next t) :
    GoesOnOrEnds s t := by
  rcases readHeader_next h with ⟨size, align, r, h⟩ | ⟨k, h⟩
  · rcases headerFound_next h with rfl | rfl
    · exact ⟨by simp, .inl (by simp)⟩
    · exact .takeFault (s.loadHeader_mode size align r) _
  · obtain rfl := headerAbsent_next h
    exact .takeFault (s.advance_mode k) _

/-- A match code in `u`, the state after its fetch, which is still in the mode and `STATUS` of `s`. -/
theorem validateAndCopy_goesOnOrEnds {s u t : State} (hmode : u.mode = s.mode)
    (hstatus : u.status = s.status) (h : validateAndCopy u = .next t) : GoesOnOrEnds s t := by
  rcases validateAndCopy_next h with ⟨-, he, -⟩ | ⟨-, -, rfl⟩
  · rw [he]
    exact ⟨hmode, .inl hstatus⟩
  · exact .takeFault hmode _

theorem item_goesOnOrEnds {i : Instr} {c : Ctx} {s t : State} (hi : i.ctx = some c) (hc : c ≠ .header)
    (h : exec i s = .next t) : GoesOnOrEnds s t := by
  rcases (item_next hi hc h).2 with
    ⟨f, -, -, rfl⟩ | ⟨b, -, -, rfl⟩ | ⟨n, d, -, -, -, hm⟩ | ⟨d, e, -, -, hm⟩
  · exact ⟨rfl, .inl rfl⟩
  · exact ⟨rfl, .inl rfl⟩
  · exact validateAndCopy_goesOnOrEnds (s.loadShort_mode n d) (s.loadShort_status n d) hm
  · exact validateAndCopy_goesOnOrEnds (s.loadLong_mode d e) (s.loadLong_status d e) hm

theorem State.partialFetch_mode (s : State) : s.partialFetch.mode = s.mode := by
  rcases s.partialFetch_cases with h | ⟨b0, b1, -, h⟩ <;> rw [h]
  rfl

theorem itemStep_goesOnOrEnds {s t : State} (h : itemStep s = .next t) : GoesOnOrEnds s t := by
  rcases itemStep_cases s with ⟨i, rest, hd, he⟩ | ⟨-, he⟩ | ⟨-, he⟩
  · exact item_goesOnOrEnds (decode_item_ctx s.itemCtx_ne_header hd).1 s.itemCtx_ne_header (he ▸ h)
  · obtain rfl := truncatedItem_next (he ▸ h)
    exact .takeFault s.partialFetch_mode _
  · rw [he] at h
    cases h

/-- Every step of a command in progress, phase by phase. -/
theorem step_goesOnOrEnds {s t : State} (hp : s.phase ≠ .idle) (h : step s = .next t) :
    GoesOnOrEnds s t := by
  cases hs : s.phase with
  | idle => exact absurd hs hp
  | probe => exact probeStep_goesOnOrEnds (step_probe hs ▸ h)
  | header form => exact headerStep_goesOnOrEnds (step_header hs ▸ h)
  | replay form =>
    rw [step_replay hs] at h
    split at h
    · exact itemStep_goesOnOrEnds h
    · obtain ⟨r, rfl⟩ := finishReplay_next h
      exact .finish rfl r
  | encode =>
    rw [step_encode hs] at h
    split at h
    · have hf := encoderStep_frame h
      exact ⟨by rw [hf], .inl (by rw [hf])⟩
    · obtain ⟨r, rfl⟩ := finishCompress_next h
      exact .finish rfl r

/-! ### An engine with no command in progress -/

/-- A decompress command that is admitted is RUNNING without an error (R40). -/
theorem admitted_status {form : DecForm} {s t : State}
    (h : (andThen (admitDecompress form s) fun u => .next (startDecompress form u)) = .next t) :
    t.status = ⟨.running, none⟩ := by
  obtain ⟨u, -, ht⟩ := (andThen_eq_next_iff _ _ _).1 h
  cases ht
  rfl

/-- A command that is taken up is RUNNING without an error, and only a decompress command sets the mode
(R40, R248). -/
theorem acceptCommand_modeAndStatus {op : CmdOp} {s t : State} (h : acceptCommand op s = .next t) :
    t.status = ⟨.running, none⟩ ∧ (t.mode = s.mode ∨
      op = .decompress ∨ op = .decompressInto ∨ op = .decompressUnsafe) := by
  cases op with
  | parseHeader =>
    cases h
    exact ⟨rfl, .inl rfl⟩
  | compress =>
    obtain ⟨-, rfl⟩ := startCompress_next h
    exact ⟨rfl, .inl rfl⟩
  | decompress => exact ⟨admitted_status (form := .alloc) h, .inr (.inl rfl)⟩
  | decompressInto => exact ⟨admitted_status (form := .into) h, .inr (.inr (.inl rfl))⟩
  | decompressUnsafe => exact ⟨admitted_status (form := .unsafeAlloc) h, .inr (.inr (.inr rfl))⟩

/-- An idle engine takes up the command that was issued, or keeps mode and `STATUS` (logs 27, 28). -/
theorem step_idle_cases {s t : State} (hp : s.phase = .idle) (h : step s = .next t) :
    (∃ op, issued op s ∧ acceptCommand op s = .next t) ∨ (t.mode = s.mode ∧ t.status = s.status) := by
  rw [step_idle hp, idleStep] at h
  split at h
  · rename_i hpending
    split at h
    · rename_i op hop
      exact .inl ⟨op, ⟨hp, hpending, hop⟩, h⟩
    · cases h
      exact .inr ⟨rfl, rfl⟩
  · cases h
    exact .inr ⟨rfl, rfl⟩

end Sys2Proof.Machine

open Sys2Proof Sys2Proof.Machine

/-- Settles O60: an idle engine takes up a command or waits; a command in progress goes on or ends. -/
theorem modeAndStatusChangeOnlyWithTheCommand : Obligations.ModeAndStatusChangeOnlyWithTheCommand := by
  intro s t h
  by_cases hp : s.phase = .idle
  · rcases step_idle_cases hp h with ⟨op, hs, ha⟩ | ⟨hmode, hstatus⟩
    · obtain ⟨hrun, hmode⟩ := acceptCommand_modeAndStatus ha
      refine ⟨fun hne => ?_, fun _ => .inl ⟨op, hs, hrun⟩⟩
      rcases hmode.resolve_left hne with rfl | rfl | rfl
      · exact .inl hs
      · exact .inr (.inl hs)
      · exact .inr (.inr hs)
    · exact ⟨fun hne => absurd hmode hne, fun hne => absurd hstatus hne⟩
  · obtain ⟨hmode, hstatus⟩ := step_goesOnOrEnds hp h
    exact ⟨fun hne => absurd hmode hne, fun hne => .inr ⟨hp, hstatus.resolve_left hne⟩⟩

end

section
/-! No step of a state that meets the invariant stops with a fault of the model (20_memory.md R72, R80, R81;
44_decompressor.md R219): every byte that is read holds a value, every byte that is written lies inside. -/

namespace Sys2Proof.Machine

/-! ### Taking up a command -/

/-- Admission answers or refuses (R78, R249). -/
theorem admitDecompress_no_fault (form : DecForm) (s : State) (r : Fault) :
    admitDecompress form s ≠ .fault r := by
  intro h
  unfold admitDecompress at h
  (repeat' split at h) <;> cases h

theorem admitted_no_fault (form : DecForm) (s : State) (r : Fault) :
    (andThen (admitDecompress form s) fun t => .next (startDecompress form t)) ≠ .fault r := by
  intro h
  rcases (andThen_eq_fault_iff _ _ _).1 h with h | ⟨t, -, h⟩
  · exact admitDecompress_no_fault form s r h
  · cases h

/-- COMPRESS writes its header at the end of an empty `OUT`, or is refused (R189). -/
theorem startCompress_no_fault (s : State) (r : Fault) : startCompress s ≠ .fault r := by
  intro h
  unfold startCompress at h
  split at h <;> cases h

/-- Taking up a command reads no space. -/
theorem acceptCommand_no_fault (op : CmdOp) (s : State) (r : Fault) : acceptCommand op s ≠ .fault r := by
  cases op with
  | parseHeader => exact nofun
  | compress => exact startCompress_no_fault s r
  | decompress => exact admitted_no_fault .alloc s r
  | decompressInto => exact admitted_no_fault .into s r
  | decompressUnsafe => exact admitted_no_fault .unsafeAlloc s r

theorem idleStep_no_fault (s : State) (r : Fault) : idleStep s ≠ .fault r := by
  unfold idleStep
  split
  · split
    · exact acceptCommand_no_fault _ s r
    · exact nofun
  · exact nofun

/-! ### The header read -/

/-- The buffer of an open stream reader holds every byte below its length (R37, R44). -/
theorem StreamOpen.bufMem_holds {s : State} (h : StreamOpen s) : (s.bufMem s.rd.buf).holds s.rd.len := by
  rw [h.buf, h.len]
  exact h.whole

/-- A header read over a whole buffer faults only where one of its two ways on does (R140). -/
theorem readHeader_no_fault {s : State} {found absent : State → Result} {r : Fault} (ho : StreamOpen s)
    (hfound : ∀ t, found t ≠ .fault r) (habsent : ∀ t, absent t ≠ .fault r) :
    readHeader found absent s ≠ .fault r := by
  rcases readHeader_cases ho.bufMem_holds found absent with
    ⟨size, align, reserved, rest, -, -, -, he⟩ | ⟨-, k, -, he⟩
  · rw [he]
    exact hfound _
  · rw [he]
    exact habsent _

/-- After an accepted header nothing is read (R200 to R203). -/
theorem headerFound_no_fault (form : DecForm) (s : State) (r : Fault) : headerFound form s ≠ .fault r := by
  intro h
  unfold headerFound at h
  (repeat' split at h) <;> cases h

theorem headerAbsent_no_fault (s : State) (r : Fault) : headerAbsent s ≠ .fault r := by
  intro h
  unfold headerAbsent at h
  split at h <;> cases h

theorem probeStep_no_fault {s : State} (ho : StreamOpen s) (r : Fault) : probeStep s ≠ .fault r :=
  readHeader_no_fault ho (fun _ => nofun) (fun _ => nofun)

theorem headerStep_no_fault {s : State} (form : DecForm) (ho : StreamOpen s) (r : Fault) :
    headerStep form s ≠ .fault r :=
  readHeader_no_fault ho (fun t => headerFound_no_fault form t r) (fun t => headerAbsent_no_fault t r)

/-! ### The replay -/

theorem truncatedItem_no_fault (s : State) (r : Fault) : truncatedItem s ≠ .fault r := by
  intro h
  unfold truncatedItem at h
  split at h <;> cases h

/-- One item of a replay: the fetch stays inside `STREAM`, a match inside the bytes written (R211, R218). -/
theorem itemStep_no_fault {form : DecForm} {s : State} (hv : ReplayInv form s) (r : Fault) :
    itemStep s ≠ .fault r := by
  rcases itemStep_cases s with ⟨i, rest, hd, he⟩ | ⟨-, he⟩ | ⟨hshort, -⟩
  · rw [he]
    exact item_no_fault (decode_item_ctx s.itemCtx_ne_header hd).1 s.itemCtx_ne_header hv.written
  · rw [he]
    exact truncatedItem_no_fault s r
  · rw [State.itemWindow_length hv.bufMem_holds] at hshort
    exact absurd hshort (Nat.lt_irrefl _)

/-- The end of a decompress command reads `DST[0..DLEN)`, all of it written (R200, R215). -/
theorem finishReplay_no_fault (form : DecForm) {s : State} (hw : s.dst.holds s.dec.dlen.toNat) (r : Fault) :
    finishReplay form s ≠ .fault r := by
  obtain ⟨bs, hbs⟩ := Memory.readSpan_holds (a := 0) hw (Nat.zero_add _).le
  cases form <;> simp [finishReplay, hbs]

/-! ### COMPRESS -/

/-- The end of COMPRESS reads `OUT[0..OP)`, all of it written (R186). -/
theorem finishCompress_no_fault {s : State} (ho : s.out.holds s.enc.op) (r : Fault) :
    finishCompress s ≠ .fault r := by
  obtain ⟨bs, hbs⟩ := Memory.readSpan_holds (a := 0) ho (Nat.zero_add _).le
  simp [finishCompress, hbs]

/-! ### Every step -/

/-- No step from an invariant state faults, phase by phase. -/
theorem step_no_fault {s : State} (hs : Inv s) (r : Fault) : step s ≠ .fault r := by
  have hphase := hs.phase
  cases hp : s.phase <;> simp only [phaseInv, hp] at hphase
  case idle =>
    rw [step_idle hp]
    exact idleStep_no_fault s r
  case probe =>
    rw [step_probe hp]
    exact probeStep_no_fault hphase.1 r
  case header form =>
    rw [step_header hp]
    exact headerStep_no_fault form hphase.1 r
  case replay form =>
    rw [step_replay hp]
    split
    · exact itemStep_no_fault hphase r
    · have hfull : s.dec.wp = s.dec.dlen.toNat := Nat.le_antisymm hphase.wp (Nat.not_lt.1 ‹_›)
      exact finishReplay_no_fault form (hfull ▸ hphase.written) r
  case encode =>
    rw [step_encode hp]
    split
    · obtain ⟨t, ht, -⟩ := encoderStep_keeps_encodeInv hphase hs.ht ‹_›
      rw [ht]
      exact nofun
    · exact finishCompress_no_fault hphase.out r

end Sys2Proof.Machine

open Sys2Proof Sys2Proof.Machine

/-- Settles O56: phase by phase over the step. -/
theorem invariantStatesNeverFault : Obligations.InvariantStatesNeverFault :=
  fun _ r hs => step_no_fault hs r

end

section
/-! The match codes and COPY (44_decompressor.md R208 to R213): inside the destination the bytes behind are
repeated (20_memory.md R75), outside it CorruptCopy is taken or the code is refused (R211, R249). -/

namespace Sys2Proof.Machine

/-! ### Selection and operands -/

/-- A REF2 that the decoder state selects loads its operands, validates and copies (R208, R209). -/
theorem exec_ref2_awaited {n : BitVec 4} {s : State} (d : BitVec 12) (hn : n ≠ 0#4)
    (h : awaitsReference s) : exec (.ref2 n d) s = validateAndCopy (s.loadShort n d) := by
  rw [exec, execRef2, if_neg hn, selected_eq _ h.1 h.2.1 h.ctx]

/-- A REF3 that the decoder state selects does the same (R208, R210). -/
theorem exec_ref3_awaited {s : State} (d : BitVec 12) (e : Byte) (h : awaitsReference s) :
    exec (.ref3 d e) s = validateAndCopy (s.loadLong d e) := by
  rw [exec, execRef3, selected_eq _ h.1 h.2.1 h.ctx]

/-- The operands of a REF2, as the numbers of R98 and R99. -/
theorem State.loadShort_eq (s : State) (n : BitVec 4) (d : BitVec 12) :
    s.loadShort n d = { s with
      rd.pos := s.rd.pos + 2, dec.pair := n ++ d, dec.dist := BitVec.ofNat 13 (d.toNat + 1),
      dec.nib := n, dec.len := BitVec.ofNat 9 (n.toNat + 2) } := by
  rw [← distOf_toNat n d, ← shortLen_toNat n]
  simp [State.loadShort, State.loadPair, State.advance, pairNibble_append]

/-- The operands of a REF3, as the numbers of R98 and R99. -/
theorem State.loadLong_eq (s : State) (d : BitVec 12) (e : Byte) :
    s.loadLong d e = { s with
      rd.pos := s.rd.pos + 3, dec.pair := 0#4 ++ d, dec.dist := BitVec.ofNat 13 (d.toNat + 1),
      dec.nib := 0#4, dec.extra := e, dec.len := BitVec.ofNat 9 (e.toNat + 18) } := by
  rw [← distOf_toNat 0#4 d, ← longLen_toNat e]
  simp [State.loadLong, State.loadPair, State.advance, pairNibble_append]

/-! ### Inside the destination -/

/-- A match inside the destination, from the state `u` with its operands loaded: validate-and-copy by the
values of `DIST` and `LEN`. -/
theorem validateAndCopy_copies {u : State} {dist len : Nat} (hdist : u.dec.dist.toNat = dist + 1)
    (hlen : u.dec.len.toNat = len) (hbehind : dist + 1 ≤ u.dec.wp)
    (hroom : u.dec.wp + len ≤ u.dec.dlen.toNat) (hsrc : sourceWritten u (dist + 1)) :
    ∃ t, validateAndCopy u = .next t ∧ copiedBehind u t (dist + 1) len ∧
      t = { u with
        dst := t.dst, dec.wp := u.dec.wp + len, dec.csrc := u.dec.wp - (dist + 1) + len,
        dec.flag := u.dec.flag <<< 1, dec.cnt := u.dec.cnt - 1 } := by
  subst hlen
  rw [← hdist] at hbehind hsrc ⊢
  exact validateAndCopy_inside (by omega) hbehind hroom hsrc

/-! ### Outside the destination -/

/-- `u` is `s` after the fetch of the match code `i` for `len` bytes from `dist` behind (R208 to R210): the
cursor is past the code, and of the decoder only the temporaries have changed. -/
structure MatchFetched (i : Instr) (dist len : Nat) (s u : State) : Prop where
  dist : u.dec.dist.toNat = dist
  len : u.dec.len.toNat = len
  frame : u = { s with rd.pos := s.rd.pos + (encode i).length, dec := u.dec }
  wp : u.dec.wp = s.dec.wp
  dlen : u.dec.dlen = s.dec.dlen
  cnt : u.dec.cnt = s.dec.cnt
  flag : u.dec.flag = s.dec.flag

theorem matchFetched_loadShort (s : State) (n : BitVec 4) (d : BitVec 12) :
    MatchFetched (.ref2 n d) (d.toNat + 1) (n.toNat + 2) s (s.loadShort n d) :=
  ⟨s.loadShort_dist n d, s.loadShort_len n d, rfl, rfl, rfl, rfl, rfl⟩

theorem matchFetched_loadLong (s : State) (d : BitVec 12) (e : Byte) :
    MatchFetched (.ref3 d e) (d.toNat + 1) (e.toNat + 18) s (s.loadLong d e) :=
  ⟨s.loadLong_dist d e, s.loadLong_len d e, rfl, rfl, rfl, rfl, rfl⟩

/-- Either match code, where the decoder state selects it, is validate-and-copy after its fetch. -/
theorem exec_match_awaited {i : Instr} {dist len : Nat} {s : State} (h : awaitsReference s)
    (hi : (∃ n d, i = .ref2 n d ∧ n ≠ 0#4 ∧ dist = d.toNat + 1 ∧ len = n.toNat + 2) ∨
      ∃ d e, i = .ref3 d e ∧ dist = d.toNat + 1 ∧ len = e.toNat + 18) :
    ∃ u, exec i s = validateAndCopy u ∧ MatchFetched i dist len s u := by
  rcases hi with ⟨n, d, rfl, hn, rfl, rfl⟩ | ⟨d, e, rfl, rfl, rfl⟩
  · exact ⟨_, exec_ref2_awaited d hn h, matchFetched_loadShort s n d⟩
  · exact ⟨_, exec_ref3_awaited d e h, matchFetched_loadLong s d e⟩

/-- A fetched match that leaves the destination takes CorruptCopy in checked mode and is refused in trusted
mode (R211, R249). -/
theorem MatchFetched.outside {i : Instr} {dist len : Nat} {s u : State} (h : MatchFetched i dist len s u)
    (hout : s.dec.wp < dist ∨ s.dec.dlen.toNat < s.dec.wp + len) :
    (s.mode = .checked → validateAndCopy u = .next (u.takeFault .corruptCopy)) ∧
    (s.mode = .trusted → validateAndCopy u = .refused .trustedMalformed) := by
  have hmode : u.mode = s.mode := by rw [h.frame]
  have hu : u.dec.wp < u.dec.dist.toNat ∨ u.dec.dlen.toNat < u.dec.wp + u.dec.len.toNat := by
    rw [h.wp, h.dlen, h.dist, h.len]
    exact hout
  rw [validateAndCopy_outside hu, hmode]
  exact ⟨fun hm => by rw [hm], fun hm => by rw [hm]⟩

end Sys2Proof.Machine

open Sys2Proof Sys2Proof.Machine

/-- Settles O16: the operands are loaded, then the closed form of the copy. -/
theorem ref2CopiesBehind : Obligations.Ref2CopiesBehind := by
  intro n d s hn hs hbehind hroom hsrc
  obtain ⟨t, ht, hcopied, he⟩ := validateAndCopy_copies (s.loadShort_dist n d) (s.loadShort_len n d)
    hbehind hroom hsrc
  rw [State.loadShort_eq] at he
  exact ⟨t, (exec_ref2_awaited d hn hs).trans ht, hcopied, he⟩

/-- Settles O17: the operands are loaded, then the closed form of the copy. -/
theorem ref3CopiesBehind : Obligations.Ref3CopiesBehind := by
  intro d e s hs hbehind hroom hsrc
  obtain ⟨t, ht, hcopied, he⟩ := validateAndCopy_copies (s.loadLong_dist d e) (s.loadLong_len d e)
    hbehind hroom hsrc
  rw [State.loadLong_eq] at he
  exact ⟨t, (exec_ref3_awaited d e hs).trans ht, hcopied, he⟩

/-- Settles O18: COPY is the copy of its registers' operands, in closed form. -/
theorem copyRepeatsTheBytesBehind : Obligations.CopyRepeatsTheBytesBehind :=
  fun _ => copyMatch_closed

/-- Settles O19: a match code by its fetch and the fault that follows, COPY by what its loop stops in. -/
theorem matchOutOfBoundsFaultsOrIsRefused : Obligations.MatchOutOfBoundsFaultsOrIsRefused := by
  refine ⟨fun i dist len s hs hi hout => ?_, fun _ => copyMatch_outside⟩
  obtain ⟨u, hexec, hu⟩ := exec_match_awaited hs hi
  obtain ⟨hchecked, htrusted⟩ := hu.outside hout
  refine ⟨fun hm => ⟨_, hexec.trans (hchecked hm), rfl, rfl, rfl, hu.wp, hu.cnt, hu.flag, ?_⟩,
    fun hm => hexec.trans (htrusted hm)⟩
  rw [hu.frame]
  exact ⟨rfl, rfl, rfl, rfl, rfl, rfl, rfl, rfl, rfl, rfl⟩

end

section
/-! What is refused when a command is run, and when the host has no move (20_memory.md R78; 43_compressor.md
R189; 60_exceptions.md R251; 92_eei_decisions.md D13, D15, D22, D23). -/

namespace Sys2Proof.Machine

theorem State.busy_of_phase {s : State} (hp : s.phase ≠ .idle) : s.busy = true := bne_iff_ne.2 hp

/-- While a command is in progress every decompress command is refused (R251). -/
theorem decompressCommand_busy {s : State} (form : DecForm) (hp : s.phase ≠ .idle) :
    decompressCommand form s = .refused .engineBusy := if_pos (State.busy_of_phase hp)

/-- An overlapping destination is not admitted (R78, D15). -/
theorem admitDecompress_overlapping {s : State} {n : Nat} (hd : s.cmd.dest = some ⟨n, true⟩) :
    admitDecompress .into s = .refused .overlappingBuffers := by
  simp [admitDecompress, hd]

/-- A source that does not fit the size field is refused before anything is loaded (R189, D13). -/
theorem startCompress_tooLong {s : State} (hl : Config.sourceLimit ≤ s.cmd.input.length) :
    startCompress s = .refused .sourceTooLong := if_neg (Nat.not_lt.2 hl)

/-- DECOMPRESS of a header that asks for more than the capacity is refused in its header step (D23). -/
theorem runDecompress_alloc_tooLarge {s : State} {size align : BitVec 32} {r body : List Byte}
    (hr : r.length = s.params.reservedLen) (hin : s.cmd.input = encode (.hdr size align r) ++ body)
    (hcap : s.params.dstCapacity < size.toNat) :
    runDecompress .alloc s = .refused .destinationTooLarge := by
  have hfound : headerFound .alloc ((startDecompress .alloc s).loadHeader size align r) =
      .refused .destinationTooLarge := if_neg (Nat.not_le.2 hcap)
  rw [runDecompress, headerStep_found .alloc hr hin, hfound, andThen_refused]

/-- The host has no move while a command is in progress or waits to be taken up (R251, D22). -/
theorem State.hostIssue_eq_none {s : State} (cmd : Cmd) (buffer : List Byte)
    (h : s.phase ≠ .idle ∨ s.cmdPending = true) : s.hostIssue cmd buffer = none := by
  rw [Option.eq_none_iff_forall_ne_some]
  intro t ht
  obtain ⟨hp, hn, -⟩ := (State.hostIssue_eq_some_iff s t cmd buffer).1 ht
  rcases h with h | h
  · exact h hp
  · rw [hn] at h
    cases h

end Sys2Proof.Machine

open Sys2Proof Sys2Proof.Machine

/-- Settles O28: each refusal by the part of the command that makes it, and the host's move. -/
theorem commandsRefusedAtTheStart : Obligations.CommandsRefusedAtTheStart := by
  refine ⟨fun s n hp hd => ?_, fun s hp => ?_, fun s hp hl => ?_, fun s size align r body hp hr hin hcap => ?_,
    fun _ cmd buffer => State.hostIssue_eq_none cmd buffer⟩
  · exact (decompressCommand_idle hp).trans (by rw [admitDecompress_overlapping hd, andThen_refused])
  · have hbusy := State.busy_of_phase hp
    exact ⟨if_pos hbusy, if_pos hbusy, decompressCommand_busy .alloc hp, decompressCommand_busy .into hp,
      decompressCommand_busy .unsafeAlloc hp⟩
  · exact (execCompress_idle hp).trans (by rw [startCompress_tooLong hl, andThen_refused])
  · exact (decompressCommand_idle hp).trans (runDecompress_alloc_tooLarge hr hin hcap)

end

section
/-! Decoding and encoding are inverse in every context (30_encoding.md R91 to R101, R107): the five bit-encoded
instructions, their lengths, and the fields of a match. -/

namespace Sys2Proof.Machine

/-! ### Decode of encode -/

/-- A pair whose top nibble is not 0 is a REF2 (R94 item 3, R96). -/
theorem decodeReference_encode_ref2 {n : BitVec 4} (d : BitVec 12) (rest : List Byte) (hn : n ≠ 0#4) :
    decodeReference (encode (.ref2 n d) ++ rest) = .ok (.ref2 n d) rest := by
  simp [encode, bytes16, decodeReference, pairNibble_append, pairDistance_append, hn]

/-- A pair whose top nibble is 0, with the extra byte, is a REF3 (R94 item 3, R97). -/
theorem decodeReference_encode_ref3 (d : BitVec 12) (e : Byte) (rest : List Byte) :
    decodeReference (encode (.ref3 d e) ++ rest) = .ok (.ref3 d e) rest := by
  simp [encode, bytes16, decodeReference, pairNibble_append, pairDistance_append]

/-- In its context a well-formed instruction is read back from its bytes, whatever follows them. -/
theorem decode_encode {p : Config.Params} {i : Instr} {c : Ctx} (rest : List Byte)
    (hw : i.wellFormed p = true) (hc : i.ctx = some c) : decode p c (encode i ++ rest) = .ok i rest := by
  cases i <;> simp only [Instr.ctx, reduceCtorEq, Option.some.injEq] at hc <;> subst hc
  case grp flags => rfl
  case lit b => rfl
  case ref2 n d => exact decodeReference_encode_ref2 d rest (by simpa [Instr.wellFormed] using hw)
  case ref3 d e => exact decodeReference_encode_ref3 d e rest
  case hdr size align r => exact decodeHeader_encode size align rest (by simpa [Instr.wellFormed] using hw)

/-! ### Encode of decode -/

/-- What decodes as a match code is the bytes of a REF2 or of a REF3, with the rest behind them. -/
theorem decodeReference_eq_ok {bs rest : List Byte} {i : Instr} (h : decodeReference bs = .ok i rest) :
    (∃ n d, n ≠ 0#4 ∧ i = .ref2 n d ∧ encode (.ref2 n d) ++ rest = bs) ∨
    ∃ d e, i = .ref3 d e ∧ encode (.ref3 d e) ++ rest = bs := by
  unfold decodeReference at h
  split at h
  · rename_i b0 b1 tail
    have hpair := append_pairFields (be16 b0 b1)
    by_cases hn : pairNibble (be16 b0 b1) = 0#4
    · cases tail with
      | nil => simp [hn] at h
      | cons e tail =>
        obtain ⟨rfl, rfl⟩ : .ref3 (pairDistance (be16 b0 b1)) e = i ∧ tail = rest := by simpa [hn] using h
        rw [hn] at hpair
        exact .inr ⟨_, e, rfl, by simp [encode, hpair]⟩
    · obtain ⟨rfl, rfl⟩ : .ref2 (pairNibble (be16 b0 b1)) (pairDistance (be16 b0 b1)) = i ∧ tail = rest := by
        simpa [hn] using h
      exact .inl ⟨_, _, hn, rfl, by simp [encode, hpair]⟩
  · cases h

/-- What decodes is the encoding of a well-formed instruction of that context, followed by the rest. -/
theorem encode_decode {p : Config.Params} {c : Ctx} {bs rest : List Byte} {i : Instr}
    (h : decode p c bs = .ok i rest) : encode i ++ rest = bs ∧ i.wellFormed p = true ∧ i.ctx = some c := by
  cases c with
  | header =>
    obtain ⟨size, align, r, rfl, hr, rfl⟩ := decodeHeader_eq_ok h
    exact ⟨rfl, by simp [Instr.wellFormed, hr], rfl⟩
  | flag =>
    cases bs <;> cases h
    exact ⟨rfl, rfl, rfl⟩
  | literal =>
    cases bs <;> cases h
    exact ⟨rfl, rfl, rfl⟩
  | reference =>
    rcases decodeReference_eq_ok h with ⟨n, d, hn, rfl, hb⟩ | ⟨d, e, rfl, hb⟩
    · exact ⟨hb, by simpa [Instr.wellFormed] using hn, rfl⟩
    · exact ⟨hb, rfl, rfl⟩

/-! ### Every byte string decodes in an item context -/

/-- An item has 1 to 3 bytes (R93, R95 to R97). -/
theorem encode_item_length {i : Instr} {c : Ctx} (hi : i.ctx = some c) (hc : c ≠ .header) :
    1 ≤ (encode i).length ∧ (encode i).length ≤ 3 := by
  cases i <;> simp only [Instr.ctx, reduceCtorEq, Option.some.injEq] at hi <;> subst hi
  case hdr => exact absurd rfl hc
  all_goals simp [encode, bytes16]

/-- Three bytes are enough for a match code: the top nibble selects its form, and no pattern is left out. -/
theorem decodeReference_total (b0 b1 b2 : Byte) (tail : List Byte) :
    ∃ i rest, decodeReference (b0 :: b1 :: b2 :: tail) = .ok i rest := by
  by_cases hn : pairNibble (be16 b0 b1) = 0#4
  · exact ⟨_, _, if_pos hn⟩
  · exact ⟨_, _, if_neg hn⟩

/-- Three bytes decode in every item context (R107). -/
theorem decode_item_total {p : Config.Params} {c : Ctx} {bs : List Byte} (hc : c ≠ .header)
    (hl : 3 ≤ bs.length) : ∃ i rest, decode p c bs = .ok i rest := by
  match bs, hl with
  | b0 :: b1 :: b2 :: tail, _ =>
    cases c with
    | header => exact absurd rfl hc
    | flag => exact ⟨_, _, rfl⟩
    | literal => exact ⟨_, _, rfl⟩
    | reference => exact decodeReference_total b0 b1 b2 tail

/-! ### The instruction of a match (R98 to R101) -/

/-- Below 18 bytes a match is a REF2, whose nibble is never 0. -/
theorem Chunk.instr_ref_short {dist len : Nat} (h : len < 18) : (Chunk.ref dist len).instr =
    .ref2 (BitVec.ofNat 4 (len - 2)) (BitVec.ofNat 12 (dist - 1)) := if_pos h

/-- From 18 bytes on it is a REF3. -/
theorem Chunk.instr_ref_long {dist len : Nat} (h : 18 ≤ len) : (Chunk.ref dist len).instr =
    .ref3 (BitVec.ofNat 12 (dist - 1)) (BitVec.ofNat 8 (len - 18)) := if_neg (Nat.not_lt.2 h)

/-- The decoder recovers a distance of 1 to 4096 from its field (R98). -/
theorem distOf_distanceField (n : BitVec 4) {dist : Nat} (h1 : 1 ≤ dist) (h2 : dist ≤ 4096) :
    (distOf (n ++ BitVec.ofNat 12 (dist - 1))).toNat = dist := by
  rw [distOf_toNat, BitVec.toNat_ofNat]
  omega

/-- The decoder recovers a length of 3 to 17 from its nibble, which is not 0 (R96, R99). -/
theorem shortLen_lengthField {len : Nat} (h1 : 3 ≤ len) (h2 : len ≤ 17) :
    BitVec.ofNat 4 (len - 2) ≠ 0#4 ∧ (shortLen (BitVec.ofNat 4 (len - 2))).toNat = len := by
  have hn : (BitVec.ofNat 4 (len - 2)).toNat = len - 2 := by
    rw [BitVec.toNat_ofNat]
    omega
  refine ⟨fun h0 => ?_, by rw [shortLen_toNat, hn]; omega⟩
  have hz : len - 2 = 0 := by rw [← hn, h0]; rfl
  omega

/-- The decoder recovers a length of 18 to 273 from its extra byte (R99). -/
theorem longLen_lengthField {len : Nat} (h1 : 18 ≤ len) (h2 : len ≤ 273) :
    (longLen (BitVec.ofNat 8 (len - 18))).toNat = len := by
  rw [longLen_toNat, BitVec.toNat_ofNat]
  omega

/-! ### The flag bits (R93, R213) -/

/-- After `k` chunks the flag is shifted by `k`. -/
theorem flagShift_iterate (f : BitVec 8) (k : Nat) : flagShift^[k] f = f <<< k := by
  induction k with
  | zero => exact (BitVec.shiftLeft_zero f).symm
  | succ k ih => rw [Function.iterate_succ_apply', ih, flagShift, ← BitVec.shiftLeft_add]

end Sys2Proof.Machine

open Sys2Proof Sys2Proof.Machine

/-- Settles O3: words as literals, each decoded by evaluation. -/
theorem sampleWordsDecode : Obligations.SampleWordsDecode :=
  ⟨rfl, rfl, by decide, by decide, by decide, by decide⟩

/-- Settles O4: instruction by instruction, over its own bytes. -/
theorem decodeOfEncodeIsTheInstruction : Obligations.DecodeOfEncodeIsTheInstruction :=
  fun _ _ _ rest => decode_encode rest

/-- Settles O5: context by context, over what the decoder accepts there. -/
theorem encodeOfDecodeIsTheBytes : Obligations.EncodeOfDecodeIsTheBytes :=
  fun _ _ _ _ _ => encode_decode

/-- Settles O6: three bytes decode, and what decodes is an item of 1 to 3 bytes and the rest. -/
theorem everyItemContextDecodes : Obligations.EveryItemContextDecodes := by
  intro p c bs hc hl
  obtain ⟨i, rest, hd⟩ := decode_item_total (p := p) hc hl
  obtain ⟨hctx, hlen⟩ := decode_item_ctx hc hd
  have := encode_item_length hctx hc
  exact ⟨i, rest, hd, by omega, by omega⟩

/-- Settles O7: by the form of the match code, each of its fields read back. -/
theorem everyMatchHasItsEncoding : Obligations.EveryMatchHasItsEncoding := by
  intro dist len hd1 hd2 hl1 hl2
  by_cases hs : len ≤ 17
  · obtain ⟨hn, hlen⟩ := shortLen_lengthField hl1 hs
    exact .inl ⟨hs, _, _, Chunk.instr_ref_short (Nat.lt_succ_of_le hs), hn,
      distOf_distanceField _ hd1 hd2, hlen⟩
  · have hs : 18 ≤ len := Nat.not_le.1 hs
    exact .inr ⟨hs, _, _, Chunk.instr_ref_long hs, distOf_distanceField _ hd1 hd2,
      longLen_lengthField hs hl2⟩

/-- Settles O21: `k` shifts move bit `7 - k` to bit 7. -/
theorem flagBitsGoMostSignificantFirst : Obligations.FlagBitsGoMostSignificantFirst := by
  intro f k hk
  rw [flagShift_iterate, flagIsLiteral, BitVec.getLsbD_shiftLeft]
  simp [Nat.not_lt.2 (Nat.le_of_lt_succ hk)]

end

section
/-! What EMIT_REF2, EMIT_REF3 and COMPRESS write, and that the decompress commands expand every legal stream
(43_compressor.md R181, R182, R187; 44_decompressor.md R200, R202). -/

namespace Sys2Proof.Machine

/-! ### The emits of a match code (R181, R182) -/

theorem distanceFits_iff (off bestOff : Nat) :
    distanceFits off bestOff = true ↔ bestOff < off ∧ off ≤ bestOff + 4096 := by
  simp [distanceFits]

/-- An emit of a match code stores it at `OP`, and of the registers writes `OP` and `PROCESSED` only. -/
theorem emitCode_storedAt (s : State) (n : Nat) (code : List Byte) :
    storedAt s.out (s.emitCode n code).out s.enc.op code ∧
      s.emitCode n code = { s with
        out := (s.emitCode n code).out, enc.op := s.enc.op + code.length, enc.processed := n } :=
  ⟨storedAt_writeAll _ _ _, rfl⟩

/-! ### Decompress commands over a legal stream -/

/-- A command that allocates its destination sets up the replay when the header's size fits (R200, D23). -/
theorem headerFound_fits {form : DecForm} {s : State} (hf : form ≠ .into)
    (hcap : s.hdr.size.toNat ≤ s.params.dstCapacity) :
    headerFound form s = .next (setUpReplay form s) := by
  cases form with
  | alloc => exact if_pos hcap
  | unsafeAlloc => exact if_pos hcap
  | into => exact absurd rfl hf

/-- A command that allocated its destination ends DONE with the bytes of the full destination (R200). -/
theorem finishReplay_full {form : DecForm} {s : State} {bs : List Byte} (hf : form ≠ .into)
    (hdst : s.dst = Memory.ofBytes bs) (hlen : bs.length = s.dec.dlen.toNat) :
    finishReplay form s = .next (s.finish (.bytes bs)) := by
  have hread : s.dst.readSpan 0 s.dec.dlen.toNat = some bs := by
    rw [hdst, ← hlen, Memory.readSpan_ofBytes _ _ _ (Nat.zero_add _).le, List.drop_zero, List.take_length]
  cases form with
  | alloc => simp [finishReplay, hread]
  | unsafeAlloc => simp [finishReplay, hread]
  | into => exact absurd rfl hf

/-- `t` is the end of a decompress command of the form `form` on the stream of the chunks `cs`, followed by
`trailing`, in the buffer of `s`. -/
structure Expanded (form : DecForm) (s : State) (cs : List Chunk) (trailing : List Byte) (t : State) : Prop where
  status : t.status = ⟨.done, none⟩
  res : t.res = .bytes (expandChunks cs)
  pos : t.rd.pos + trailing.length = s.cmd.input.length
  mode : t.mode = modeOf form

section
variable {form : DecForm} {s : State} {size align : BitVec 32} {r : List Byte} {spare : Byte}
  {cs : List Chunk} {trailing : List Byte}

/-- From its start to its end such a command expands the stream of a legal chunk list (R200, R203, R216). -/
theorem runDecompress_expands (hf : form ≠ .into) (hr : r.length = s.params.reservedLen)
    (hl : legalChunks size.toNat 0 cs = true) (hcap : size.toNat ≤ s.params.dstCapacity)
    (hin : s.cmd.input = streamBytes size align r spare cs trailing) :
    (expandChunks cs).length = size.toNat ∧
      ∃ t, runDecompress form s = .next t ∧ Expanded form s cs trailing t := by
  obtain ⟨u, hrun, hdst, hlen, hdlen, hpos, hmode⟩ := replayAndFinish_chunks form hr hl hin
  have hhead : s.cmd.input = encode (.hdr size align r) ++ (assembleBody spare cs ++ trailing) := by
    rw [hin, streamBytes, List.append_assoc]
  have hfits : headerFound form ((startDecompress form s).loadHeader size align r) =
      .next (setUpReplay form ((startDecompress form s).loadHeader size align r)) := headerFound_fits hf hcap
  refine ⟨hlen, u.finish (.bytes (expandChunks cs)), ?_, rfl, rfl, hpos, hmode⟩
  rw [runDecompress, headerStep_found form hr hhead, hfits, andThen_next, hrun,
    finishReplay_full hf hdst (by rw [hdlen, hlen])]

/-- The stream of a legal chunk list within the capacity is in the set `W` (R249). -/
theorem acceptedStream_of_legal (hr : r.length = s.params.reservedLen)
    (hl : legalChunks size.toNat 0 cs = true) (hcap : size.toNat ≤ s.params.dstCapacity)
    (hin : s.cmd.input = streamBytes size align r spare cs trailing) : acceptedStream s = true := by
  obtain ⟨-, t, ht, he⟩ := runDecompress_expands (form := .alloc) nofun hr hl hcap hin
  exact (acceptedStream_iff s).2 ⟨t, ht, by rw [he.status]⟩

end

/-! ### COMPRESS -/

/-- COMPRESS ends DONE with the header and the body of a legal chunk list that stands for the source (R186). -/
theorem execCompress_writes {s : State} (hp : s.phase = .idle) (hl : s.cmd.input.length < Config.sourceLimit) :
    ∃ t cs, execCompress s = .next t ∧ t.status = ⟨.done, none⟩ ∧
      t.res = .bytes (headerBytes s.params (BitVec.ofNat 32 s.cmd.input.length) s.cmd.align ++
        assembleBody 0#8 cs) ∧
      legalChunks s.cmd.input.length 0 cs = true ∧ expandChunks cs = s.cmd.input := by
  obtain ⟨u, hstart, hoff, -, hemitted⟩ := startCompress_emits hl
  obtain ⟨t, cs, hloop, hstatus, -, hres, hlegal, hexpand⟩ :=
    compressLoop_emits u.enc.slen hemitted (by rw [hoff]; exact Nat.sub_le _ _)
  refine ⟨t, cs, ?_, hstatus, hres, hlegal, hexpand⟩
  rw [execCompress_idle hp, hstart, andThen_next, hloop]

end Sys2Proof.Machine

open Sys2Proof Sys2Proof.Machine

/-- Settles O48: the code stored at `OP` is that of the match's REF2. -/
theorem emitRef2AppendsTheCode : Obligations.EmitRef2AppendsTheCode := by
  intro s h1 h2 h3 h4
  have hexec : exec .emitRef2 s = .next (s.emitCode s.enc.bestLen
      (ref2Bytes s.enc.bestLen (dfieldOf s.enc.off s.enc.bestOff))) :=
    if_pos ⟨(distanceFits_iff _ _).2 ⟨h1, h2⟩, h3, Nat.lt_succ_of_le h4⟩
  obtain ⟨hstored, hframe⟩ := emitCode_storedAt s s.enc.bestLen
    (ref2Bytes s.enc.bestLen (dfieldOf s.enc.off s.enc.bestOff))
  exact ⟨_, hexec, ref2Bytes_eq_encode h1 h2 h3 h4 ▸ hstored, hframe⟩

/-- Settles O49: the code stored at `OP` is that of the match's REF3, its length cut to 273. -/
theorem emitRef3AppendsTheCode : Obligations.EmitRef3AppendsTheCode := by
  intro s h1 h2 h3
  have hexec : exec .emitRef3 s = .next (s.emitCode (min 273 s.enc.bestLen)
      (ref3Bytes (min 273 s.enc.bestLen) (dfieldOf s.enc.off s.enc.bestOff))) :=
    if_pos ⟨(distanceFits_iff _ _).2 ⟨h1, h2⟩, h3⟩
  obtain ⟨hstored, hframe⟩ := emitCode_storedAt s (min 273 s.enc.bestLen)
    (ref3Bytes (min 273 s.enc.bestLen) (dfieldOf s.enc.off s.enc.bestOff))
  have hcode := ref3Bytes_eq_encode h1 h2 (Nat.le_min.2 ⟨by decide, h3⟩) (Nat.min_le_left 273 s.enc.bestLen)
  exact ⟨_, hexec, hcode ▸ hstored, hframe⟩

/-- Settles O22: both commands run alike; DECOMPRESS_UNSAFE is admitted because DECOMPRESS ends DONE. -/
theorem decompressExpandsEveryLegalStream : Obligations.DecompressExpandsEveryLegalStream := by
  intro s size align r spare cs trailing hp hr hl hcap hin
  constructor
  · obtain ⟨hlen, t, ht, he⟩ := runDecompress_expands (form := .alloc) nofun hr hl hcap hin
    exact ⟨t, (decompressCommand_idle hp).trans ht, he.status, he.res, hlen, he.pos, he.mode⟩
  · obtain ⟨-, t, ht, he⟩ := runDecompress_expands (form := .unsafeAlloc) nofun hr hl hcap hin
    have hadmit : admitDecompress .unsafeAlloc s = .next s :=
      if_pos (acceptedStream_of_legal hr hl hcap hin)
    refine ⟨t, (decompressCommand_idle hp).trans ?_, he.status, he.res, he.mode⟩
    rw [hadmit, andThen_next, ht]

/-- Settles O52: the encoder's run by chunks; the header it writes is a record with zero reserved bytes. -/
theorem compressWritesALegalStreamOfTheSource : Obligations.CompressWritesALegalStreamOfTheSource := by
  intro s hp hl
  obtain ⟨t, cs, hexec, hstatus, hres, hlegal, hexpand⟩ := execCompress_writes hp hl
  refine ⟨t, cs, hexec, hstatus, hlegal, hexpand, ?_⟩
  rw [hres, headerBytes_eq_encode, streamBytes, List.append_nil]

end

section
/-! The fetch unit (40_byte_reader.md): opening and moving the cursor, and what a read returns in range and past
the end of its buffer (R120 to R129). -/

namespace Sys2Proof.Machine

/-! ### The instructions -/

theorem exec_rdOpen (buf : ReadBuf) (e : Endian) (s : State) :
    exec (.rdOpen buf e) s = .next (s.openReader buf e) := rfl

theorem exec_tell (s : State) : exec .tell s = .next { s with ret := .pos s.rd.pos } := rfl

theorem exec_seek (o : Nat) (s : State) : exec (.seek o) s = .next { s with rd.pos := o } := rfl

theorem exec_readU8 (s : State) : exec .readU8 s = checkedRead 1 valueU8 s := rfl

theorem exec_readU16 (s : State) : exec .readU16 s = checkedRead 2 valueU16 s := rfl

theorem exec_readU24 (s : State) : exec .readU24 s = checkedRead 3 valueU24 s := rfl

theorem exec_readU32 (s : State) : exec .readU32 s = checkedRead 4 valueU32 s := rfl

theorem exec_readBytes (n : Nat) (s : State) : exec (.readBytes n) s = checkedRead n valueBytes s := rfl

theorem exec_readU8Unchecked (s : State) : exec .readU8Unchecked s = uncheckedRead 1 valueU8 s := rfl

theorem exec_readU16Unchecked (s : State) : exec .readU16Unchecked s = uncheckedRead 2 valueU16 s := rfl

theorem exec_readU24Unchecked (s : State) : exec .readU24Unchecked s = uncheckedRead 3 valueU24 s := rfl

theorem exec_readU32Unchecked (s : State) : exec .readU32Unchecked s = uncheckedRead 4 valueU32 s := rfl

/-! ### In range and past the end (R128, R129) -/

/-- In range, with its bytes there, a checked read returns `v`, their value, and moves the cursor. -/
theorem checkedRead_of_readSpan {n : Nat} {value : Endian → List Byte → Ret} {s : State} {bs : List Byte}
    {v : Ret} (hr : (s.bufMem s.rd.buf).readSpan s.rd.pos n = some bs)
    (hle : s.rd.pos + n ≤ s.rd.len) (hv : value s.rd.endian bs = v) :
    checkedRead n value s = .next { s with rd.pos := s.rd.pos + n, ret := v } := by
  rw [checkedRead_got ((s.take_eq_got_iff n bs).2 ⟨hle, hr⟩), hv]
  rfl

/-- Past the end a checked read reports so and leaves the cursor (D10). -/
theorem checkedRead_past_end {n : Nat} (value : Endian → List Byte → Ret) {s : State}
    (h : s.rd.len < s.rd.pos + n) : checkedRead n value s = .next { s with ret := .insufficientData } := by
  rw [checkedRead, (s.take_eq_short_iff n).2 h]

/-- Past the end an unchecked read has no meaning. -/
theorem uncheckedRead_past_end {n : Nat} (value : Endian → List Byte → Ret) {s : State}
    (h : s.rd.len < s.rd.pos + n) : uncheckedRead n value s = .refused .uncheckedReadPastEnd := by
  rw [uncheckedRead, (s.take_eq_short_iff n).2 h]

/-- In range a checked read that goes on has returned a value of its bytes and moved the cursor. -/
theorem checkedRead_eq_next_in_range {n : Nat} {value : Endian → List Byte → Ret} {s t : State}
    (hle : s.rd.pos + n ≤ s.rd.len) (h : checkedRead n value s = .next t) :
    (∃ bs, t.ret = value s.rd.endian bs) ∧ t.rd.pos = s.rd.pos + n := by
  obtain ⟨hshort, -⟩ | ⟨-, hfault⟩ | ⟨bs, -, hgot⟩ := checkedRead_cases n value s
  · exact absurd ((s.take_eq_short_iff n).1 hshort) (Nat.not_lt.2 hle)
  · rw [hfault] at h
    cases h
  · rw [hgot] at h
    cases h
    exact ⟨⟨bs, rfl⟩, rfl⟩

/-! ### The checked reads as one family -/

/-- `i` is the checked read of `n` bytes (R121 to R125). -/
def IsCheckedRead (i : Instr) (n : Nat) : Prop :=
  (i = .readU8 ∧ n = 1) ∨ (i = .readU16 ∧ n = 2) ∨ (i = .readU24 ∧ n = 3) ∨ (i = .readU32 ∧ n = 4) ∨
    i = .readBytes n

/-- Every checked read is `checkedRead` of its width, and no value of bytes is the failure. -/
theorem IsCheckedRead.exec_eq {i : Instr} {n : Nat} (h : IsCheckedRead i n) :
    ∃ value : Endian → List Byte → Ret, (∀ e bs, value e bs ≠ .insufficientData) ∧
      ∀ s, exec i s = checkedRead n value s := by
  rcases h with ⟨rfl, rfl⟩ | ⟨rfl, rfl⟩ | ⟨rfl, rfl⟩ | ⟨rfl, rfl⟩ | rfl
  · exact ⟨valueU8, nofun, exec_readU8⟩
  · exact ⟨valueU16, nofun, exec_readU16⟩
  · exact ⟨valueU24, nofun, exec_readU24⟩
  · exact ⟨valueU32, nofun, exec_readU32⟩
  · exact ⟨valueBytes, nofun, exec_readBytes n⟩

theorem IsCheckedRead.exec_past_end {i : Instr} {n : Nat} (h : IsCheckedRead i n) {s : State}
    (hs : s.rd.len < s.rd.pos + n) : exec i s = .next { s with ret := .insufficientData } := by
  obtain ⟨value, -, hexec⟩ := h.exec_eq
  exact (hexec s).trans (checkedRead_past_end value hs)

/-- `i` is the unchecked read of `n` bytes and `j` the checked one (R129). -/
def IsUncheckedReadOf (i j : Instr) (n : Nat) : Prop :=
  (i = .readU8Unchecked ∧ j = .readU8 ∧ n = 1) ∨ (i = .readU16Unchecked ∧ j = .readU16 ∧ n = 2) ∨
    (i = .readU24Unchecked ∧ j = .readU24 ∧ n = 3) ∨ (i = .readU32Unchecked ∧ j = .readU32 ∧ n = 4)

/-- The two reads of a pair have one width and one value function. -/
theorem IsUncheckedReadOf.exec_eq {i j : Instr} {n : Nat} (h : IsUncheckedReadOf i j n) :
    ∃ value : Endian → List Byte → Ret,
      (∀ s, exec i s = uncheckedRead n value s) ∧ ∀ s, exec j s = checkedRead n value s := by
  rcases h with ⟨rfl, rfl, rfl⟩ | ⟨rfl, rfl, rfl⟩ | ⟨rfl, rfl, rfl⟩ | ⟨rfl, rfl, rfl⟩
  · exact ⟨valueU8, exec_readU8Unchecked, exec_readU8⟩
  · exact ⟨valueU16, exec_readU16Unchecked, exec_readU16⟩
  · exact ⟨valueU24, exec_readU24Unchecked, exec_readU24⟩
  · exact ⟨valueU32, exec_readU32Unchecked, exec_readU32⟩

/-! ### Values in the declared byte order (20_memory.md R61, R64) -/

/-- A single byte has no byte order (R121). -/
theorem valueU8_one (e : Endian) (b : Byte) : valueU8 e [b] = .u8 b := by
  have hb : valueOf e [b] = b.toNat := by
    cases e with
    | big => exact beValue_one b
    | little => exact beValue_one b
  rw [valueU8, hb, BitVec.ofNat_toNat, BitVec.setWidth_eq]

theorem valueOf_two (e : Endian) (b0 b1 : Byte) :
    valueOf e [b0, b1] = match e with
      | .big => b0.toNat * 256 + b1.toNat
      | .little => b1.toNat * 256 + b0.toNat := by
  cases e with
  | big => exact beValue_two b0 b1
  | little => exact beValue_two b1 b0

theorem valueOf_three (e : Endian) (b0 b1 b2 : Byte) :
    valueOf e [b0, b1, b2] = match e with
      | .big => b0.toNat * 65536 + b1.toNat * 256 + b2.toNat
      | .little => b2.toNat * 65536 + b1.toNat * 256 + b0.toNat := by
  cases e with
  | big => exact beValue_three b0 b1 b2
  | little => exact beValue_three b2 b1 b0

theorem valueOf_four (e : Endian) (b0 b1 b2 b3 : Byte) :
    valueOf e [b0, b1, b2, b3] = match e with
      | .big => b0.toNat * 16777216 + b1.toNat * 65536 + b2.toNat * 256 + b3.toNat
      | .little => b3.toNat * 16777216 + b2.toNat * 65536 + b1.toNat * 256 + b0.toNat := by
  cases e with
  | big => exact beValue_four b0 b1 b2 b3
  | little => exact beValue_four b3 b2 b1 b0

end Sys2Proof.Machine

open Sys2Proof Sys2Proof.Machine

/-- Settles O34: each width's read in range, with the value of its bytes in either byte order. -/
theorem checkedReadsReturnTheValue : Obligations.CheckedReadsReturnTheValue := by
  intro s b0 b1 b2 b3
  refine ⟨fun hr hle => ?_, fun hr hle => ?_, fun hr hle => ?_, fun hr hle => ?_, fun n bs hr hle => ?_⟩
  · exact (exec_readU8 s).trans (checkedRead_of_readSpan hr hle (valueU8_one _ b0))
  · exact (exec_readU16 s).trans (checkedRead_of_readSpan hr hle
      (congrArg (fun v => Ret.u16 (BitVec.ofNat 16 v)) (valueOf_two _ b0 b1)))
  · exact (exec_readU24 s).trans (checkedRead_of_readSpan hr hle
      (congrArg (fun v => Ret.u24 (BitVec.ofNat 32 v)) (valueOf_three _ b0 b1 b2)))
  · exact (exec_readU32 s).trans (checkedRead_of_readSpan hr hle
      (congrArg (fun v => Ret.u32 (BitVec.ofNat 32 v)) (valueOf_four _ b0 b1 b2 b3)))
  · exact (exec_readBytes n s).trans (checkedRead_of_readSpan hr hle rfl)

/-- Settles O35: a read in range that goes on has returned a value of bytes, which is not the failure. -/
theorem checkedReadsPastTheEndFail : Obligations.CheckedReadsPastTheEndFail := by
  intro i n s (h : IsCheckedRead i n)
  refine ⟨h.exec_past_end, fun hle t ht => ?_⟩
  obtain ⟨value, hvalue, hexec⟩ := h.exec_eq
  obtain ⟨⟨bs, hret⟩, hpos⟩ := checkedRead_eq_next_in_range hle ((hexec s).symm.trans ht)
  exact ⟨hret ▸ hvalue _ bs, hpos⟩

/-- Settles O36: in range the two reads of a pair are one function; past the end the unchecked one is refused. -/
theorem uncheckedReadsAgreeOrAreRefused : Obligations.UncheckedReadsAgreeOrAreRefused := by
  intro i j n s (h : IsUncheckedReadOf i j n)
  obtain ⟨value, hi, hj⟩ := h.exec_eq
  refine ⟨fun bs hr hle => ?_, fun hlt => (hi s).trans (uncheckedRead_past_end value hlt)⟩
  have hread := checkedRead_of_readSpan (value := value) hr hle rfl
  exact ⟨_, (hi s).trans ((uncheckedRead_eq_checkedRead value hle).trans hread), (hj s).trans hread, rfl⟩

/-- Settles O33: over an empty buffer the cursor 0 is the end, so a byte more is past it. -/
theorem rdOpenOpensAtZero : Obligations.RdOpenOpensAtZero := by
  intro buf e s
  refine ⟨_, exec_rdOpen buf e s, rfl, fun hempty i n hn (h : IsCheckedRead i n) => h.exec_past_end ?_⟩
  rw [State.openReader_rd_len, State.openReader_rd_pos, hempty, Nat.zero_add]
  exact hn

/-- Settles O37: TELL's arm. -/
theorem tellReturnsTheCursor : Obligations.TellReturnsTheCursor := exec_tell

/-- Settles O38: from a cursor at or beyond the end, a byte more is past it. -/
theorem seekSetsTheCursor : Obligations.SeekSetsTheCursor := by
  intro o s
  refine ⟨_, exec_seek o s, rfl, fun hend => ?_⟩
  have hpast {n : Nat} (hn : 0 < n) : s.rd.len < o + n :=
    Nat.lt_of_le_of_lt hend (Nat.lt_add_of_pos_right hn)
  exact ⟨(exec_readU8 _).trans (checkedRead_past_end _ (hpast (Nat.succ_pos _))),
    (exec_readU16 _).trans (checkedRead_past_end _ (hpast (Nat.succ_pos _))),
    (exec_readU24 _).trans (checkedRead_past_end _ (hpast (Nat.succ_pos _))),
    (exec_readU32 _).trans (checkedRead_past_end _ (hpast (Nat.succ_pos _))),
    fun n hn => (exec_readBytes n _).trans (checkedRead_past_end _ (hpast hn))⟩

end

section
/-! The header read (41_header_codec.md R140 to R145): the step executes the record at the cursor, and PARSE_HEADER
answers its two fields, or none. -/

namespace Sys2Proof.Machine

/-! ### The header read -/

/-- The header read executes the record that stands at the cursor and goes on from there. -/
theorem readHeader_of_decode {s : State} {size align : BitVec 32} {r rest : List Byte}
    (found absent : State → Result)
    (h : decode s.params .header s.headerWindow = .ok (.hdr size align r) rest) :
    readHeader found absent s = andThen (exec (.hdr size align r) s) found := by
  rw [readHeader, h]
  rfl

/-- Over a whole buffer, where no record stands at the cursor, the header read goes on behind the reads that
succeeded (R128). -/
theorem readHeader_of_rejected {s : State} {why : DecodeError} (found absent : State → Result)
    (hw : (s.bufMem s.rd.buf).holds s.rd.len)
    (h : decode s.params .header s.headerWindow = .rejected why) :
    ∃ k, readHeader found absent s = absent (s.advance k) := by
  rcases readHeader_cases hw found absent with ⟨_, _, _, _, hd, -⟩ | ⟨-, k, -, he⟩
  · rw [h] at hd
    cases hd
  · exact ⟨k, he⟩

/-- The first `HEADER_SIZE` bytes decide whether a buffer begins with a header (R145). -/
theorem decodeHeader_take_rejected {p : Config.Params} {bs : List Byte} {why : DecodeError}
    (h : decodeHeader p bs = .rejected why) :
    ∃ why', decodeHeader p (bs.take p.headerSize) = .rejected why' := by
  rw [decodeHeader_rejected_iff, List.take_take, Nat.min_eq_left (by simp only [Config.Params.headerSize]; omega),
    List.length_take]
  exact ((decodeHeader_rejected_iff p bs).1 ⟨why, h⟩).imp_left (Nat.lt_of_le_of_lt (Nat.min_le_right _ _))

/-! ### PARSE_HEADER -/

/-- On a buffer that begins with a header record PARSE_HEADER loads it and answers its fields. -/
theorem execParseHeader_found {s : State} {size align : BitVec 32} {r body : List Byte}
    (hp : s.phase = .idle) (hr : r.length = s.params.reservedLen)
    (hin : s.cmd.input = encode (.hdr size align r) ++ body) :
    execParseHeader s =
      .next (((startProbe s).loadHeader size align r).finish (.header size align)) := by
  have hw : (startProbe s).headerWindow = encode (.hdr size align r) ++ [] := by
    rw [startProbe_headerWindow, hin, List.append_nil, Config.Params.headerSize, ← hr,
      ← encode_hdr_length size align r, List.take_left]
  have hd : decode (startProbe s).params .header (startProbe s).headerWindow = .ok (.hdr size align r) [] := by
    rw [hw]
    exact decodeHeader_encode size align [] hr
  rw [execParseHeader_idle hp, probeStep, readHeader_of_decode _ _ hd, exec_hdr, andThen_next]
  rfl

/-- On any other buffer PARSE_HEADER answers none. -/
theorem execParseHeader_absent {s : State} {why : DecodeError} (hp : s.phase = .idle)
    (hd : decodeHeader s.params s.cmd.input = .rejected why) :
    ∃ k, execParseHeader s = .next (((startProbe s).advance k).finish .noHeader) := by
  obtain ⟨why', hd'⟩ := decodeHeader_take_rejected hd
  rw [← startProbe_headerWindow] at hd'
  rw [execParseHeader_idle hp]
  exact readHeader_of_rejected _ _ (Memory.ofBytes_holds _) hd'

/-- The big-endian value of the four bytes of a 32-bit field is the field (R61). -/
theorem ofNat_beValue_bytes32 (v : BitVec 32) : BitVec.ofNat 32 (beValue (bytes32 v)) = v := by
  rw [bytes32, beValue_four, ← be32_toNat, be32_bytes32, BitVec.ofNat_toNat, BitVec.setWidth_eq]

/-- The two fields of a header record at their offsets (R91). -/
theorem header_fields (size align : BitVec 32) (r body : List Byte) :
    ((encode (.hdr size align r) ++ body).drop 4).take 4 = bytes32 size ∧
      ((encode (.hdr size align r) ++ body).drop 8).take 4 = bytes32 align := ⟨rfl, rfl⟩

end Sys2Proof.Machine

open Sys2Proof Sys2Proof.Machine

/-- Settles O9: in either phase the step is the header read, which executes the record. -/
theorem stepRunsTheHeaderRecord : Obligations.StepRunsTheHeaderRecord := by
  intro s size align r rest hd
  exact ⟨fun form hp => (step_header hp).trans (readHeader_of_decode _ _ hd),
    fun hp => (step_probe hp).trans (readHeader_of_decode _ _ hd)⟩

/-- Settles O32: by whether the buffer begins with a header record, which no buffer that is too short or
without the magic does. -/
theorem parseHeaderReadsTheRecordOrNone : Obligations.ParseHeaderReadsTheRecordOrNone := by
  intro s hp
  have hiff := decodeHeader_rejected_iff s.params s.cmd.input
  rcases decodeHeader_cases s.params s.cmd.input with ⟨size, align, r, body, hd, hr, hin⟩ | ⟨why, hd⟩
  · refine ⟨_, execParseHeader_found hp hr hin, rfl, fun hbad => ?_, fun _ _ => ⟨?_, ?_⟩,
      fun size' align' body' hin' => ?_, rfl, rfl, rfl, rfl, rfl, rfl⟩
    · obtain ⟨why, hd'⟩ := hiff.2 hbad
      rw [hd] at hd'
      cases hd'
    · obtain ⟨hsize, halign⟩ := header_fields size align r body
      rw [hin, hsize, halign, ofNat_beValue_bytes32, ofNat_beValue_bytes32, State.finish_res]
    · exact Nat.zero_add _
    · rw [hin', headerBytes_eq_encode, decodeHeader_encode _ _ _ List.length_replicate] at hd
      cases hd
      rfl
  · obtain ⟨k, hexec⟩ := execParseHeader_absent hp hd
    refine ⟨_, hexec, rfl, fun _ => rfl, fun hlen hmagic => ?_, fun size' align' body' hin' => ?_,
      rfl, rfl, rfl, rfl, rfl, rfl⟩
    · exact absurd (hiff.1 ⟨why, hd⟩) (not_or.2 ⟨Nat.not_lt.2 hlen, not_not.2 hmagic⟩)
    · rw [hin', headerBytes_eq_encode, decodeHeader_encode _ _ _ List.length_replicate] at hd
      cases hd

/-- Settles O53: COMPRESS writes the stream of a legal chunk list that stands for the source, which is what the
other commands are given. -/
theorem compressRoundTrips : Obligations.CompressRoundTrips := by
  intro s t hp hl ht
  obtain ⟨u, cs, hu, -, hlegal, hexpand, hres⟩ := compressWritesALegalStreamOfTheSource s hp hl
  obtain rfl : u = t := Host.Outcome.next.inj (hu.symm.trans ht)
  refine ⟨_, hres, fun s' hp' hin hparams => ?_⟩
  have hr : (List.replicate s.params.reservedLen 0#8).length = s'.params.reservedLen := by
    rw [List.length_replicate, hparams]
  have hsize : (BitVec.ofNat 32 s.cmd.input.length).toNat = s.cmd.input.length :=
    Nat.mod_eq_of_lt hl
  rw [← hsize] at hlegal
  refine ⟨fun hcap => ?_, _, execParseHeader_found hp' hr (hin.trans (List.append_assoc _ _ _)), rfl⟩
  obtain ⟨⟨v, hv, hvs, hvr, -, hvpos, -⟩, w, hw, hws, hwr, -⟩ :=
    decompressExpandsEveryLegalStream s' _ _ _ _ cs [] hp' hr hlegal (hsize.trans_le hcap) hin
  rw [hexpand] at hvr hwr
  exact ⟨⟨v, hv, hvs, hvr, hvpos.trans (congrArg List.length hin)⟩, w, hw, hws, hwr⟩

end

section
/-! The engine's steps from an issued command come to the command as a whole (log 1): one step after another is
the sequence of the command's parts, and the bounds of the loops of REPLAY and COMPRESS cover them (R279). -/

namespace Sys2Proof.Machine

/-! ### Runs of steps -/

/-- Some number of steps from `s` answers `o`. -/
def Reaches (s : State) (o : Result) : Prop := ∃ k, core.run k s = o

theorem core_run_one (s : State) : core.run 1 s = step s := by
  change core.run 1 s = core.step s
  simp only [Host.Core.run]
  cases core.step s <;> rfl

theorem Reaches.refl (s : State) : Reaches s (.next s) := ⟨0, core_run_zero s⟩

theorem Reaches.of_step (s : State) : Reaches s (step s) := ⟨1, core_run_one s⟩

/-- One step, then what the state it answers reaches; a step that stops is the end of the run. -/
theorem Reaches.step_andThen {s : State} {f : State → Result}
    (h : ∀ t, step s = .next t → Reaches t (f t)) : Reaches s (andThen (step s) f) := by
  cases hs : step s with
  | next t =>
    obtain ⟨k, hk⟩ := h t hs
    exact ⟨k + 1, (core_run_succ hs k).trans hk⟩
  | fault r => exact ⟨1, (core_run_one s).trans hs⟩
  | refused r => exact ⟨1, (core_run_one s).trans hs⟩

/-! ### COMPRESS (R177, R186) -/

/-- With the source exhausted the main loop is the end of the command (R185). -/
theorem compressLoop_exhausted {n : Nat} {s : State} (h : ¬s.enc.off < s.enc.slen) :
    compressLoop n s = finishCompress s := by
  cases n <;> simp only [compressLoop, if_neg h]

/-- With the source exhausted one step ends the command. -/
theorem compressLoop_reached_of_exhausted (n : Nat) {s : State} (hp : s.phase = .encode)
    (h : ¬s.enc.off < s.enc.slen) : Reaches s (compressLoop n s) := by
  have hstep : step s = finishCompress s := (step_encode hp).trans (if_neg h)
  rw [compressLoop_exhausted h, ← hstep]
  exact Reaches.of_step s

/-- The main loop is its steps and the step that ends it, for every bound that covers the bytes left. -/
theorem compressLoop_reached (n : Nat) {s : State} (hp : s.phase = .encode) (hi : EncodeInv s)
    (hw : s.ht.wf) (hn : s.enc.slen - s.enc.off ≤ n) : Reaches s (compressLoop n s) := by
  induction n generalizing s with
  | zero => exact compressLoop_reached_of_exhausted 0 hp (by omega)
  | succ n ih =>
    by_cases hlt : s.enc.off < s.enc.slen
    · have hstep : step s = encoderStep s := (step_encode hp).trans (if_pos hlt)
      rw [compressLoop, if_pos hlt, ← hstep]
      refine Reaches.step_andThen fun t ht => ?_
      rw [hstep] at ht
      obtain ⟨u, hu, hui, huw, -, hoff, -, hslen⟩ := encoderStep_keeps_encodeInv hi hw hlt
      obtain rfl : u = t := Host.Outcome.next.inj (hu.symm.trans ht)
      have hup : u.phase = s.phase := by rw [encoderStep_frame ht]
      exact ih (hup.trans hp) hui huw (by omega)
    · exact compressLoop_reached_of_exhausted (n + 1) hp hlt

/-- COMPRESS is the step that takes it up and its main loop (R175). -/
theorem execCompress_reached {s : State} (h : issued .compress s) : Reaches s (execCompress s) := by
  rw [execCompress_idle h.1]
  have hstep : step s = startCompress s := step_issued h
  rw [← hstep]
  refine Reaches.step_andThen fun t ht => ?_
  rw [hstep] at ht
  obtain ⟨hl, rfl⟩ := startCompress_next ht
  obtain ⟨u, hu, hoff, -, hemitted⟩ := startCompress_emits hl
  obtain rfl := Host.Outcome.next.inj (hu.symm.trans ht)
  exact compressLoop_reached _ rfl hemitted.inv hemitted.table (by omega)

/-! ### The replay (R204, R216, R279) -/

/-- How many items a replay can still take: two for every byte owed, and one less inside a group. -/
def State.itemsOwed (s : State) : Nat :=
  2 * (s.dec.dlen.toNat - s.dec.wp) - (if s.dec.cnt = 0 then 0 else 1)

/-- The bound of REPLAY covers the items owed (R279). -/
theorem State.itemsOwed_le_replayBound (s : State) : s.itemsOwed ≤ s.replayBound := by
  unfold State.itemsOwed State.replayBound
  omega

/-- A replay that owes no item has filled its destination. -/
theorem State.full_of_itemsOwed {s : State} (h : s.itemsOwed ≤ 0) : ¬s.dec.wp < s.dec.dlen.toNat := by
  unfold State.itemsOwed at h
  split at h <;> omega

/-- An item that goes on leaves fewer items owed, or it has ended the command with a fault. -/
theorem itemStep_progress {form : DecForm} {s t : State} (hp : s.phase = .replay form)
    (hv : ReplayInv form s) (hlt : s.dec.wp < s.dec.dlen.toNat) (h : itemStep s = .next t) :
    (t.phase = .replay form ∧ ReplayInv form t ∧ t.itemsOwed < s.itemsOwed) ∨ t.phase = .idle := by
  rcases itemStep_cases s with ⟨i, rest, hd, he⟩ | ⟨-, he⟩ | ⟨-, he⟩
  · obtain ⟨hi, hin⟩ := itemWindow_item hv.pos hd
    rcases item_keeps_replayInv hi s.itemCtx_ne_header hp hv hin (he.symm.trans h) with
      ⟨htp, htv, -, hdlen, -, hcount⟩ | ⟨htp, -⟩
    · refine .inl ⟨htp, htv, ?_⟩
      simp only [State.itemsOwed, hdlen]
      rcases hcount with ⟨hc, hcnt, hwp⟩ | ⟨hc, -, hwp⟩
      · rw [hcnt, hwp, if_pos (s.itemCtx_flag_iff.1 hc), if_neg (by decide)]
        omega
      · rw [if_neg (mt s.itemCtx_flag_iff.2 hc)]
        omega
    · exact .inr htp
  · obtain rfl := truncatedItem_next (he.symm.trans h)
    exact .inr (State.takeFault_phase _ _)
  · rw [he] at h
    cases h

theorem State.replaying_of_phase {s : State} {form : DecForm} (h : s.phase = .replay form) :
    s.replaying = true := by
  simp only [State.replaying, h]

theorem State.not_replaying_of_idle {s : State} (h : s.phase = .idle) : ¬s.replaying = true := by
  simp [State.replaying, h]

/-- What follows the replay loop: the end of the command, unless a fault has ended it (R200, R201). -/
def finishIfReplaying (form : DecForm) (s : State) : Result :=
  if s.replaying = true then finishReplay form s else .next s

/-- A replay set up is its loop and what follows it. -/
theorem replayAndFinish_replay {form : DecForm} {s : State} (hp : s.phase = .replay form) :
    replayAndFinish s = andThen (replayLoop s.replayBound s) (finishIfReplaying form) := by
  simp only [replayAndFinish, hp]
  rfl

/-- A command that has ended in its header step stays as it is. -/
theorem replayAndFinish_idle {s : State} (hp : s.phase = .idle) : replayAndFinish s = .next s := by
  simp only [replayAndFinish, hp]

/-- With the destination full the loop does nothing, and one step ends the command (R204, R215). -/
theorem replayLoop_reached_of_full (n : Nat) {form : DecForm} {s : State} (hp : s.phase = .replay form)
    (hfull : ¬s.dec.wp < s.dec.dlen.toNat) :
    Reaches s (andThen (replayLoop n s) (finishIfReplaying form)) := by
  have hstep : step s = finishReplay form s := (step_replay hp).trans (if_neg hfull)
  rw [replayLoop_done (fun h => hfull h.2), andThen_next, finishIfReplaying,
    if_pos (State.replaying_of_phase hp), ← hstep]
  exact Reaches.of_step s

/-- The replay loop is its steps and the step that ends the command, for every bound that covers the items
owed. -/
theorem replayLoop_reached (n : Nat) {form : DecForm} {s : State} (hp : s.phase = .replay form)
    (hv : ReplayInv form s) (hn : s.itemsOwed ≤ n) :
    Reaches s (andThen (replayLoop n s) (finishIfReplaying form)) := by
  induction n generalizing s with
  | zero => exact replayLoop_reached_of_full 0 hp (State.full_of_itemsOwed hn)
  | succ n ih =>
    by_cases hlt : s.dec.wp < s.dec.dlen.toNat
    · have hstep : step s = itemStep s := (step_replay hp).trans (if_pos hlt)
      rw [replayLoop_succ, if_pos ⟨State.replaying_of_phase hp, hlt⟩, andThen_assoc, ← hstep]
      refine Reaches.step_andThen fun t ht => ?_
      rcases itemStep_progress hp hv hlt (hstep.symm.trans ht) with ⟨htp, htv, howed⟩ | htp
      · exact ih htp htv (by omega)
      · have hoff := State.not_replaying_of_idle htp
        rw [replayLoop_done (fun h => hoff h.1), andThen_next, finishIfReplaying, if_neg hoff]
        exact Reaches.refl t
    · exact replayLoop_reached_of_full (n + 1) hp hlt

/-! ### The decompress commands (R200 to R203) -/

/-- The header step of a command that has been taken up sets up a replay in its invariant, or takes a fault
(R140, R203). -/
theorem headerStep_startDecompress_next {form : DecForm} {s t : State}
    (h : headerStep form (startDecompress form s) = .next t) :
    (t.phase = .replay form ∧ ReplayInv form t) ∨ t.phase = .idle := by
  rcases readHeader_cases (s := startDecompress form s) (Memory.ofBytes_holds _) (headerFound form)
    headerAbsent with ⟨size, align, r, rest, -, hr, hw, he⟩ | ⟨-, k, -, he⟩
  · rcases headerFound_next (he.symm.trans h) with rfl | rfl
    · have hlen : s.params.headerSize ≤ s.cmd.input.length := by
        have hl := congrArg List.length hw
        rw [startDecompress_headerWindow, List.length_take, List.length_append, encode_hdr_length, hr] at hl
        simp only [startDecompress_params, Config.Params.headerSize] at hl ⊢
        omega
      have hopen : StreamOpen ((startDecompress form s).loadHeader size align r) :=
        { streamOpen_loaded s with pos := (Nat.zero_add _).le.trans hlen }
      exact .inl ⟨rfl, setUpReplay_replayInv hopen rfl hlen⟩
    · exact .inr (State.takeFault_phase _ _)
  · obtain rfl := headerAbsent_next (he.symm.trans h)
    exact .inr (State.takeFault_phase _ _)

/-- A decompress command that has been taken up is its header step and its replay. -/
theorem startDecompress_reached (form : DecForm) (s : State) :
    Reaches (startDecompress form s) (runDecompress form s) := by
  have hstep : step (startDecompress form s) = headerStep form (startDecompress form s) := step_header rfl
  rw [runDecompress, ← hstep]
  refine Reaches.step_andThen fun t ht => ?_
  rcases headerStep_startDecompress_next (hstep.symm.trans ht) with ⟨hp, hv⟩ | hp
  · rw [replayAndFinish_replay hp]
    exact replayLoop_reached _ hp hv t.itemsOwed_le_replayBound
  · rw [replayAndFinish_idle hp]
    exact Reaches.refl t

/-- An idle engine whose step admits a decompress command and starts it comes to the whole command. -/
theorem decompressCommand_reached {form : DecForm} {s : State} (hp : s.phase = .idle)
    (hstep : step s = andThen (admitDecompress form s) fun t => .next (startDecompress form t)) :
    Reaches s (decompressCommand form s) := by
  have hwhole : decompressCommand form s =
      andThen (step s) fun u => andThen (headerStep form u) replayAndFinish := by
    rw [decompressCommand_idle hp, hstep, andThen_assoc]
    rfl
  rw [hwhole]
  refine Reaches.step_andThen fun u hu => ?_
  obtain ⟨t, -, ht⟩ := (andThen_eq_next_iff _ _ _).1 (hstep.symm.trans hu)
  cases ht
  exact startDecompress_reached form t

/-! ### PARSE_HEADER (R140) -/

/-- PARSE_HEADER is the step that takes it up and the step that reads the header. -/
theorem execParseHeader_reached {s : State} (h : issued .parseHeader s) : Reaches s (execParseHeader s) := by
  have hstep : step s = .next (startProbe s) := step_issued h
  have hread : step (startProbe s) = probeStep (startProbe s) := step_probe rfl
  refine ⟨2, ?_⟩
  rw [core_run_succ hstep, core_run_one, hread, execParseHeader_idle h.1]

end Sys2Proof.Machine

open Sys2Proof Sys2Proof.Machine

/-- Settles O58: each command by the steps of its parts. -/
theorem stepsComeToTheWholeCommand : Obligations.StepsComeToTheWholeCommand := by
  intro s
  exact ⟨execParseHeader_reached, execCompress_reached,
    fun h => decompressCommand_reached h.1 (step_issued h),
    fun h => decompressCommand_reached h.1 (step_issued h),
    fun h => decompressCommand_reached h.1 (step_issued h)⟩

end

section
/-! The match finder (42_match_finder.md R150 to R164): FIND over a bucket of candidates, and eviction, insertion
and update of the table, bucket by bucket. -/

namespace Sys2Proof.Machine

/-! ### How far a candidate agrees: `cpl` (R154) -/

/-- Two positions with the same key agree in at least its 3 bytes (R158). -/
theorem commonPrefix_of_same_key {src : Memory} {lim a b l : Nat} {k : BitVec 24}
    (h : commonPrefix src lim a b = some l) (hlim : 3 ≤ lim) (ha : keyAt src a = some k)
    (hb : keyAt src b = some k) : 3 ≤ l :=
  commonPrefix_max h hlim fun _ hi => keyAt_inj ha hb hi

/-- Two positions whose `cpl` falls short of `m` differ in a byte before `m`. -/
theorem commonPrefix_differs {src : Memory} {lim a b l m : Nat} (h : commonPrefix src lim a b = some l)
    (hlt : l < m) (hm : m ≤ lim) : ∃ i, i < m ∧ src.read (a + i) ≠ src.read (b + i) := by
  obtain ⟨-, -, hstop⟩ := commonPrefix_spec h
  exact ⟨l, hlt, hstop.resolve_left (by omega)⟩

/-! ### FIND (R152 to R157) -/

/-- The candidate loop from length 0 over candidates that all agree with the position in some byte ends in a
candidate: the first of the greatest length. -/
theorem scanBucket_finds {src : Memory} {cs : List Nat} {e e' : Encoder} (h : scanBucket src cs e = some e')
    (hzero : e.bestLen = 0) (hne : cs ≠ [])
    (hpos : ∀ c ∈ cs, ∀ l, commonPrefix src e.lim c e.off = some l → 0 < l) :
    commonPrefix src e.lim e'.bestOff e.off = some e'.bestLen ∧
      ∃ before after, cs = before ++ e'.bestOff :: after ∧
        ∀ c ∈ before, ∃ l, commonPrefix src e.lim c e.off = some l ∧ l < e'.bestLen := by
  obtain ⟨-, -, hall, hbest⟩ := scanBucket_spec h
  rcases hbest with ⟨hsame, -⟩ | ⟨-, hfound⟩
  · obtain ⟨c, hc⟩ := List.exists_mem_of_ne_nil cs hne
    obtain ⟨l, hl, hle⟩ := hall c hc
    have := hpos c hc l hl
    omega
  · exact hfound

/-- FIND with fewer than 3 bytes left finds nothing (R152). -/
theorem execFind_near_end {s : State} (h : s.enc.slen < s.enc.off + 3) :
    execFind s = .next { s with enc := s.enc.noMatch } := if_pos h

section
variable {s : State} {k : BitVec 24} (hroom : s.enc.off + 3 ≤ s.enc.slen)
  (hkey : keyAt s.src s.enc.off = some k)
include hroom hkey

/-- FIND on a key without a bucket finds nothing (R153). -/
theorem execFind_absent (hb : s.ht.bucket k = []) :
    execFind s = .next { s with enc := { s.enc.noMatch with key := k } } := by
  simp only [execFind, Config.keyBytes, if_neg (Nat.not_lt.2 hroom), hkey, hb]

/-- FIND on a key with a bucket is its candidate loop (R157). -/
theorem execFind_scan {e : Encoder} (hne : s.ht.bucket k ≠ [])
    (he : scanBucket s.src (s.ht.bucket k) (s.enc.startScan k) = some e) :
    execFind s = .next { s with enc := e } := by
  obtain ⟨c, cs, hb⟩ := List.exists_cons_of_ne_nil hne
  rw [hb] at he
  simp only [execFind, Config.keyBytes, if_neg (Nat.not_lt.2 hroom), hkey, hb, he]

/-- FIND over whole bytes with earlier candidates runs its candidate loop to the end. -/
theorem execFind_scans (hsrc : s.src.holds s.enc.slen) (hne : s.ht.bucket k ≠ [])
    (hbefore : ∀ c ∈ s.ht.bucket k, c < s.enc.off) :
    ∃ e, scanBucket s.src (s.ht.bucket k) (s.enc.startScan k) = some e ∧
      execFind s = .next { s with enc := e } := by
  have hoff : s.enc.off + (s.enc.startScan k).lim ≤ s.enc.slen := by
    simp only [Encoder.startScan]
    omega
  obtain ⟨e, he⟩ := scanBucket_whole hsrc
    (fun c hc => (Nat.add_le_add_right (hbefore c hc).le _).trans hoff) hoff
  exact ⟨e, he, execFind_scan hroom hkey hne he⟩

end

/-! ### Buckets (R159 to R163) -/

/-- What holds of every stored bucket and of the empty one holds of the bucket of every key (D8). -/
theorem HashTable.bucket_forall {P : List Nat → Prop} {t : HashTable} (hnil : P []) (h : ∀ x ∈ t, P x.2)
    (k : BitVec 24) : P (t.bucket k) := by
  by_cases hb : t.bucket k = []
  · rwa [hb]
  · exact h _ (HashTable.mem_of_bucket hb)

/-- A position with 3 bytes left goes to the front of its key's bucket (R160). -/
theorem insertPosition_of_key {src : Memory} {slen p : Nat} {k : BitVec 24} (t : HashTable)
    (hp : p + 2 < slen) (hk : keyAt src p = some k) :
    insertPosition src slen p t = some (t.setBucket k (pushPosition p (t.bucket k))) := by
  simp only [insertPosition, if_neg (Nat.not_le.2 hp), hk]

theorem mem_coveredPositions {src : Memory} {slen p n q : Nat} {k : BitVec 24}
    (h : q ∈ coveredPositions src slen p n k) : p ≤ q ∧ q < p + n :=
  List.mem_range'_1.1 (List.mem_reverse.1 (List.mem_of_mem_filter h))

/-- The covered positions are nearest first. -/
theorem coveredPositions_sorted (src : Memory) (slen p n : Nat) (k : BitVec 24) :
    (coveredPositions src slen p n k).Pairwise (· > ·) :=
  (List.pairwise_reverse.2 List.pairwise_lt_range').filter _

/-- Covered positions of which the first is in the window of `new` are not evicted (R163). -/
theorem coveredPositions_inWindow (src : Memory) {slen p n new : Nat} (k : BitVec 24) (h : new ≤ p + 4096) :
    (coveredPositions src slen p n k).filter (inWindow new) = coveredPositions src slen p n k := by
  refine List.filter_eq_self.2 fun q hq => ?_
  obtain ⟨hle, -⟩ := mem_coveredPositions hq
  exact decide_eq_true (h.trans (Nat.add_le_add_right hle _))

/-- Eviction commutes with the insertion of positions in the window that are past the table's (R163). -/
theorem insertRange_evict {src : Memory} {slen n p new : Nat} {t : HashTable} (hs : src.holds slen)
    (hw : t.wf) (hwin : new ≤ p + 4096)
    (ht : ∀ x ∈ t, x.2.Pairwise (· > ·) ∧ x.2.length ≤ 128 ∧ ∀ q ∈ x.2, q < p) :
    insertRange src slen n p (t.evict new) = (insertRange src slen n p t).map (HashTable.evict new) := by
  have hshort : ∀ x ∈ t, x.2.length ≤ 128 := fun x hx => (ht x hx).2.1
  obtain ⟨t₁, h₁, hw₁, -, hb₁⟩ :=
    insertRange_whole hs (n := n) (p := p) (HashTable.evict_wf hw new) (HashTable.evict_short 128 new hshort)
  obtain ⟨t₂, h₂, hw₂, -, hb₂⟩ := insertRange_whole hs (n := n) (p := p) hw hshort
  rw [h₁, h₂, Option.map_some]
  congr 1
  refine HashTable.ext_of_wf hw₁ (HashTable.evict_wf hw₂ new) fun k => ?_
  obtain ⟨hsorted, -, hlt⟩ := HashTable.bucket_forall
    (P := fun b => b.Pairwise (· > ·) ∧ b.length ≤ 128 ∧ ∀ q ∈ b, q < p) (by simp) ht k
  have hjoined : (coveredPositions src slen p n k ++ t.bucket k).Pairwise (· > ·) :=
    List.pairwise_append.2 ⟨coveredPositions_sorted .., hsorted,
      fun a ha b hb => (hlt b hb).trans_le (mem_coveredPositions ha).1⟩
  rw [hb₁, HashTable.bucket_evict hw, HashTable.bucket_evict hw₂, hb₂, filter_inWindow_take hjoined,
    List.filter_append, coveredPositions_inWindow src k hwin]

/-- HT_EVICT after an operation on the table is that operation's table evicted. -/
theorem withTable_evict (s : State) (o : Option HashTable) (new : Nat) :
    andThen (s.withTable o) (execHtEvict new) = s.withTable (o.map (HashTable.evict new)) := by
  cases o <;> rfl

end Sys2Proof.Machine

open Sys2Proof Sys2Proof.Machine

/-- Settles O51: the step is an encoder step, whose frame holds the phase and the source. -/
theorem encoderStepKeepsTheTableSettled : Obligations.EncoderStepKeepsTheTableSettled := by
  intro s hp hi hw hlt
  obtain ⟨t, ht, hti, htw, -, hoff, hcover, hslen⟩ := encoderStep_keeps_encodeInv hi hw hlt
  have hframe := encoderStep_frame ht
  have hphase : t.phase = s.phase := by rw [hframe]
  have hsrc : t.src = s.src := by rw [hframe]
  exact ⟨t, (step_encode hp).trans ((if_pos hlt).trans ht), hti, htw, hphase.trans hp, hoff, hcover, hsrc,
    hslen⟩

/-- Settles O39: both searches stop before a candidate is looked at. -/
theorem findWithoutCandidatesReportsZero : Obligations.FindWithoutCandidatesReportsZero :=
  fun _ => ⟨execFind_near_end, fun _ => execFind_absent⟩

/-- Settles O40: the candidate loop ends in the first candidate of the greatest `cpl`, and a shared key makes
that at least 3. -/
theorem findReturnsTheNearestLongestMatch : Obligations.FindReturnsTheNearestLongestMatch := by
  intro s k hsrc hroom hkey hne hcand
  obtain ⟨e, hscan, hfind⟩ := execFind_scans hroom hkey hsrc hne fun c hc => (hcand c hc).1
  have hlim : (s.enc.startScan k).lim = min 273 (s.enc.slen - s.enc.off) := rfl
  have hlim3 : 3 ≤ (s.enc.startScan k).lim := by omega
  have hprefix3 : ∀ c ∈ s.ht.bucket k, ∀ l,
      commonPrefix s.src (s.enc.startScan k).lim c s.enc.off = some l → 3 ≤ l :=
    fun c hc l hl => commonPrefix_of_same_key hl hlim3 (hcand c hc).2 hkey
  obtain ⟨hframe, -, hlongest, -⟩ := scanBucket_spec hscan
  obtain ⟨hbest, before, after, hsplit, hbefore⟩ := scanBucket_finds hscan rfl hne
    fun c hc l hl => Nat.lt_of_lt_of_le (Nat.succ_pos 2) (hprefix3 c hc l hl)
  obtain ⟨hcap, hreal, -⟩ := commonPrefix_spec hbest
  have hmem : e.bestOff ∈ s.ht.bucket k := by rw [hsplit]; simp
  refine ⟨_, hfind, congrArg (fun e => { s with enc := e }) hframe, hprefix3 _ hmem _ hbest, hcap, hreal,
    fun c hc l hl hagree => ?_, before, after, hsplit, fun c hc => ?_⟩
  · obtain ⟨m, hm, hle⟩ := hlongest c hc
    exact (commonPrefix_max hm hl hagree).trans hle
  · obtain ⟨m, hm, hlt⟩ := hbefore c hc
    exact commonPrefix_differs hm hlt hcap

/-- Settles O41: eviction filters every bucket of a canonical table. -/
theorem evictKeepsTheWindow : Obligations.EvictKeepsTheWindow :=
  fun new _ hw => ⟨_, rfl, rfl, HashTable.evict_wf hw new, HashTable.bucket_evict hw new⟩

/-- Settles O42: a position too near the end is skipped, any other is pushed onto its key's bucket. -/
theorem insertPutsThePositionInFront : Obligations.InsertPutsThePositionInFront := by
  intro p s hw
  refine ⟨fun hend => congrArg s.withTable (if_pos hend), fun k hp hk => ?_⟩
  have hbucket := HashTable.bucket_setBucket hw k (pushPosition p (s.ht.bucket k))
  exact ⟨_, congrArg s.withTable (insertPosition_of_key s.ht hp hk), rfl, HashTable.setBucket_wf hw _ _,
    (hbucket k).trans (if_pos rfl), fun k' hne => (hbucket k').trans (if_neg hne)⟩

/-- Settles O43: the insertion of the covered positions into the evicted table. -/
theorem updateInsertsTheCoveredPositions : Obligations.UpdateInsertsTheCoveredPositions := by
  intro old new s hw hs _ hshort
  obtain ⟨t, ht, htw, -, hbucket⟩ := insertRange_whole hs (n := new - old) (p := old)
    (HashTable.evict_wf hw new) (HashTable.evict_short 128 new hshort)
  refine ⟨_, congrArg s.withTable ht, rfl, htw, fun k => ?_⟩
  exact (hbucket k).trans (by rw [HashTable.bucket_evict hw]; rfl)

/-- Settles O44: the covered positions are in the window of `new`, so eviction commutes with their insertion. -/
theorem evictionMayFollowInsertion : Obligations.EvictionMayFollowInsertion := by
  intro old new s hw hs _ hnew ht
  have hcomm := insertRange_evict (n := new - old) hs hw (by omega : new ≤ old + 4096) ht
  exact (congrArg s.withTable hcomm).trans (withTable_evict s _ new).symm

end

section
/-! What GROUP_OPEN, GROUP_CLOSE and EMIT_LIT write, an encoder step as the sequence of its operations, and how
long the output of COMPRESS is (43_compressor.md R177 to R188). -/

namespace Sys2Proof.Machine

/-! ### The group flag assembler (R178, R180, R184) -/

/-- Opening a group stores a zero byte at `OP`, and writes the registers of the group only. -/
theorem openGroup_storedAt (s : State) :
    storedAt s.out s.openGroup.out s.enc.op [0x00#8] ∧
      s.openGroup = { s with
        out := s.openGroup.out, enc.op := s.enc.op + 1, enc.gslot := s.enc.op, enc.gflag := 0x00#8,
        enc.gidx := 0, enc.gopen := true } :=
  ⟨storedAt_writeAll _ _ _, rfl⟩

/-- Closing a group stores `GFLAG` at `GSLOT`, and writes `GOPEN` only. -/
theorem closeGroup_storedAt (s : State) :
    storedAt s.out s.closeGroup.out s.enc.gslot [s.enc.gflag] ∧
      s.closeGroup = { s with out := s.closeGroup.out, enc.gopen := false } :=
  ⟨storedAt_write _ _ _, rfl⟩

/-- A literal is stored at `OP`; of the registers `OP`, `GFLAG` and `PROCESSED` are written. -/
theorem emitByte_storedAt (s : State) (b : Byte) :
    storedAt s.out (s.emitByte b).out s.enc.op [b] ∧
      s.emitByte b = { s with
        out := (s.emitByte b).out, enc.op := s.enc.op + 1, enc.gflag := (s.emitByte b).enc.gflag,
        enc.processed := 1 } :=
  ⟨storedAt_writeAll _ _ _, rfl⟩

/-- The mask of chunk `GIDX` is bit `7 - GIDX`. -/
theorem getLsbD_literalMask {gidx : Nat} (hg : gidx < 8) (j : Nat) :
    (literalMask gidx).getLsbD j = decide (j = 7 - gidx) := by
  have hmask : literalMask gidx = BitVec.twoPow 8 7 >>> gidx := rfl
  have hplace : 7 = gidx + j ↔ j = 7 - gidx := by omega
  rw [hmask, BitVec.getLsbD_ushiftRight, BitVec.getLsbD_twoPow]
  simp [hplace]

/-- EMIT_LIT inside the source emits the byte at `OFF`. -/
theorem execEmitLit_next {s : State} {b : Byte} (hoff : s.enc.off < s.enc.slen)
    (hb : s.src.read s.enc.off = some b) : execEmitLit s = .next (s.emitByte b) := by
  simp only [execEmitLit, if_neg (Nat.not_le.2 hoff), hb]

/-! ### The operations of an encoder step (R177) -/

/-- The mux is the choice of an instruction (R179). -/
theorem emitBest_eq_exec (s : State) :
    emitBest s = exec (if s.enc.bestLen ≤ 2 then .emitLit
      else if s.enc.bestLen ≤ 17 then .emitRef2 else .emitRef3) s := by
  have hmin : s.enc.bestLen < Config.minMatchLen ↔ s.enc.bestLen ≤ 2 := Nat.lt_succ_iff
  have hlong : s.enc.bestLen < Config.longFormMin ↔ s.enc.bestLen ≤ 17 := Nat.lt_succ_iff
  simp only [emitBest, hmin, hlong]
  split
  · rfl
  · split <;> rfl

/-- The advance and the close are HT_UPDATE at the new offset and GROUP_CLOSE if it is due (R183, R184). -/
theorem advance_then_close (s : State) :
    andThen (advanceEncoder s) closeIfComplete =
      andThen (exec (.htUpdate s.enc.off (s.enc.off + s.enc.processed))
        { s with enc.off := s.enc.off + s.enc.processed }) fun t =>
        if t.enc.gidx + 1 = 8 ∨ t.enc.off = t.enc.slen then
          exec .groupClose { t with enc.gidx := t.enc.gidx + 1 }
        else .next { t with enc.gidx := t.enc.gidx + 1 } :=
  andThen_assoc _ _ _

/-! ### The length of what COMPRESS writes (R188) -/

/-- The code of a legal chunk has a byte, and no more bytes than it stands for. -/
theorem Chunk.code_length_bounds {c : Chunk} {wp dlen : Nat} (h : c.legal wp dlen = true) :
    1 ≤ (encode c.instr).length ∧ (encode c.instr).length ≤ c.size := by
  cases c with
  | lit b => exact ⟨Nat.le_refl 1, Nat.le_refl 1⟩
  | ref dist len =>
    obtain ⟨-, -, hmin, -⟩ := of_decide_eq_true h
    rcases Nat.lt_or_ge len 18 with hshort | hlong
    · rw [Chunk.instr_ref_short hshort]
      exact ⟨Nat.le_add_left 1 1, Nat.le_of_succ_le hmin⟩
    · rw [Chunk.instr_ref_long hlong]
      exact ⟨Nat.le_add_left 1 2, hmin⟩

/-- Legal chunks have a code byte each, and no more code bytes than the destination has room for. -/
theorem codeBytes_length_bounds {cs : List Chunk} {wp dlen : Nat} (h : legalChunks dlen wp cs = true) :
    cs.length ≤ (codeBytes cs).length ∧ wp + (codeBytes cs).length ≤ dlen := by
  induction cs generalizing wp with
  | nil => exact ⟨Nat.le_refl 0, (of_decide_eq_true h).le⟩
  | cons c cs ih =>
    obtain ⟨hc, hcs⟩ := legalChunks_cons.1 h
    obtain ⟨hone, hsize⟩ := Chunk.code_length_bounds hc
    obtain ⟨hcount, hroom⟩ := ih hcs
    have hcons : (codeBytes (c :: cs)).length = (encode c.instr).length + (codeBytes cs).length :=
      List.length_append
    rw [hcons, List.length_cons]
    omega

/-- A body is the codes of its chunks and one flag byte for every 8 chunks begun (30_encoding.md R92). -/
theorem assembleGroups_length (spare : Byte) {n : Nat} {cs : List Chunk} (hn : cs.length ≤ n) :
    (assembleGroups spare n cs).length = (codeBytes cs).length + (cs.length + 7) / 8 := by
  induction n generalizing cs with
  | zero =>
    obtain rfl := List.eq_nil_of_length_eq_zero (Nat.le_zero.1 hn)
    rfl
  | succ n ih =>
    cases cs with
    | nil => rfl
    | cons c cs =>
      have hsplit : (codeBytes (c :: cs)).length =
          (codeBytes ((c :: cs).take 8)).length + (codeBytes ((c :: cs).drop 8)).length := by
        rw [← List.length_append, codeBytes, codeBytes, codeBytes, ← List.flatMap_append,
          List.take_append_drop]
      have hdrop : ((c :: cs).drop 8).length = cs.length + 1 - 8 := List.length_drop
      rw [List.length_cons] at hn
      have hrest := ih (cs := (c :: cs).drop 8) (by omega)
      have hgroup : (assembleGroups spare (n + 1) (c :: cs)).length =
          (codeBytes ((c :: cs).take 8)).length + 1 + (assembleGroups spare n ((c :: cs).drop 8)).length :=
        List.length_append
      rw [hgroup, hrest, hsplit, hdrop, List.length_cons]
      omega

/-- Legal chunks are none exactly when the destination is empty. -/
theorem legalChunks_eq_nil_iff {cs : List Chunk} {dlen : Nat} (h : legalChunks dlen 0 cs = true) :
    cs = [] ↔ dlen = 0 := by
  constructor
  · rintro rfl
    exact (of_decide_eq_true h).symm
  · rintro rfl
    obtain ⟨hcount, hroom⟩ := codeBytes_length_bounds h
    exact List.eq_nil_of_length_eq_zero (by omega)

/-- COMPRESS answers only for a source that fits the size field (R189). -/
theorem execCompress_input_lt {s t : State} (hp : s.phase = .idle) (h : execCompress s = .next t) :
    s.cmd.input.length < Config.sourceLimit := by
  rw [execCompress_idle hp] at h
  obtain ⟨u, hu, -⟩ := (andThen_eq_next_iff _ _ _).1 h
  exact (startCompress_next hu).1

end Sys2Proof.Machine

open Sys2Proof Sys2Proof.Machine

/-- Settles O47: the byte at `OFF` is emitted, and its mask is one bit. -/
theorem emitLitAppendsTheByte : Obligations.EmitLitAppendsTheByte := by
  intro s b hoff hb hg
  obtain ⟨hstored, hframe⟩ := emitByte_storedAt s b
  refine ⟨_, execEmitLit_next hoff hb, hstored, fun j _ => ?_, hframe⟩
  rw [State.emitByte_enc_gflag, setLiteral, BitVec.getLsbD_or, getLsbD_literalMask hg]

/-- Settles O54: the body of legal chunks that fill a destination of the source's length. -/
theorem compressOutputLengthIsBounded : Obligations.CompressOutputLengthIsBounded := by
  intro s t hp ht
  obtain ⟨u, cs, hu, -, hres, hlegal, -⟩ := execCompress_writes hp (execCompress_input_lt hp ht)
  obtain rfl : u = t := Host.Outcome.next.inj (hu.symm.trans ht)
  obtain ⟨hcount, hroom⟩ := codeBytes_length_bounds hlegal
  have hbody : (assembleBody 0#8 cs).length = (codeBytes cs).length + (cs.length + 7) / 8 :=
    assembleGroups_length 0#8 (Nat.le_refl _)
  refine ⟨_, hres, ?_, ?_, fun hempty => ?_, fun hne => ?_⟩
  · rw [List.length_append, headerBytes_length]
    omega
  · rw [List.length_append, headerBytes_length, hbody]
    omega
  · have hcs : cs = [] := (legalChunks_eq_nil_iff hlegal).2 (List.length_eq_zero_iff.2 hempty)
    rw [hempty, hcs]
    exact List.append_nil _
  · have hcs : cs ≠ [] := fun hcs =>
      hne (List.length_eq_zero_iff.1 ((legalChunks_eq_nil_iff hlegal).1 hcs))
    have := List.length_pos_iff.2 hcs
    rw [List.length_append, headerBytes_length, hbody]
    omega

/-- Settles O45: the opened group. -/
theorem groupOpenReservesTheFlag : Obligations.GroupOpenReservesTheFlag :=
  fun s => ⟨_, rfl, openGroup_storedAt s⟩

/-- Settles O46: the slot is inside `OUT`, so the group closes. -/
theorem groupCloseWritesTheFlag : Obligations.GroupCloseWritesTheFlag :=
  fun s hslot => ⟨_, if_pos hslot, closeGroup_storedAt s⟩

/-- Settles O50: the encoder step part by part. -/
theorem encoderStepRunsItsOperationsInOrder : Obligations.EncoderStepRunsItsOperationsInOrder := by
  intro s hp hlt
  rw [step_encode hp, if_pos hlt]
  simp only [encoderStep, emitBest_eq_exec, advance_then_close]
  rfl

end

section
/-! A stream item by what runs it (44_decompressor.md R204 to R213): the step of a replay is the decoded item,
and what a selected GRP and LIT answer. -/

namespace Sys2Proof.Machine

/-- A selected GRP loads the flag byte (R205). -/
theorem exec_grp_selected {s : State} (flags : Byte) (hon : s.replaying = true)
    (howed : s.dec.wp < s.dec.dlen.toNat) (hctx : s.itemCtx = .flag) :
    exec (.grp flags) s = .next (s.loadFlag flags) := by
  rw [exec, execGrp, selected_eq _ hon howed hctx]

/-- A selected LIT writes its byte, and the flag moves on (R207, R213). -/
theorem exec_lit_selected {s : State} (b : Byte) (hon : s.replaying = true)
    (howed : s.dec.wp < s.dec.dlen.toNat) (hctx : s.itemCtx = .literal) :
    exec (.lit b) s = .next ((s.advance 1).putDst b).chunkDone := by
  rw [exec, execLit, selected_eq _ hon howed hctx]

/-- A match code that the decoder state selects is awaited. -/
theorem awaitsReference_of_ctx {s : State} (hon : s.replaying = true)
    (howed : s.dec.wp < s.dec.dlen.toNat) (hctx : s.itemCtx = .reference) : awaitsReference s := by
  obtain ⟨hcnt, hflag⟩ := s.itemCtx_reference_iff.1 hctx
  exact ⟨hon, howed, Nat.pos_of_ne_zero hcnt, hflag⟩

/-- Where the bytes at the cursor decode to an item, one step of the replay executes it (R216). -/
theorem itemStep_of_decode {s : State} {i : Instr} {rest : List Byte}
    (h : decode s.params s.itemCtx s.itemWindow = .ok i rest) : itemStep s = exec i s := by
  rw [itemStep, h]
  exact runItem_eq_exec (encode_decode h).2.2 s.itemCtx_ne_header s

end Sys2Proof.Machine

open Sys2Proof Sys2Proof.Machine

/-- Settles O8: output is owed, so the step is the item's. -/
theorem stepRunsTheDecodedItem : Obligations.StepRunsTheDecodedItem := by
  intro s form i rest hp howed hd
  rw [step_replay hp, if_pos howed, itemStep_of_decode hd]

/-- Settles O14: with no chunk left in the group the decoder state selects GRP. -/
theorem grpLoadsTheFlag : Obligations.GrpLoadsTheFlag :=
  fun flags s hon howed hcnt => exec_grp_selected flags hon howed (s.itemCtx_flag_iff.2 hcnt)

/-- Settles O15: the one write is at `WP`. -/
theorem litWritesOneByte : Obligations.LitWritesOneByte := by
  intro b s hon howed hcnt hflag
  have hctx := s.itemCtx_literal_iff.2 ⟨Nat.ne_of_gt hcnt, hflag⟩
  exact ⟨_, exec_lit_selected b hon howed hctx, storedAt_write s.dst s.dec.wp b, rfl⟩

end

section
/-! One replay in two command forms (44_decompressor.md R202; 60_exceptions.md R248, R249): what the checked decoder
does without a fault the trusted one does too, but for the mode. -/

namespace Sys2Proof.Machine

/-! ### The same replay in another form -/

/-- The replay of `s` as one of a command of the form `form`, in its mode. -/
def State.inForm (form : DecForm) (s : State) : State :=
  { s with mode := modeOf form, phase := .replay form }

/-- An item has ended the command with one of the two faults of the replay (R232, R233, R241). -/
def ReplayFaulted (t : State) : Prop :=
  t.phase = .idle ∧
    (t.status = ⟨.faulted, some .truncatedStream⟩ ∨ t.status = ⟨.faulted, some .corruptCopy⟩)

/-- What a part `run` of a replay makes of `s`, in `t`: the replay goes on, and goes on alike in every form, or a
fault has ended it. -/
def GoesOnInEveryForm (run : State → Result) (s t : State) : Prop :=
  (t.phase = s.phase ∧ ∀ form, run (s.inForm form) = .next (t.inForm form)) ∨ ReplayFaulted t

theorem replayFaulted_truncatedStream (s : State) : ReplayFaulted (s.takeFault .truncatedStream) :=
  ⟨s.takeFault_phase _, .inl (s.takeFault_status _)⟩

theorem replayFaulted_corruptCopy (s : State) : ReplayFaulted (s.takeFault .corruptCopy) :=
  ⟨s.takeFault_phase _, .inr (s.takeFault_status _)⟩

theorem ReplayFaulted.ended {t : State} (h : ReplayFaulted t) : ended t := by
  obtain ⟨-, h | h⟩ := h <;> exact .inr (by rw [h])

/-! ### The copy and the items (R205 to R213) -/

/-- A copy that answers looks neither at the mode nor at the phase. -/
theorem copyLoop_inForm {n : Nat} {s t : State} (form : DecForm) (h : copyLoop n s = .next t) :
    copyLoop n (s.inForm form) = .next (t.inForm form) := by
  induction n generalizing s with
  | zero =>
    cases h
    rfl
  | succ n ih =>
    have hbyte : (s.inForm form).dstByte (s.inForm form).dec.csrc = s.dstByte s.dec.csrc := rfl
    unfold copyLoop at h ⊢
    rw [hbyte]
    split at h
    · exact absurd h (badCopy_ne_next _ _ _)
    · split at h
      · rename_i hroom
        exact (if_pos hroom).trans (ih h)
      · exact absurd h (badCopy_ne_next _ _ _)

theorem copyMatch_inForm {s t : State} (form : DecForm) (h : copyMatch s = .next t) :
    copyMatch (s.inForm form) = .next (t.inForm form) := by
  have hle := (copyMatch_next h).1
  rw [copyMatch, if_pos hle] at h
  exact (if_pos hle).trans (copyLoop_inForm form h)

/-- A match copies alike in every form, or takes CorruptCopy (R211 to R213). -/
theorem validateAndCopy_inForm {s t : State} (h : validateAndCopy s = .next t) :
    GoesOnInEveryForm validateAndCopy s t := by
  rcases validateAndCopy_next h with ⟨hin, he, -⟩ | ⟨-, -, rfl⟩
  · refine .inl ⟨by rw [he], fun form => ?_⟩
    rw [validateAndCopy, if_pos hin] at h
    obtain ⟨u, hu, ht⟩ := (andThen_eq_next_iff _ _ _).1 h
    cases ht
    have hin' : (s.inForm form).copyInBounds = true := hin
    rw [validateAndCopy, if_pos hin', copyMatch_inForm form hu]
    rfl
  · exact .inr (replayFaulted_corruptCopy s)

/-- Every item is run alike in every form, or its match takes CorruptCopy. -/
theorem item_inForm {i : Instr} {c : Ctx} {s t : State} (hi : i.ctx = some c) (hc : c ≠ .header)
    (h : exec i s = .next t) : GoesOnInEveryForm (exec i) s t := by
  obtain ⟨⟨hon, howed, hctx⟩, hitem⟩ := item_next hi hc h
  rcases hitem with ⟨f, rfl, rfl, rfl⟩ | ⟨b, rfl, rfl, rfl⟩ | ⟨n, d, rfl, rfl, hn, hm⟩ | ⟨d, e, rfl, rfl, hm⟩
  · exact .inl ⟨rfl, fun form => exec_grp_selected (s := s.inForm form) f rfl howed hctx⟩
  · exact .inl ⟨rfl, fun form => exec_lit_selected (s := s.inForm form) b rfl howed hctx⟩
  · refine (validateAndCopy_inForm hm).imp_left fun hgo => ⟨hgo.1, fun form => ?_⟩
    exact (exec_ref2_awaited (s := s.inForm form) d hn (awaitsReference_of_ctx rfl howed hctx)).trans (hgo.2 form)
  · refine (validateAndCopy_inForm hm).imp_left fun hgo => ⟨hgo.1, fun form => ?_⟩
    exact (exec_ref3_awaited (s := s.inForm form) d e (awaitsReference_of_ctx rfl howed hctx)).trans (hgo.2 form)

/-- The item at the cursor is fetched alike in every form; a fetch that runs short takes TruncatedStream (R232). -/
theorem itemStep_inForm {s t : State} (h : itemStep s = .next t) : GoesOnInEveryForm itemStep s t := by
  rcases itemStep_cases s with ⟨i, rest, hd, he⟩ | ⟨-, he⟩ | ⟨-, he⟩
  · refine (item_inForm (encode_decode hd).2.2 s.itemCtx_ne_header (he.symm.trans h)).imp_left fun hgo =>
      ⟨hgo.1, fun form => ?_⟩
    exact (itemStep_of_decode (s := s.inForm form) hd).trans (hgo.2 form)
  · obtain rfl := truncatedItem_next (he.symm.trans h)
    exact .inr (replayFaulted_truncatedStream _)
  · rw [he] at h
    cases h

/-! ### The loop and the end of the command (R200, R216) -/

theorem ReplayFaulted.not_replaying {t : State} (h : ReplayFaulted t) : ¬t.replaying = true :=
  State.not_replaying_of_idle h.1

/-- With the destination full the loop does nothing, in every form. -/
theorem replayLoop_inForm_full {n : Nat} {s t : State} (hfull : ¬s.dec.wp < s.dec.dlen.toNat)
    (h : replayLoop n s = .next t) : GoesOnInEveryForm (replayLoop n) s t := by
  rw [replayLoop_done fun hs => hfull hs.2] at h
  cases h
  exact .inl ⟨rfl, fun form => replayLoop_done (s := s.inForm form) fun hs => hfull hs.2⟩

/-- The loop goes on alike item by item; a fault ends it. -/
theorem replayLoop_inForm {n : Nat} {form : DecForm} {s t : State} (hp : s.phase = .replay form)
    (h : replayLoop n s = .next t) : GoesOnInEveryForm (replayLoop n) s t := by
  induction n generalizing s with
  | zero =>
    by_cases howed : s.dec.wp < s.dec.dlen.toNat
    · rw [replayLoop, if_pos ⟨State.replaying_of_phase hp, howed⟩] at h
      cases h
    · exact replayLoop_inForm_full howed h
  | succ n ih =>
    by_cases howed : s.dec.wp < s.dec.dlen.toNat
    · rw [replayLoop_succ, if_pos ⟨State.replaying_of_phase hp, howed⟩] at h
      obtain ⟨u, hu, ht⟩ := (andThen_eq_next_iff _ _ _).1 h
      rcases itemStep_inForm hu with ⟨hup, hstep⟩ | hfault
      · refine (ih (hup.trans hp) ht).imp_left fun hgo => ⟨hgo.1.trans hup, fun form' => ?_⟩
        rw [replayLoop_succ, if_pos ⟨rfl, howed⟩, hstep, andThen_next, hgo.2]
      · rw [replayLoop_done fun hs => hfault.not_replaying hs.1] at ht
        cases ht
        exact .inr hfault
    · exact replayLoop_inForm_full howed h

theorem finishIfReplaying_replay {form form' : DecForm} {s : State} (hp : s.phase = .replay form') :
    finishIfReplaying form s = finishReplay form s := if_pos (State.replaying_of_phase hp)

theorem finishIfReplaying_faulted {form : DecForm} {s : State} (h : ReplayFaulted s) :
    finishIfReplaying form s = .next s := if_neg h.not_replaying

/-- The end of the trusted command is that of the checked one, but for the mode (R200, R202). -/
theorem finishReplay_unsafe {s t : State} (h : finishReplay .alloc s = .next t) :
    finishReplay .unsafeAlloc (s.inForm .unsafeAlloc) = .next { t with mode := .trusted } := by
  have hdst : (s.inForm .unsafeAlloc).dst.readSpan 0 (s.inForm .unsafeAlloc).dec.dlen.toNat =
      s.dst.readSpan 0 s.dec.dlen.toNat := rfl
  simp only [finishReplay, hdst] at h ⊢
  split at h <;> cases h
  rfl

/-- A replay of DECOMPRESS that ends DONE ends alike as one of DECOMPRESS_UNSAFE, but for the mode. -/
theorem replayAndFinish_unsafe {s t : State} (hp : s.phase = .replay .alloc)
    (h : replayAndFinish s = .next t) (hdone : t.status.state = .done) :
    replayAndFinish (s.inForm .unsafeAlloc) = .next { t with mode := .trusted } := by
  rw [replayAndFinish_replay hp] at h
  obtain ⟨u, hu, ht⟩ := (andThen_eq_next_iff _ _ _).1 h
  rcases replayLoop_inForm hp hu with ⟨hup, hloop⟩ | hfault
  · rw [finishIfReplaying_replay (hup.trans hp)] at ht
    have hbound : (s.inForm .unsafeAlloc).replayBound = s.replayBound := rfl
    rw [replayAndFinish_replay rfl, hbound, hloop, andThen_next, finishIfReplaying_replay rfl,
      finishReplay_unsafe ht]
  · rw [finishIfReplaying_faulted hfault] at ht
    cases ht
    obtain ⟨-, hs | hs⟩ := hfault <;> rw [hs] at hdone <;> cases hdone

/-! ### The command (R200, R202) -/

/-- On a buffer without a header a checked command ends in MalformedHeader (R231). -/
theorem runDecompress_absent {form : DecForm} {s : State} (hf : modeOf form = .checked)
    (hbad : ∃ why, decodeHeader s.params s.cmd.input = .rejected why) :
    ∃ k, runDecompress form s =
      .next (((startDecompress form s).advance k).takeFault .malformedHeader) := by
  obtain ⟨k, hk⟩ := headerStep_absent form hf ((decodeHeader_rejected_iff _ _).1 hbad)
  exact ⟨k, by rw [runDecompress, hk, andThen_next, replayAndFinish_idle (State.takeFault_phase _ _)]⟩

section
variable {form : DecForm} {s : State} {size align : BitVec 32} {r body : List Byte}

/-- On a buffer that begins with a header within the capacity, the header step of a command that allocates its
destination sets up the replay (R203, D23). -/
theorem headerStep_fits (hf : form ≠ .into) (hr : r.length = s.params.reservedLen)
    (hin : s.cmd.input = encode (.hdr size align r) ++ body) (hcap : size.toNat ≤ s.params.dstCapacity) :
    headerStep form (startDecompress form s) =
      .next (setUpReplay form ((startDecompress form s).loadHeader size align r)) :=
  (headerStep_found form hr hin).trans (headerFound_fits hf hcap)

/-- Such a command is the replay that is set up and its end (R200). -/
theorem runDecompress_fits (hf : form ≠ .into) (hr : r.length = s.params.reservedLen)
    (hin : s.cmd.input = encode (.hdr size align r) ++ body) (hcap : size.toNat ≤ s.params.dstCapacity) :
    runDecompress form s =
      replayAndFinish (setUpReplay form ((startDecompress form s).loadHeader size align r)) := by
  rw [runDecompress, headerStep_fits hf hr hin hcap, andThen_next]

/-- The replay that is set up stands in its invariant (R47). -/
theorem setUpReplay_fits_replayInv (hf : form ≠ .into) (hr : r.length = s.params.reservedLen)
    (hin : s.cmd.input = encode (.hdr size align r) ++ body) (hcap : size.toNat ≤ s.params.dstCapacity) :
    ReplayInv form (setUpReplay form ((startDecompress form s).loadHeader size align r)) :=
  (headerStep_startDecompress_next (headerStep_fits hf hr hin hcap)).elim And.right nofun

end

/-- Where DECOMPRESS ends DONE, DECOMPRESS_UNSAFE ends alike but for the mode. -/
theorem runDecompress_unsafe {s t : State} (h : runDecompress .alloc s = .next t)
    (hdone : t.status.state = .done) :
    runDecompress .unsafeAlloc s = .next { t with mode := .trusted } := by
  rcases decodeHeader_cases s.params s.cmd.input with ⟨size, align, r, body, -, hr, hin⟩ | hbad
  · by_cases hcap : size.toNat ≤ s.params.dstCapacity
    · have hsame : setUpReplay .unsafeAlloc ((startDecompress .unsafeAlloc s).loadHeader size align r) =
          (setUpReplay .alloc ((startDecompress .alloc s).loadHeader size align r)).inForm .unsafeAlloc := rfl
      rw [runDecompress_fits (form := .alloc) nofun hr hin hcap] at h
      rw [runDecompress_fits (form := .unsafeAlloc) nofun hr hin hcap, hsame]
      exact replayAndFinish_unsafe rfl h hdone
    · rw [runDecompress_alloc_tooLarge hr hin (Nat.not_le.1 hcap)] at h
      cases h
  · obtain ⟨k, hk⟩ := runDecompress_absent (form := .alloc) rfl hbad
    obtain rfl := Host.Outcome.next.inj (hk.symm.trans h)
    rw [State.takeFault_status] at hdone
    cases hdone

/-- DECOMPRESS on an idle engine is admitted as it is. -/
theorem exec_decompress_idle {s : State} (hp : s.phase = .idle) :
    exec .decompress s = runDecompress .alloc s := decompressCommand_idle hp

theorem exec_decompressUnsafe_idle {s : State} (hp : s.phase = .idle) :
    exec .decompressUnsafe s = andThen (admitDecompress .unsafeAlloc s) (runDecompress .unsafeAlloc) :=
  decompressCommand_idle hp

end Sys2Proof.Machine

open Sys2Proof Sys2Proof.Machine

/-- Settles O24: the trusted command is admitted on the streams that DECOMPRESS ends DONE on, and runs alike. -/
theorem unsafeAgreesWithCheckedOrIsRefused : Obligations.UnsafeAgreesWithCheckedOrIsRefused := by
  intro s hp
  rw [exec_decompress_idle hp, exec_decompressUnsafe_idle hp]
  refine ⟨fun t ht hdone => ?_, fun hnone => ?_⟩
  · have hadmit : admitDecompress .unsafeAlloc s = .next s := if_pos ((acceptedStream_iff s).2 ⟨t, ht, hdone⟩)
    rw [hadmit, andThen_next, runDecompress_unsafe ht hdone]
  · have hrefuse : admitDecompress .unsafeAlloc s = .refused .trustedMalformed :=
      if_neg (mt (acceptedStream_iff s).1 hnone)
    rw [hrefuse, andThen_refused]

end

section
/-! A checked replay always ends (44_decompressor.md R219; 70_reset_and_hazards.md R279): every item answers, goes
on with fewer items owed, or takes one of the two faults of the replay. -/

namespace Sys2Proof.Machine

/-! ### One item in checked mode -/

/-- In checked mode a match answers: it copies, or takes CorruptCopy (R211). -/
theorem validateAndCopy_checked {s : State} (hm : s.mode = .checked) (hdist : 1 ≤ s.dec.dist.toNat)
    (hw : s.dst.holds s.dec.wp) : ∃ t, validateAndCopy s = .next t := by
  by_cases hin : s.dec.dist.toNat ≤ s.dec.wp ∧ s.dec.wp + s.dec.len.toNat ≤ s.dec.dlen.toNat
  · obtain ⟨t, ht, -⟩ := validateAndCopy_inside hdist hin.1 hin.2
      fun a _ ha => (Memory.holds_isSome_iff hw a).2 ha
    exact ⟨t, ht⟩
  · rw [validateAndCopy_outside (by omega), hm]
    exact ⟨_, rfl⟩

/-- In checked mode a selected item answers (R204 to R213). -/
theorem item_checked {i : Instr} {s : State} (hm : s.mode = .checked) (hon : s.replaying = true)
    (howed : s.dec.wp < s.dec.dlen.toNat) (hw : s.dst.holds s.dec.wp)
    (hwf : i.wellFormed s.params = true) (hi : i.ctx = some s.itemCtx) : ∃ t, exec i s = .next t := by
  cases i <;> simp only [Instr.ctx, reduceCtorEq, Option.some.injEq] at hi
  case grp flags => exact ⟨_, exec_grp_selected flags hon howed hi.symm⟩
  case lit b => exact ⟨_, exec_lit_selected b hon howed hi.symm⟩
  case ref2 n d =>
    rw [exec_ref2_awaited d (by simpa [Instr.wellFormed] using hwf) (awaitsReference_of_ctx hon howed hi.symm)]
    exact validateAndCopy_checked hm (by rw [State.loadShort_dist]; omega) hw
  case ref3 d e =>
    rw [exec_ref3_awaited d e (awaitsReference_of_ctx hon howed hi.symm)]
    exact validateAndCopy_checked hm (by rw [State.loadLong_dist]; omega) hw
  case hdr => exact absurd hi.symm s.itemCtx_ne_header

section
variable {form : DecForm} {s : State}

/-- In checked mode one step of a replay that owes output answers (R216, R232). -/
theorem itemStep_checked (hp : s.phase = .replay form) (hv : ReplayInv form s) (hm : s.mode = .checked)
    (howed : s.dec.wp < s.dec.dlen.toNat) : ∃ t, itemStep s = .next t := by
  rcases itemStep_cases s with ⟨i, rest, hd, he⟩ | ⟨-, he⟩ | ⟨hshort, -⟩
  · obtain ⟨-, hwf, hi⟩ := encode_decode hd
    rw [he]
    exact item_checked hm (State.replaying_of_phase hp) howed hv.written hwf hi
  · rw [he, truncatedItem, hm]
    exact ⟨_, rfl⟩
  · rw [State.itemWindow_length hv.bufMem_holds] at hshort
    exact absurd hshort (Nat.lt_irrefl _)

/-- It goes on in the replay with fewer items owed, or has taken one of the replay's faults. -/
theorem itemStep_checked_progress (hp : s.phase = .replay form) (hv : ReplayInv form s)
    (hm : s.mode = .checked) (howed : s.dec.wp < s.dec.dlen.toNat) :
    ∃ t, itemStep s = .next t ∧
      ((t.phase = .replay form ∧ ReplayInv form t ∧ t.mode = .checked ∧ t.itemsOwed < s.itemsOwed) ∨
        ReplayFaulted t) := by
  obtain ⟨t, ht⟩ := itemStep_checked hp hv hm howed
  refine ⟨t, ht, (itemStep_inForm ht).imp_left ?_⟩
  rintro ⟨htp, -⟩
  rcases itemStep_progress hp hv howed ht with ⟨htp', htv, hlt⟩ | hidle
  · exact ⟨htp', htv, by rw [htv.mode, ← hv.mode, hm], hlt⟩
  · rw [hidle, hp] at htp
    cases htp

/-- With the destination full the end of the command writes `STATUS` and `RES` only: all of `DST`, or that the
caller's destination is filled (R200, R201, R215). -/
theorem finishReplay_of_full (hv : ReplayInv form s) (hfull : s.dec.wp = s.dec.dlen.toNat) :
    ∃ r, finishReplay form s = .next (s.finish r) ∧ (form = .into → r = .destFilled) ∧
      (form ≠ .into → ∃ bs, r = .bytes bs ∧ bs.length = s.dec.dlen.toNat ∧
        ∀ a, a < bs.length → s.dst.read a = bs[a]?) := by
  obtain ⟨bs, hbs⟩ := Memory.readSpan_holds (a := 0) hv.written (by omega : 0 + s.dec.dlen.toNat ≤ s.dec.wp)
  obtain ⟨hlen, hread⟩ := (Memory.readSpan_eq_some_iff _ _ _ _).1 hbs
  have hbytes : ∀ a, a < bs.length → s.dst.read a = bs[a]? := fun a ha => by
    rw [← hread a (hlen ▸ ha), Nat.zero_add]
  cases form
  case into => exact ⟨_, rfl, fun _ => rfl, fun h => absurd rfl h⟩
  all_goals exact ⟨.bytes bs, by simp [finishReplay, hbs], nofun, fun _ => ⟨bs, rfl, hlen, hbytes⟩⟩

/-! ### Whole replays -/

/-- With the destination full one step ends the command DONE. -/
theorem step_of_full (hp : s.phase = .replay form) (hv : ReplayInv form s)
    (hfull : ¬s.dec.wp < s.dec.dlen.toNat) : ∃ t, step s = .next t ∧ ended t ∧ t.phase = .idle := by
  obtain ⟨r, hr, -⟩ := finishReplay_of_full hv (Nat.le_antisymm hv.wp (Nat.not_lt.1 hfull))
  exact ⟨s.finish r, by rw [step_replay hp, if_neg hfull, hr], .inl rfl, rfl⟩

/-- A checked replay ends within the items it owes and one more step. -/
theorem checkedReplay_ends (n : Nat) (hp : s.phase = .replay form) (hv : ReplayInv form s)
    (hm : s.mode = .checked) (hn : s.itemsOwed ≤ n) :
    ∃ k t, k ≤ n + 1 ∧ core.run k s = .next t ∧ ended t ∧ t.phase = .idle := by
  induction n generalizing s with
  | zero =>
    obtain ⟨t, ht, hend⟩ := step_of_full hp hv (State.full_of_itemsOwed hn)
    exact ⟨1, t, Nat.le_refl 1, (core_run_one s).trans ht, hend⟩
  | succ n ih =>
    by_cases howed : s.dec.wp < s.dec.dlen.toNat
    · obtain ⟨u, hu, hcases⟩ := itemStep_checked_progress hp hv hm howed
      have hstep : step s = .next u := by rw [step_replay hp, if_pos howed, hu]
      rcases hcases with ⟨hup, huv, hum, hlt⟩ | hfault
      · obtain ⟨k, t, hk, hrun, hend⟩ := ih hup huv hum (by omega)
        exact ⟨k + 1, t, by omega, (core_run_succ hstep k).trans hrun, hend⟩
      · exact ⟨1, u, by omega, (core_run_one s).trans hstep, hfault.ended, hfault.1⟩
    · obtain ⟨t, ht, hend⟩ := step_of_full hp hv howed
      exact ⟨1, t, by omega, (core_run_one s).trans ht, hend⟩

/-- The loop of a checked replay, with a bound that covers the items owed, fills the destination or stops at a
fault. -/
theorem replayLoop_checked (n : Nat) (hp : s.phase = .replay form) (hv : ReplayInv form s)
    (hm : s.mode = .checked) (hn : s.itemsOwed ≤ n) :
    ∃ t, replayLoop n s = .next t ∧
      ((t.phase = .replay form ∧ ReplayInv form t ∧ t.dec.wp = t.dec.dlen.toNat) ∨ ReplayFaulted t) := by
  induction n generalizing s with
  | zero =>
    have hfull := State.full_of_itemsOwed hn
    exact ⟨s, replayLoop_done fun h => hfull h.2,
      .inl ⟨hp, hv, Nat.le_antisymm hv.wp (Nat.not_lt.1 hfull)⟩⟩
  | succ n ih =>
    by_cases howed : s.dec.wp < s.dec.dlen.toNat
    · obtain ⟨u, hu, hcases⟩ := itemStep_checked_progress hp hv hm howed
      have hloop : replayLoop (n + 1) s = replayLoop n u := by
        rw [replayLoop_succ, if_pos ⟨State.replaying_of_phase hp, howed⟩, hu, andThen_next]
      rw [hloop]
      rcases hcases with ⟨hup, huv, hum, hlt⟩ | hfault
      · exact ih hup huv hum (by omega)
      · exact ⟨u, replayLoop_done fun h => hfault.not_replaying h.1, .inr hfault⟩
    · exact ⟨s, replayLoop_done fun h => howed h.2,
        .inl ⟨hp, hv, Nat.le_antisymm hv.wp (Nat.not_lt.1 howed)⟩⟩

/-- A checked replay that is run to its end ends DONE, or in one of the replay's faults. -/
theorem replayAndFinish_checked (hp : s.phase = .replay form) (hv : ReplayInv form s)
    (hm : s.mode = .checked) :
    ∃ t, replayAndFinish s = .next t ∧ ((t.phase = .idle ∧ t.status = ⟨.done, none⟩) ∨ ReplayFaulted t) := by
  obtain ⟨u, hu, hcases⟩ := replayLoop_checked s.replayBound hp hv hm s.itemsOwed_le_replayBound
  rw [replayAndFinish_replay hp, hu, andThen_next]
  rcases hcases with ⟨hup, huv, hfull⟩ | hfault
  · obtain ⟨r, hr, -⟩ := finishReplay_of_full huv hfull
    exact ⟨_, (finishIfReplaying_replay hup).trans hr, .inl ⟨rfl, rfl⟩⟩
  · exact ⟨u, finishIfReplaying_faulted hfault, .inr hfault⟩

end

end Sys2Proof.Machine

open Sys2Proof Sys2Proof.Machine

/-- Settles O57: the items owed are at most twice the bytes owed. -/
theorem checkedReplayEndsInTime : Obligations.CheckedReplayEndsInTime := by
  intro s form hs hp hm
  have hv : ReplayInv form s := by simpa only [phaseInv, hp] using hs.phase
  exact checkedReplay_ends _ hp hv hm (Nat.sub_le _ _)

/-- Settles O11: with no output owed the step is the end of the command. -/
theorem stepEndsTheFullReplay : Obligations.StepEndsTheFullReplay := by
  intro s form hp hv hfull
  obtain ⟨r, hr, hinto, halloc⟩ := finishReplay_of_full hv hfull
  have hstep : step s = .next (s.finish r) := by rw [step_replay hp, if_neg hfull.not_lt, hr]
  exact ⟨_, hstep, rfl, rfl, rfl, rfl, rfl, hinto, halloc⟩

/-- Settles O29: by the header of the input, then by what a checked replay ends in. -/
theorem decompressAlwaysEnds : Obligations.DecompressAlwaysEnds := by
  intro s hp
  rw [exec_decompress_idle hp]
  rcases decodeHeader_cases s.params s.cmd.input with ⟨size, align, r, body, hd, hr, hin⟩ | hbad
  · by_cases hcap : size.toNat ≤ s.params.dstCapacity
    · rw [runDecompress_fits (form := .alloc) nofun hr hin hcap]
      obtain ⟨t, ht, ⟨hidle, hdone⟩ | ⟨hidle, hfault⟩⟩ := replayAndFinish_checked rfl
        (setUpReplay_fits_replayInv (form := .alloc) nofun hr hin hcap) rfl
      · exact .inl ⟨t, ht, hidle, .inl hdone⟩
      · exact .inl ⟨t, ht, hidle, .inr (.inr hfault)⟩
    · have hlt := Nat.not_le.1 hcap
      exact .inr ⟨size, align, r, body, hd, hlt, runDecompress_alloc_tooLarge hr hin hlt⟩
  · obtain ⟨k, hk⟩ := runDecompress_absent (form := .alloc) rfl hbad
    exact .inl ⟨_, hk, State.takeFault_phase _ _, .inr (.inl (State.takeFault_status _ _))⟩

end

section
/-! DECOMPRESS_INTO by the length of its destination, and REPLAY over a legal stream (44_decompressor.md R201, R216;
60_exceptions.md R234). -/

namespace Sys2Proof.Machine

section
variable {s : State} {size align : BitVec 32} {r body trailing : List Byte} {spare : Byte} {cs : List Chunk}

/-- A caller's destination of the declared size is replayed into (R201, R203). -/
theorem headerFound_into_fits {d : DestRef} (hdest : s.cmd.dest = some d) (hlen : d.len = s.hdr.size.toNat) :
    headerFound .into s = .next (setUpReplay .into s) := by
  simp only [headerFound, hdest, if_pos hlen]

/-- One of another length takes InsufficientDestination (R234). -/
theorem headerFound_into_insufficient {d : DestRef} (hdest : s.cmd.dest = some d)
    (hlen : d.len ≠ s.hdr.size.toNat) :
    headerFound .into s = .next (s.takeFault .insufficientDestination) := by
  simp only [headerFound, hdest, if_neg hlen]

/-- DECOMPRESS_INTO with a destination apart from its input, behind its header read (R201, R203). -/
theorem exec_decompressInto_found {n : Nat} (hp : s.phase = .idle) (hdest : s.cmd.dest = some ⟨n, false⟩)
    (hr : r.length = s.params.reservedLen) (hin : s.cmd.input = encode (.hdr size align r) ++ body) :
    exec .decompressInto s =
      andThen (headerFound .into ((startDecompress .into s).loadHeader size align r)) replayAndFinish := by
  have hadmit : admitDecompress .into s = .next s := by simp [admitDecompress, hdest]
  have hcommand : exec .decompressInto s = andThen (admitDecompress .into s) (runDecompress .into) :=
    decompressCommand_idle hp
  rw [hcommand, hadmit, andThen_next, runDecompress, headerStep_found .into hr hin]

/-- A replay started over the stream of a chunk list stands behind the header with nothing written (R216). -/
theorem replayInit_standing (hon : s.replaying = true) (hbuf : s.rd.buf = .stream) (hdst : s.dst = [])
    (hr : r.length = s.params.reservedLen)
    (hstream : s.stream = Memory.ofBytes (streamBytes size align r spare cs trailing))
    (hlen : s.rd.len = (streamBytes size align r spare cs trailing).length) :
    Standing s.replayInit [] (assembleBody spare cs ++ trailing) := by
  have hsplit : streamBytes size align r spare cs trailing =
      encode (.hdr size align r) ++ (assembleBody spare cs ++ trailing) := List.append_assoc _ _ _
  rw [hsplit] at hstream hlen
  refine ⟨hon, hbuf, ⟨encode (.hdr size align r), hstream, ?_, hlen⟩, hdst, rfl⟩
  rw [encode_hdr_length, hr, State.replayInit_rd_pos]

/-- REPLAY over the stream of a legal chunk list fills the destination with what the chunks stand for, and
changes nothing but `DST`, the cursor and the decoder's registers. -/
theorem execReplay_chunks (hon : s.replaying = true) (hbuf : s.rd.buf = .stream) (hdst : s.dst = [])
    (hdlen : s.dec.dlen = size) (hr : r.length = s.params.reservedLen)
    (hl : legalChunks size.toNat 0 cs = true)
    (hstream : s.stream = Memory.ofBytes (streamBytes size align r spare cs trailing))
    (hlen : s.rd.len = (streamBytes size align r spare cs trailing).length) :
    ∃ t, execReplay s = .next t ∧ t.dec.wp = size.toNat ∧ t.dst = Memory.ofBytes (expandChunks cs) ∧
      Progress s.replayInit t := by
  have hst := replayInit_standing hon hbuf hdst hr hstream hlen
  subst hdlen
  obtain ⟨t, ht, hts, hprog, hfull⟩ := replayLoop_chunks s.replayBound (s := s.replayInit) (out := [])
    (k := 8) (m := cs.length) (g := []) (cs := cs) (trailing := trailing) hst (Nat.le_refl _) rfl
    (Nat.le_refl _) (.inl rfl) (by simp [groupFlag]) hl (Nat.le_refl _)
  refine ⟨t, by rw [execReplay, if_pos hon, ht], ?_, hts.dst, hprog⟩
  rw [hfull, hprog.2, State.replayInit_dec_dlen]

end

end Sys2Proof.Machine

open Sys2Proof Sys2Proof.Machine

/-- Settles O27: the header step finds another length, and that fault leaves `DST` alone. -/
theorem wrongDestinationLengthIsInsufficient : Obligations.WrongDestinationLengthIsInsufficient := by
  intro s size align r body n hp hr hin hdest hne
  have hfound : headerFound .into ((startDecompress .into s).loadHeader size align r) = .next _ :=
    headerFound_into_insufficient hdest hne
  rw [exec_decompressInto_found hp hdest hr hin, hfound, andThen_next,
    replayAndFinish_idle (State.takeFault_phase _ _)]
  exact ⟨_, rfl, rfl, rfl, rfl, rfl⟩

/-- Settles O23: the length fits, and the replay over the chunks fills the destination. -/
theorem decompressIntoFillsTheDestination : Obligations.DecompressIntoFillsTheDestination := by
  intro s size align r spare cs trailing hp hr hl hin hdest
  have hhead : s.cmd.input = encode (.hdr size align r) ++ (assembleBody spare cs ++ trailing) :=
    hin.trans (List.append_assoc _ _ _)
  have hfound : headerFound .into ((startDecompress .into s).loadHeader size align r) = .next _ :=
    headerFound_into_fits hdest rfl
  obtain ⟨u, hrun, hdst, -, -, -, hmode⟩ := replayAndFinish_chunks .into hr hl hin
  rw [exec_decompressInto_found hp hdest hr hhead, hfound, andThen_next, hrun]
  exact ⟨u.finish .destFilled, rfl, rfl, rfl, hdst, hmode⟩

/-- Settles O25: the loop over the chunks, whatever the mode. -/
theorem replayExpandsEveryLegalStream : Obligations.ReplayExpandsEveryLegalStream := by
  intro s form size align r spare cs trailing hp hbuf hrd hdst _ hdlen hr hl hstream hlen
  obtain ⟨t, ht, hwp, htdst, hprog, -⟩ := execReplay_chunks (State.replaying_of_phase hp) hbuf hdst hdlen hr hl
    hstream (hrd.trans hlen)
  exact ⟨t, ht, hwp, htdst, by rw [hprog]; rfl, by rw [hprog]; rfl⟩

end

section
/-! Two faults of the decompress commands (60_exceptions.md R231, R232, R239 to R241): TruncatedStream at a fetch of
too few bytes, and MalformedHeader ahead of the replay. -/

namespace Sys2Proof.Machine

/-! ### TruncatedStream (R232, R239) -/

/-- The reads of a truncated item move the cursor and the decoder's temporaries; `WP`, `CNT`, `FLAG` and the rest
of the machine stay (R239). -/
theorem State.partialFetch_frame (s : State) :
    ∃ rd dec, s.partialFetch = { s with rd := rd, dec := dec } ∧
      dec.wp = s.dec.wp ∧ dec.cnt = s.dec.cnt ∧ dec.flag = s.dec.flag := by
  rcases s.partialFetch_cases with h | ⟨b0, b1, -, h⟩
  · exact ⟨s.rd, s.dec, h, rfl, rfl, rfl⟩
  · exact ⟨_, _, h, rfl, rfl, rfl⟩

/-- Over a whole buffer, where the bytes at the cursor are too few for an item, the checked decoder takes
TruncatedStream behind the reads that succeeded (R232). -/
theorem itemStep_of_rejected {s : State} {why : DecodeError} (hw : (s.bufMem s.rd.buf).holds s.rd.len)
    (hm : s.mode = .checked) (h : decode s.params s.itemCtx s.itemWindow = .rejected why) :
    itemStep s = .next (s.partialFetch.takeFault .truncatedStream) := by
  have hwhole : ¬s.itemWindow.length < s.itemAvail := (State.itemWindow_length hw).not_lt
  simp only [itemStep, h, if_neg hwhole, truncatedItem, hm]

/-! ### MalformedHeader (R231, R240) -/

/-- DECOMPRESS_INTO with a destination apart from its input is admitted as it is (R201, D15). -/
theorem exec_decompressInto_admitted {s : State} {n : Nat} (hp : s.phase = .idle)
    (hdest : s.cmd.dest = some ⟨n, false⟩) : exec .decompressInto s = runDecompress .into s := by
  have hadmit : admitDecompress .into s = .next s := by simp [admitDecompress, hdest]
  exact (decompressCommand_idle hp).trans (by rw [hadmit, andThen_next])

/-- A checked decompress command without a header takes MalformedHeader before it touches `DST` (R242). -/
theorem runDecompress_noHeader {form : DecForm} {s : State} (hf : modeOf form = .checked)
    (hbad : s.cmd.input.length < s.params.headerSize ∨ s.cmd.input.take 4 ≠ [0x59#8, 0x61#8, 0x7A#8, 0x30#8]) :
    ∃ t, runDecompress form s = .next t ∧ t.status = ⟨.faulted, some .malformedHeader⟩ ∧
      t.res = .nothing ∧ t.dst = s.dst ∧ t.dstSpoiled = s.dstSpoiled := by
  obtain ⟨k, hk⟩ := runDecompress_absent hf ((decodeHeader_rejected_iff s.params s.cmd.input).2 hbad)
  exact ⟨_, hk, rfl, rfl, rfl, rfl⟩

end Sys2Proof.Machine

open Sys2Proof Sys2Proof.Machine

/-- Settles O10: the step is the fetch that fails, and its reads and the fault leave the rest alone. -/
theorem stepTakesTruncatedStream : Obligations.StepTakesTruncatedStream := by
  intro s form why hp hv hm howed hd
  have hstep : step s = .next (s.partialFetch.takeFault .truncatedStream) := by
    rw [step_replay hp, if_pos howed, itemStep_of_rejected hv.bufMem_holds hm hd]
  obtain ⟨rd, dec, hfetch, hwp, hcnt, hflag⟩ := s.partialFetch_frame
  rw [hfetch] at hstep
  exact ⟨_, hstep, rfl, rfl, rfl, hwp, hcnt, hflag, rfl, rfl, rfl, rfl, rfl, rfl, rfl, rfl, rfl⟩

/-- Settles O26: both commands are admitted, and either takes the fault in its header step. -/
theorem noHeaderTakesMalformedHeader : Obligations.NoHeaderTakesMalformedHeader := by
  intro s hp hbad
  refine ⟨?_, fun n hdest => ?_⟩
  · rw [exec_decompress_idle hp]
    exact runDecompress_noHeader rfl hbad
  · rw [exec_decompressInto_admitted hp hdest]
    exact runDecompress_noHeader rfl hbad

end
